-- ==== Sys2Proof/Word.lean ====
section
/-! DEFINITION. The widths the CFBX unit works in: its 32-bit word, its byte and its 128-bit block (R8, R9). -/

namespace Sys2Proof

/-- A 32-bit word (R8 `WORD_BITS`; R16 "fixed-width (32-bit) unit of the binary buffer's backing storage"). -/
abbrev Word := BitVec 32

/-- One byte of a buffer's word (R11). -/
abbrev Byte := BitVec 8

/-- A 128-bit block (R8 `BLOCK_BITS`). -/
abbrev Block := BitVec 128

end Sys2Proof
end

