-- ==== Sys2Proof/Config.lean ====
section
/-! DEFINITION. What an implementation of the unit fixes: the parameters of R8 and the constants of R41 and R161; and the
free values, opaque constants with no body, for what the spec leaves open (R36, R61, R257, R270). -/

namespace Sys2Proof.Config

/-- `NBUF` of R8: the number of buffer registers. -/
abbrev nbuf : Nat := 8

/-- `NSCALAR` of R8: the number of scalar registers. -/
abbrev nscalar : Nat := 8

/-- `BUF_CAP_WORDS` of R8: the most words a buffer register holds. -/
abbrev bufCapWords : Nat := 32

/-- `IMEM_WORDS` of R8 and R50. -/
abbrev imemWords : Nat := 1024

/-- `DMEM_WORDS` of R8 and R51. -/
abbrev dmemWords : Nat := 65536

/-- `SEGMENT_SET` of R8: the legal segment sizes, in bits. -/
abbrev segmentSet : List Nat := [8, 16, 32, 64, 128]

/-- `RB` of R8 as the four words of R161, word 0 most significant. -/
def rbWords : List Word := [0x00000000#32, 0x00000000#32, 0x00000000#32, 0x00000087#32]

/-- The constant the PARAMS register reads as (R41). -/
def params : Word := 0x01040820#32

/-- `CIPH` (R36, D31): the external block cipher, a total function on 128-bit values whose key is already applied. The
first argument says which function the host has keyed (`State.cipherKey`; log 3). No value of it can be proved. -/
opaque ciph : Nat → Block → Block

/-- The word an IMEM index holds after power-up, when nothing has written it (R61, R276; log 2): a free value. -/
opaque powerUpImem : Nat → Word

/-- The word a DMEM address holds after power-up, when nothing has written it (R61; log 2): a free value. -/
opaque powerUpDmem : Nat → Word

/-- What a host read of a memory window returns while BUSY = 1 (R257; log 8): a free value, a fresh one for each draw. -/
opaque busyRead : Nat → Word

/-- What a DMEM word in the span of a command cut short by reset holds afterwards (R270; log 9): a free value for each
draw and address. -/
opaque tornWord : Nat → Nat → Word

end Sys2Proof.Config
end

