-- ==== Sys2Proof/Syntax.lean ====
section
/-! DEFINITION. The commands of the unit, one constructor per row of the opcode map R77, with the operands of R75. Register
operands are numbers 0 to 7; addresses, counts and segment sizes are natural numbers and the shift amount of SHL is an
integer, as R76 reads them; `Instr.WellFormed` says which of them an encoding admits. -/

namespace Sys2Proof

/-- A buffer-register number, `b0` to `b7` (R15, R22). -/
abbrev BufReg := Fin Config.nbuf

/-- A scalar-register number, `s0` to `s7` (R15, R27). -/
abbrev ScalarReg := Fin Config.nscalar

/-- The two mirror variants of a CFB session (R35): DIR = 0 is the Encryptor, DIR = 1 the Decryptor. -/
inductive Dir where
  | encryptor
  | decryptor
deriving DecidableEq, Repr

/-- The 24 commands of R77. Each constructor's operands stand in the order of the assembler syntax R90. -/
inductive Instr where
  /-- `NOP` (R205). -/
  | nop
  /-- `HALT` (R206). -/
  | halt
  /-- `BLD bd, addr, n` (R207). -/
  | bld (rd : BufReg) (addr n : Nat)
  /-- `BST bs, addr` (R208). -/
  | bst (r : BufReg) (addr : Nat)
  /-- `SST ss, addr` (R209). -/
  | sst (r : ScalarReg) (addr : Nat)
  /-- `BCLR bd, n` (R210). -/
  | bclr (rd : BufReg) (n : Nat)
  /-- `BMOV bd, ba` (R103). -/
  | bmov (rd ra : BufReg)
  /-- `CLAMP bd` (R102). -/
  | clamp (rd : BufReg)
  /-- `SHL bd, ss, n` (R104). -/
  | shl (rd : BufReg) (ra : ScalarReg) (n : Int)
  /-- `LMW bd, ba, n` (R110). -/
  | lmw (rd ra : BufReg) (n : Nat)
  /-- `LMB bd, ba, n` (R111). -/
  | lmb (rd ra : BufReg) (n : Nat)
  /-- `RMB bd, ba, n` (R112). -/
  | rmb (rd ra : BufReg) (n : Nat)
  /-- `POPW bd, ba, n` (R120). -/
  | popw (rd ra : BufReg) (n : Nat)
  /-- `SHOB bd, ba, n` (R121). -/
  | shob (rd ra : BufReg) (n : Nat)
  /-- `XOR bd, ba, bb` (R130). -/
  | xor (rd ra rb : BufReg)
  /-- `XORT bd, ba, bb` (R132). -/
  | xort (rd ra rb : BufReg)
  /-- `AND bd, ba, bb` (R133). -/
  | and (rd ra rb : BufReg)
  /-- `EQ sd, ba, bb` (R140). -/
  | eq (rd : ScalarReg) (ra rb : BufReg)
  /-- `MSB sd, ba` (R145). -/
  | msb (rd : ScalarReg) (ra : BufReg)
  /-- `CAT bd, ba, bb` (R150). -/
  | cat (rd ra rb : BufReg)
  /-- `DBL bd` (R160). -/
  | dbl (rd : BufReg)
  /-- `CFBI dir, addr, seg` (R171). -/
  | cfbi (dir : Dir) (addr seg : Nat)
  /-- `CFBP addr, nblk` (R177). -/
  | cfbp (addr nblk : Nat)
  /-- `CFBS addr` (R185). -/
  | cfbs (addr : Nat)
deriving DecidableEq, Repr

end Sys2Proof
end

