-- ==== Sys2Proof/WellFormed.lean ====
section
/-! DEFINITION. Which command terms an encoding admits: the ranges R76 gives the immediate fields. Register numbers are
bounded by their type. An operand that is in range but that the command's rule rejects (a segment size of 24, a shift by
40) is well formed: the command runs and raises the fault its rule names (R79). -/

namespace Sys2Proof

/-- `addr16` is `zext(cmd[23:8])` (R73, R76). -/
abbrev addrFits (addr : Nat) : Prop := addr < 65536

/-- `imm8`, `n8` and `seg8`, read without sign, are `zext(cmd[7:0])` (R76): 0 to 255. -/
abbrev imm8Fits (n : Nat) : Prop := n < 256

/-- `imm8` of SHL is `sext_8(cmd[7:0])` (R76): -128 to 127. -/
abbrev shiftFits (n : Int) : Prop := -128 ≤ n ∧ n ≤ 127

/-- The operands of `i` lie in the ranges its encoding's fields hold (R72 to R76). -/
def Instr.WellFormed : Instr → Bool
  | .nop => true
  | .halt => true
  | .bld _ addr n => decide (addrFits addr ∧ imm8Fits n)
  | .bst _ addr => decide (addrFits addr)
  | .sst _ addr => decide (addrFits addr)
  | .bclr _ n => decide (imm8Fits n)
  | .bmov _ _ => true
  | .clamp _ => true
  | .shl _ _ n => decide (shiftFits n)
  | .lmw _ _ n => decide (imm8Fits n)
  | .lmb _ _ n => decide (imm8Fits n)
  | .rmb _ _ n => decide (imm8Fits n)
  | .popw _ _ n => decide (imm8Fits n)
  | .shob _ _ n => decide (imm8Fits n)
  | .xor _ _ _ => true
  | .xort _ _ _ => true
  | .and _ _ _ => true
  | .eq _ _ _ => true
  | .msb _ _ => true
  | .cat _ _ _ => true
  | .dbl _ => true
  | .cfbi _ addr seg => decide (addrFits addr ∧ imm8Fits seg)
  | .cfbp addr nblk => decide (addrFits addr ∧ imm8Fits nblk)
  | .cfbs addr => decide (addrFits addr)

end Sys2Proof
end

