-- ==== Sys2Proof/Decode.lean ====
section
/-! DEFINITION. The decoder R78 over the opcode map R77, total on every 32-bit word, and the encoder, written from the
formats R71 to R74. -/

namespace Sys2Proof

/-- Why a word spells no command (R78, R79). Either way the sequencer raises ILLEGAL_COMMAND. -/
inductive DecodeError where
  /-- The opcode 0x00, 0x16, 0x17 or 0x1B to 0x1F is reserved. -/
  | reservedOpcode
  /-- A must-be-zero field of a defined opcode is nonzero. -/
  | mustBeZero
deriving DecidableEq, Repr

/-- The opcode field `cmd[31:27]` (R77). -/
def fieldOp (w : Word) : BitVec 5 := w.extractLsb' 27 5

/-- The register number in `cmd[26:24]`: `rd` of format R, `r` of format M (R72, R73). -/
def fieldRd (w : Word) : Fin 8 := (w.extractLsb' 24 3).toFin

/-- The register number in `cmd[23:21]`, `ra` of format R (R72). -/
def fieldRa (w : Word) : Fin 8 := (w.extractLsb' 21 3).toFin

/-- The register number in `cmd[20:18]`, `rb` of format R (R72). -/
def fieldRb (w : Word) : Fin 8 := (w.extractLsb' 18 3).toFin

/-- `cmd[7:0]` read without sign: `imm8`, `n8` and `seg8` (R76). -/
def fieldImm8 (w : Word) : Nat := (w.extractLsb' 0 8).toNat

/-- `sext_8(cmd[7:0])`, the shift amount of SHL (R76). -/
def fieldShift (w : Word) : Int := (w.extractLsb' 0 8).toInt

/-- `addr16`, `cmd[23:8]` (R73, R76). -/
def fieldAddr (w : Word) : Nat := (w.extractLsb' 8 16).toNat

/-- `dir`, `cmd[26]` (R74): 0 for the Encryptor and 1 for the Decryptor. -/
def fieldDir (w : Word) : Dir := if w.getLsbD 26 then .decryptor else .encryptor

/-- One row of R77: the word's fixed bits, the mask over them, and the command its fields make. -/
structure OpRow where
  pattern : Word
  mask : Word
  build : Word → Instr

/-- The row of an opcode in R77; none for the reserved opcodes (R79). -/
def opRow (op : Nat) : Option OpRow :=
  match op with
  | 0x01 => some ⟨0x08000000#32, 0xFFFFFFFF#32, fun _ => .nop⟩
  | 0x02 => some ⟨0x10000000#32, 0xFFFFFFFF#32, fun _ => .halt⟩
  | 0x03 => some ⟨0x18000000#32, 0xF8000000#32, fun w => .bld (fieldRd w) (fieldAddr w) (fieldImm8 w)⟩
  | 0x04 => some ⟨0x20000000#32, 0xF80000FF#32, fun w => .bst (fieldRd w) (fieldAddr w)⟩
  | 0x05 => some ⟨0x28000000#32, 0xF80000FF#32, fun w => .sst (fieldRd w) (fieldAddr w)⟩
  | 0x06 => some ⟨0x30000000#32, 0xF8FFFF00#32, fun w => .bclr (fieldRd w) (fieldImm8 w)⟩
  | 0x07 => some ⟨0x38000000#32, 0xF81FFFFF#32, fun w => .bmov (fieldRd w) (fieldRa w)⟩
  | 0x08 => some ⟨0x40000000#32, 0xF8FFFFFF#32, fun w => .clamp (fieldRd w)⟩
  | 0x09 => some ⟨0x48000000#32, 0xF81FFF00#32, fun w => .shl (fieldRd w) (fieldRa w) (fieldShift w)⟩
  | 0x0A => some ⟨0x50000000#32, 0xF81FFF00#32, fun w => .lmw (fieldRd w) (fieldRa w) (fieldImm8 w)⟩
  | 0x0B => some ⟨0x58000000#32, 0xF81FFF00#32, fun w => .lmb (fieldRd w) (fieldRa w) (fieldImm8 w)⟩
  | 0x0C => some ⟨0x60000000#32, 0xF81FFF00#32, fun w => .rmb (fieldRd w) (fieldRa w) (fieldImm8 w)⟩
  | 0x0D => some ⟨0x68000000#32, 0xF81FFF00#32, fun w => .popw (fieldRd w) (fieldRa w) (fieldImm8 w)⟩
  | 0x0E => some ⟨0x70000000#32, 0xF81FFF00#32, fun w => .shob (fieldRd w) (fieldRa w) (fieldImm8 w)⟩
  | 0x0F => some ⟨0x78000000#32, 0xF803FFFF#32, fun w => .xor (fieldRd w) (fieldRa w) (fieldRb w)⟩
  | 0x10 => some ⟨0x80000000#32, 0xF803FFFF#32, fun w => .xort (fieldRd w) (fieldRa w) (fieldRb w)⟩
  | 0x11 => some ⟨0x88000000#32, 0xF803FFFF#32, fun w => .and (fieldRd w) (fieldRa w) (fieldRb w)⟩
  | 0x12 => some ⟨0x90000000#32, 0xF803FFFF#32, fun w => .eq (fieldRd w) (fieldRa w) (fieldRb w)⟩
  | 0x13 => some ⟨0x98000000#32, 0xF81FFFFF#32, fun w => .msb (fieldRd w) (fieldRa w)⟩
  | 0x14 => some ⟨0xA0000000#32, 0xF803FFFF#32, fun w => .cat (fieldRd w) (fieldRa w) (fieldRb w)⟩
  | 0x15 => some ⟨0xA8000000#32, 0xF8FFFFFF#32, fun w => .dbl (fieldRd w)⟩
  | 0x18 => some ⟨0xC0000000#32, 0xFB000000#32, fun w => .cfbi (fieldDir w) (fieldAddr w) (fieldImm8 w)⟩
  | 0x19 => some ⟨0xC8000000#32, 0xFF000000#32, fun w => .cfbp (fieldAddr w) (fieldImm8 w)⟩
  | 0x1A => some ⟨0xD0000000#32, 0xFF0000FF#32, fun w => .cfbs (fieldAddr w)⟩
  | _ => none

/-- Decode (R78): the reserved opcodes first, then the must-be-zero fields, then the command. -/
def decode (w : Word) : Except DecodeError Instr :=
  match opRow (fieldOp w).toNat with
  | none => .error .reservedOpcode
  | some row => if w &&& row.mask = row.pattern then .ok (row.build w) else .error .mustBeZero

/-- Format S (R71): the opcode over zeros. -/
def encodeS (op : BitVec 5) : Word := op ++ 0#27

/-- Format R (R72): op, rd, ra, rb, ten zero bits, imm8. -/
def encodeR (op : BitVec 5) (rd ra rb : Fin 8) (imm8 : BitVec 8) : Word :=
  op ++ BitVec.ofNat 3 rd.val ++ BitVec.ofNat 3 ra.val ++ BitVec.ofNat 3 rb.val ++ 0#10 ++ imm8

/-- Format M (R73): op, r, addr16, n8. -/
def encodeM (op : BitVec 5) (r : Fin 8) (addr n : Nat) : Word :=
  op ++ BitVec.ofNat 3 r.val ++ BitVec.ofNat 16 addr ++ BitVec.ofNat 8 n

/-- The `dir` bit (R74). -/
def dirBit (d : Dir) : BitVec 1 :=
  match d with
  | .encryptor => 0#1
  | .decryptor => 1#1

/-- Format C (R74): op, dir, two zero bits, addr16, seg8. -/
def encodeC (op : BitVec 5) (d : Dir) (addr seg : Nat) : Word :=
  op ++ dirBit d ++ 0#2 ++ BitVec.ofNat 16 addr ++ BitVec.ofNat 8 seg

/-- The word of a well-formed command (R71 to R77). -/
def encode (i : Instr) : Word :=
  match i with
  | .nop => encodeS 0x01#5
  | .halt => encodeS 0x02#5
  | .bld rd addr n => encodeM 0x03#5 rd addr n
  | .bst r addr => encodeM 0x04#5 r addr 0
  | .sst r addr => encodeM 0x05#5 r addr 0
  | .bclr rd n => encodeR 0x06#5 rd 0 0 (BitVec.ofNat 8 n)
  | .bmov rd ra => encodeR 0x07#5 rd ra 0 0#8
  | .clamp rd => encodeR 0x08#5 rd 0 0 0#8
  | .shl rd ra n => encodeR 0x09#5 rd ra 0 (BitVec.ofInt 8 n)
  | .lmw rd ra n => encodeR 0x0A#5 rd ra 0 (BitVec.ofNat 8 n)
  | .lmb rd ra n => encodeR 0x0B#5 rd ra 0 (BitVec.ofNat 8 n)
  | .rmb rd ra n => encodeR 0x0C#5 rd ra 0 (BitVec.ofNat 8 n)
  | .popw rd ra n => encodeR 0x0D#5 rd ra 0 (BitVec.ofNat 8 n)
  | .shob rd ra n => encodeR 0x0E#5 rd ra 0 (BitVec.ofNat 8 n)
  | .xor rd ra rb => encodeR 0x0F#5 rd ra rb 0#8
  | .xort rd ra rb => encodeR 0x10#5 rd ra rb 0#8
  | .and rd ra rb => encodeR 0x11#5 rd ra rb 0#8
  | .eq rd ra rb => encodeR 0x12#5 rd ra rb 0#8
  | .msb rd ra => encodeR 0x13#5 rd ra 0 0#8
  | .cat rd ra rb => encodeR 0x14#5 rd ra rb 0#8
  | .dbl rd => encodeR 0x15#5 rd 0 0 0#8
  | .cfbi d addr seg => encodeC 0x18#5 d addr seg
  | .cfbp addr nblk => encodeM 0x19#5 0 addr nblk
  | .cfbs addr => encodeM 0x1A#5 0 addr 0

/-- The command the decoder reads from a table row's bits: the low `nbits` of `w`, every higher bit zero. A command is one
32-bit word (R70), so the row's bits are the word's and no byte order is involved (R56). -/
def decodeTableWord (nbits w : Nat) : Option Instr :=
  match decode (BitVec.ofNat 32 (w % 2 ^ nbits)) with
  | .ok i => some i
  | .error _ => none

end Sys2Proof
end

