-- ==== Sys2Proof/Machine/State.lean ====
section
/-! DEFINITION. Everything the spec gives the unit (R20), as plain data; the model's own fields for its environment (the
host, the platform's reset, the external cipher's keying); and the state right after reset (R271). -/

namespace Sys2Proof.Machine

/-- A buffer value (R21): `valid`, the words `w` with index 0 most significant (R10), and `sig`, the source's
`significantBytes`. Its length `len` is the number of its words. -/
structure Buf where
  valid : Bool
  w : List Word
  sig : Nat
deriving DecidableEq, Repr

/-- `len` of R21: "`len` is `words.length`". -/
abbrev Buf.len (b : Buf) : Nat := b.w.length

/-- A register that holds no buffer, as after reset (R23, R271). -/
abbrev Buf.invalid : Buf := { valid := false, w := [], sig := 0 }

/-- The CFB session registers (R30 to R35). -/
structure Session where
  /-- SESS_VALID (R30). -/
  valid : Bool
  /-- IV_PENDING (R34): the IV has not been consumed yet. -/
  ivPending : Bool
  /-- DIR (R35). -/
  dir : Dir
  /-- SEG (R31), the segment size in bits. -/
  seg : BitVec 8
  /-- IV (R34). -/
  iv : Block
  /-- PREV (R32), the feedback register. -/
  prev : Block
  /-- CT (R33), the newest ciphertext segment in its low SEG bits. -/
  ct : Block
deriving DecidableEq, Repr

/-- The session registers after reset (R271). -/
abbrev Session.empty : Session :=
  { valid := false, ivPending := false, dir := .encryptor, seg := 0, iv := 0, prev := 0, ct := 0 }

/-- A word-addressed memory: the words written so far, as (address, word) pairs with strictly rising addresses. The word is
the smallest addressable unit (R51; log 1). An address that is not listed has not been written; what reading it gives is
said by `imemWord` and `dmemWord` (R61; log 2). -/
abbrev Memory := List (Nat × Word)

/-- The causes of R232. `Cause.code` gives the number. -/
inductive Cause where
  | fetchRange
  | illegalCommand
  | unwrittenBuffer
  | aliased
  | notImplemented
  | shiftRange
  | noSession
  | badSegment
  | lengthMismatch
  | capacity
  | addressRange
deriving DecidableEq, Repr

/-- What the unit's environment does in a turn of its own (R250, R258, R270). -/
inductive HostEvent where
  /-- `HostRead(off, size)` (R250). -/
  | read (off : BitVec 19) (size : Nat)
  /-- `HostWrite(off, size, data)` (R250). -/
  | write (off : BitVec 19) (size : Nat) (data : Word)
  /-- The host keys the external cipher (R258 (b), R275 step 3; log 3). -/
  | keyCipher (k : Nat)
  /-- RESET between two sequencer steps (R270). -/
  | reset
  /-- RESET during the next sequencer step (R270; log 9). -/
  | resetDuringStep
deriving DecidableEq, Repr

/-- Whose turn it is: the sequencer's, or the environment's with what it does (R250 "any order"; log 6). -/
inductive Turn where
  | sequencer
  | host (e : HostEvent)
deriving DecidableEq, Repr

/-- The machine's state: R20 in full, then the model's own fields. -/
structure State where
  /-- `B[0]` to `B[7]` (R22). -/
  bufs : Vector Buf Config.nbuf
  /-- `S[0]` to `S[7]` (R27). -/
  scalars : Vector Word Config.nscalar
  /-- The CFB session registers (R30 to R35). -/
  sess : Session
  /-- PC (R37). -/
  pc : BitVec 11
  /-- CTRL.IE (R38). -/
  ie : Bool
  /-- STATUS.BUSY (R39). -/
  busy : Bool
  /-- STATUS.DONE (R39). -/
  done : Bool
  /-- STATUS.FAULT (R39). -/
  fault : Bool
  /-- STATUS.HOSTERR (R39). -/
  hostErr : Bool
  /-- STATUS.CAUSE (R39, R232). -/
  cause : BitVec 4
  /-- FAULT_PC (R40). -/
  faultPc : BitVec 11
  /-- FAULT_CMD (R40). -/
  faultCmd : Word
  /-- IMEM (R50). -/
  imem : Memory
  /-- DMEM (R51). -/
  dmem : Memory
  /-- The model's own: the turns still to come; when empty, the sequencer moves (log 6). -/
  agenda : List Turn
  /-- The model's own: the word the last HostRead returned (R250; log 7). -/
  hostData : Word
  /-- The model's own: how many free values have been drawn (R257, R270; log 8). -/
  draws : Nat
  /-- The model's own: which function the external cipher is keyed to (R36, R258; log 3). -/
  cipherKey : Nat
deriving DecidableEq, Repr

/-- Lean-level faults. There are none: every fault of the spec is an entry into a next state that reports it to the host
(R234; log 10), and every word and every operand has a defined effect (R78, R230). -/
inductive Fault where
deriving DecidableEq, Repr

/-- Lean-level refusals. -/
inductive Refusal where
  /-- Raised by an arm of `exec` whose instruction has no meaning yet, under that instruction's mnemonic; safe (the machine
  stops where the hardware goes on). No arm raises it now. -/
  | notModelled (mnemonic : String)
deriving DecidableEq, Repr

/-- The three outcomes of a step of this machine. -/
abbrev Result := Host.Outcome State Fault Refusal

/-- The machine right after power-up reset: R271 for every register of the spec; nothing written in either memory (R61);
and the model's own fields at the values logs 3, 6, 7 and 8 name. -/
def State.reset : State where
  bufs := Vector.replicate Config.nbuf Buf.invalid
  scalars := Vector.replicate Config.nscalar 0
  sess := Session.empty
  pc := 0
  ie := false
  busy := false
  done := false
  fault := false
  hostErr := false
  cause := 0
  faultPc := 0
  faultCmd := 0
  imem := []
  dmem := []
  agenda := []
  hostData := 0
  draws := 0
  cipherKey := 0

end Sys2Proof.Machine
end

