-- ==== Sys2Proof/Machine/Flags.lean ====
section
/-! DEFINITION. The unit has no condition codes (R45); its only flags are the bits of STATUS (R39). This file gives the words
the host-visible registers read as, the cause codes, and the IRQ level. -/

namespace Sys2Proof.Machine

/-- The cause codes of R232. -/
def Cause.code (c : Cause) : BitVec 4 :=
  match c with
  | .fetchRange => 1#4
  | .illegalCommand => 2#4
  | .unwrittenBuffer => 3#4
  | .aliased => 4#4
  | .notImplemented => 5#4
  | .shiftRange => 6#4
  | .noSession => 7#4
  | .badSegment => 8#4
  | .lengthMismatch => 9#4
  | .capacity => 10#4
  | .addressRange => 11#4

/-- STATUS as the host reads it (R39): BUSY, DONE, FAULT, HOSTERR in bits 0 to 3, CAUSE in bits 11:8, zeros elsewhere. -/
def statusWord (s : State) : Word :=
  0#20 ++ s.cause ++ 0#4 ++ BitVec.ofBool s.hostErr ++ BitVec.ofBool s.fault ++ BitVec.ofBool s.done ++ BitVec.ofBool s.busy

/-- CTRL as the host reads it (R38): GO and CLEAR read 0, IE is bit 2. -/
def ctrlWord (s : State) : Word := 0#29 ++ BitVec.ofBool s.ie ++ 0#2

/-- The DIR bit of a session (R35). -/
def Session.dirBit (ss : Session) : Bool :=
  match ss.dir with
  | .encryptor => false
  | .decryptor => true

/-- SESSINFO (R42), also the session word CFBS stores (R185): SEG in bits 15:8, DIR, IV_PENDING, SESS_VALID in bits 2 to 0. -/
def Session.word (ss : Session) : Word :=
  0#16 ++ ss.seg ++ 0#5 ++ BitVec.ofBool ss.dirBit ++ BitVec.ofBool ss.ivPending ++ BitVec.ofBool ss.valid

/-- An 11-bit register read by the host, zeros above it (R40, R43). -/
def wordOfPc (p : BitVec 11) : Word := 0#21 ++ p

/-- The IRQ output (R240): `CTRL.IE AND (STATUS.DONE OR STATUS.FAULT)`. -/
def State.irq (s : State) : Bool := s.ie && (s.done || s.fault)

end Sys2Proof.Machine
end

