-- ==== Sys2Proof/Machine/Operands.lean ====
section
/-! DEFINITION. The operand helpers of the command rules: bytes, clamping and shifting of buffer values (R10 to R13, R101),
the blocks and segments of the CFB mode (R172), and the DMEM range check (R54). -/

namespace Sys2Proof.Machine

/-- `ceil4(n) = (n + 3) div 4` (R9): the words that hold `n` bytes. -/
def ceil4 (n : Nat) : Nat := (n + 3) / 4

/-- Byte `k` of a word list (R11): bits `31 - 8*(k mod 4) : 24 - 8*(k mod 4)` of word `k div 4`. -/
def byteOfWords (w : List Word) (k : Nat) : Byte := (w.getD (k / 4) 0).extractLsb' (24 - 8 * (k % 4)) 8

/-- `byteAt(B, k)` (R11), defined by the spec for `k < 4*B.len`. -/
def Buf.byteAt (b : Buf) (k : Nat) : Byte := byteOfWords b.w k

/-- `sigBytes(B)` (R12): the significant bytes in order. -/
def Buf.sigBytes (b : Buf) : List Byte := (List.range b.sig).map b.byteAt

/-- Word `j` of a byte list, bytes past the end 0 (R12). -/
def packWord (l : List Byte) (j : Nat) : Word :=
  l.getD (4 * j) 0 ++ l.getD (4 * j + 1) 0 ++ l.getD (4 * j + 2) 0 ++ l.getD (4 * j + 3) 0

/-- `mk(L)` (R12): the clamped buffer whose significant bytes are `L`. -/
def mkBuf (l : List Byte) : Buf :=
  { valid := true, w := (List.range (ceil4 l.length)).map (packWord l), sig := l.length }

/-- The mask R13 puts on the last word when `sig mod 4 != 0`. -/
def tailMask (sig : Nat) : Word := 0xFFFFFFFF#32 <<< (32 - 8 * (sig % 4))

/-- Word `k` of the clamp of a word list with `sig` significant bytes (R13). -/
def clampWord (w : List Word) (sig k : Nat) : Word :=
  if sig % 4 ≠ 0 ∧ k + 1 = ceil4 sig then w.getD k 0 &&& tailMask sig else w.getD k 0

/-- `clampv(B)` (R13): stale bytes zeroed, whole words beyond the significant bytes dropped. -/
def Buf.clampv (b : Buf) : Buf :=
  { valid := b.valid, w := (List.range (ceil4 b.sig)).map (clampWord b.w b.sig), sig := b.sig }

/-- The bits that word 0 of `w` sends out when the list is shifted left by `n` (R101): the carry into the word before it,
and for the whole list the overflow. -/
def shiftCarry (n : Nat) (w : List Word) : Word :=
  match w with
  | [] => 0
  | x :: _ => if n = 0 then 0 else x >>> (32 - n)

/-- The words of `shlWords(w, n)` (R101). -/
def shlWords (n : Nat) (w : List Word) : List Word :=
  match w with
  | [] => []
  | x :: xs => ((x <<< n) ||| shiftCarry n xs) :: shlWords n xs

/-- A range of DMEM words that exists (R54): an access of no words always passes; else it must end at or below 65536. -/
def spanFits (addr n : Nat) : Bool := n == 0 || decide (addr + n ≤ Config.dmemWords)

/-- Four words as a 128-bit value, the first most significant (R172, `words128` of R12). -/
def joinBlock (a b c d : Word) : Block := a ++ b ++ c ++ d

/-- The four words of a 128-bit value, the most significant first (R177, R185). -/
def splitBlock (v : Block) : List Word :=
  [v.extractLsb' 96 32, v.extractLsb' 64 32, v.extractLsb' 32 32, v.extractLsb' 0 32]

/-- The low `s` bits of a block set. -/
def lowMask (s : Nat) : Block := BitVec.ofNat 128 (2 ^ s - 1)

/-- The distance of segment `j` from bit 0 (R172, R177): `sh = 128 - (j+1)*s`. -/
def segShift (s j : Nat) : Nat := 128 - (j + 1) * s

/-- Segment `j` of a block (R172), in the low `s` bits. -/
def getSegment (v : Block) (s j : Nat) : Block := (v >>> segShift s j) &&& lowMask s

/-- The block with segment `j` replaced by the low `s` bits of `y` (R177). -/
def putSegment (v : Block) (s j : Nat) (y : Block) : Block :=
  (v &&& ~~~(lowMask s <<< segShift s j)) ||| ((y &&& lowMask s) <<< segShift s j)

end Sys2Proof.Machine
end

