-- ==== Sys2Proof/Machine/Ops.lean ====
section
/-! DEFINITION. The named operations over memory and registers that every meaning is built from; the fault entry (R234) and
the host's return from a fault (R236) beside it; fetch (R202) and the PC advance (R201). -/

namespace Sys2Proof.Machine

/-! ### Memory -/

/-- The canonical form of a memory of `size` words: addresses strictly rising, all of them existing. An unlisted address
reads as "never written", which no entry equals, so two memories with the same written words are the same list (log 2). -/
abbrev Memory.wf (size : Nat) (m : Memory) : Prop := m.Pairwise (fun x y => x.1 < y.1) ∧ ∀ c ∈ m, c.1 < size

/-- The word written at `a`, if any. -/
def Memory.get (m : Memory) (a : Nat) : Option Word :=
  match m with
  | [] => none
  | (b, x) :: r => if a = b then some x else Memory.get r a

/-- Write one word, keeping the addresses rising. -/
def Memory.set (m : Memory) (a : Nat) (v : Word) : Memory :=
  match m with
  | [] => [(a, v)]
  | (b, x) :: r => if a < b then (a, v) :: (b, x) :: r else if a = b then (a, v) :: r else (b, x) :: Memory.set r a v

/-- Write a list of words at consecutive addresses, in increasing order (`MemWrite`, R53). -/
def Memory.setList (m : Memory) (a : Nat) (vs : List Word) : Memory :=
  match vs with
  | [] => m
  | v :: rest => Memory.setList (m.set a v) (a + 1) rest

/-- `DMEM[a]` (R51): the word written there, else the free value the memory powered up with (R61; log 2). -/
def Memory.dmemAt (m : Memory) (a : Nat) : Word := (m.get a).getD (Config.powerUpDmem a)

/-- `DMEM[a]` (R51). -/
def State.dmemWord (s : State) (a : Nat) : Word := s.dmem.dmemAt a

/-- `IMEM[i]` (R50): the word written there, else the free value the memory powered up with (R61, R276; log 2). -/
def State.imemWord (s : State) (i : Nat) : Word := (s.imem.get i).getD (Config.powerUpImem i)

/-- `MemRead(addr, n)` (R52). -/
def State.memRead (s : State) (addr n : Nat) : List Word := (List.range n).map fun k => s.dmemWord (addr + k)

/-- `MemWrite(addr, n, v)` with `n` the length of `v` (R53). -/
def State.memWrite (s : State) (addr : Nat) (v : List Word) : State := { s with dmem := s.dmem.setList addr v }

/-- The 128-bit value of the four DMEM words at `a`, the first most significant (R171, R172). -/
def Memory.blockAt (m : Memory) (a : Nat) : Block :=
  joinBlock (m.dmemAt a) (m.dmemAt (a + 1)) (m.dmemAt (a + 2)) (m.dmemAt (a + 3))

/-! ### Registers -/

/-- `B[r]` without a check (R14, R22). -/
def State.buf (s : State) (r : BufReg) : Buf := s.bufs[r.val]

/-- `B[r] <- v` (R14, R26): the whole value is replaced and no other register changes. -/
def State.setBuf (s : State) (r : BufReg) (v : Buf) : State := { s with bufs := s.bufs.set r.val v }

/-- `S[r]` (R14, R27). -/
def State.scalar (s : State) (r : ScalarReg) : Word := s.scalars[r.val]

/-- `S[r] <- v` (R14, R27). -/
def State.setScalar (s : State) (r : ScalarReg) (v : Word) : State := { s with scalars := s.scalars.set r.val v }

/-- `PC <- PC + 1`, as every command that completes does (R201). -/
def State.advance (s : State) : State := { s with pc := s.pc + 1 }

/-! ### Fetch, fault entry, return -/

/-- The command word at PC (R200, R202): a fetch at PC >= 1024 raises FETCH_RANGE. -/
def State.fetch (s : State) : Except Cause Word :=
  if s.pc.toNat < Config.imemWords then .ok (s.imemWord s.pc.toNat) else .error .fetchRange

/-- What FAULT_CMD records (R234, R40): the fetched word, or 0 when PC is out of range and no word was fetched. -/
def State.fetchedWord (s : State) : Word :=
  match s.fetch with
  | .ok w => w
  | .error _ => 0

/-- `raise Fault(c)`: the fault entry of R234. PC keeps its value and nothing else changes (R233). -/
def State.raise (s : State) (c : Cause) : State :=
  { s with busy := false, fault := true, cause := c.code, faultPc := s.pc, faultCmd := s.fetchedWord }

/-- CLEAR (R255): refused with HOSTERR while BUSY = 1 (R256). -/
def State.clear (s : State) : State :=
  if s.busy then { s with hostErr := true }
  else { s with done := false, fault := false, hostErr := false, cause := 0, faultPc := 0, faultCmd := 0 }

/-- GO (R254): refused with HOSTERR while BUSY = 1 or FAULT = 1 (R256). With CLEAR before it, the host's return from a
fault (R236): the run resumes at PC. -/
def State.go (s : State) : State :=
  if s.busy || s.fault then { s with hostErr := true } else { s with done := false, busy := true }

/-! ### The shapes a command's rule is built from (R14, R100) -/

/-- The end of a command that completes: PC advances (R201). -/
def complete (s : State) : Result := .next s.advance

/-- The end of a command that raises a fault (R231): the fault entry, a next state (log 10). -/
def trap (s : State) (c : Cause) : Result := .next (s.raise c)

/-- `require p else c` (R14). -/
def require (p : Prop) [Decidable p] (c : Cause) (s : State) (k : Result) : Result := if p then k else trap s c

/-- The checked read `read(r)` (R23): UNWRITTEN_BUFFER when `B[r].valid = 0`. -/
def withBuffer (s : State) (r : BufReg) (k : Buf → Result) : Result :=
  if (s.buf r).valid then k (s.buf r) else trap s .unwrittenBuffer

end Sys2Proof.Machine
end

