-- ==== Sys2Proof/Machine/Cfb.lean ====
section
/-! DEFINITION. The CFBx mode commands (spec/43_cfb.md): CFBI, CFBP, CFBS, and the segment step they are built from. The
cipher is an argument of every operation; the meanings pass `Config.ciph` (R36). -/

namespace Sys2Proof.Machine

/-- `CFBI dir, addr, seg` (R171): the old session, if any, is replaced whole. -/
def execCfbi (dir : Dir) (addr seg : Nat) (s : State) : Result :=
  require (seg ∈ Config.segmentSet) .badSegment s <|
  require (spanFits addr 4) .addressRange s <|
  complete { s with sess :=
    { valid := true, ivPending := true, dir := dir, seg := BitVec.ofNat 8 seg, iv := s.dmem.blockAt addr, prev := 0, ct := 0 } }

/-- The cipher input of a segment step (R173): the IV once, then the feedback register shifted left by one segment with the
newest ciphertext segment below it. -/
def Session.cipherInput (ss : Session) : Block :=
  if ss.ivPending then ss.iv else (ss.prev <<< ss.seg.toNat) ||| ss.ct

/-- The keystream segment (R174): the most significant SEG bits of the cipher's output, in the low bits. -/
def Session.keystream (ciph : Block → Block) (ss : Session) : Block :=
  ciph ss.cipherInput >>> (128 - ss.seg.toNat)

/-- One segment step (R173 to R176) on the input segment `x`: the session after it and the output segment. -/
def segmentStep (ciph : Block → Block) (ss : Session) (x : Block) : Session × Block :=
  let y := x ^^^ ss.keystream ciph
  let ct := match ss.dir with
    | .encryptor => y
    | .decryptor => x
  ({ ss with ivPending := false, iv := if ss.ivPending then 0 else ss.iv, prev := ss.cipherInput, ct := ct }, y)

/-- The next `n` segments of a block from segment `j` on, left to right (R172, R177). -/
def segmentLoop (ciph : Block → Block) (n j : Nat) (ss : Session) (v : Block) : Session × Block :=
  match n with
  | 0 => (ss, v)
  | n + 1 =>
    let r := segmentStep ciph ss (getSegment v ss.seg.toNat j)
    segmentLoop ciph n (j + 1) r.1 (putSegment v ss.seg.toNat j r.2)

/-- All `128 / SEG` segments of one block (R172, R177). -/
def blockStep (ciph : Block → Block) (ss : Session) (v : Block) : Session × Block :=
  segmentLoop ciph (128 / ss.seg.toNat) 0 ss v

/-- `n` blocks of DMEM from word address `a` on, in place and in increasing order (R177). -/
def blockLoop (ciph : Block → Block) (n a : Nat) (ss : Session) (m : Memory) : Session × Memory :=
  match n with
  | 0 => (ss, m)
  | n + 1 =>
    let r := blockStep ciph ss (m.blockAt a)
    blockLoop ciph n (a + 4) r.1 (m.setList a (splitBlock r.2))

/-- The effect of a CFBP whose checks passed, with the cipher given (R177). -/
def processBlocks (ciph : Block → Block) (addr nblk : Nat) (s : State) : State :=
  let r := blockLoop ciph nblk addr s.sess s.dmem
  { s with sess := r.1, dmem := r.2 }

/-- `CFBP addr, nblk` (R177): all or nothing, since both checks precede the first block. -/
def execCfbp (addr nblk : Nat) (s : State) : Result :=
  require s.sess.valid .noSession s <|
  require (spanFits addr (4 * nblk)) .addressRange s <|
  complete (processBlocks (Config.ciph s.cipherKey) addr nblk s)

/-- The nine words CFBS stores (R185): PREV, CT left-aligned, the session word. -/
def Session.dump (ss : Session) : List Word :=
  splitBlock ss.prev ++ splitBlock (ss.ct <<< (128 - ss.seg.toNat)) ++ [ss.word]

/-- `CFBS addr` (R185). -/
def execCfbs (addr : Nat) (s : State) : Result :=
  require s.sess.valid .noSession s <|
  require (spanFits addr 9) .addressRange s <|
  complete (s.memWrite addr s.sess.dump)

end Sys2Proof.Machine
end

