-- ==== Sys2Proof/Machine/Kernel.lean ====
section
/-! DEFINITION. The binary buffer kernel (spec/41_kernel.md) and the doubling command (spec/42_gf_double.md). Each meaning
reads its sources and makes its checks in the order its rule lists them, before any write (R100, R235). -/

namespace Sys2Proof.Machine

/-- `BMOV bd, ba` (R103): an exact copy, stale bytes included. -/
def execBmov (rd ra : BufReg) (s : State) : Result :=
  withBuffer s ra fun a => complete (s.setBuf rd a)

/-- `CLAMP bd` (R102). -/
def execClamp (rd : BufReg) (s : State) : Result :=
  withBuffer s rd fun b => complete (s.setBuf rd b.clampv)

/-- `SHL bd, ss, n` (R104): the whole word list moves, `sig` stays, the overflow goes to the scalar register. -/
def execShl (rd : BufReg) (ra : ScalarReg) (n : Int) (s : State) : Result :=
  withBuffer s rd fun b =>
  require (0 ≤ n) .notImplemented s <|
  require (n < 32) .shiftRange s <|
  complete ((s.setBuf rd { valid := true, w := shlWords n.toNat b.w, sig := b.sig }).setScalar ra (shiftCarry n.toNat b.w))

/-- `LMW bd, ba, n` (R110): the first `n` words, clamped. -/
def execLmw (rd ra : BufReg) (n : Nat) (s : State) : Result :=
  withBuffer s ra fun a =>
  require (n ≤ a.len) .lengthMismatch s <|
  complete (s.setBuf rd (Buf.clampv { valid := true, w := a.w.take n, sig := min a.sig (4 * n) }))

/-- `LMB bd, ba, n` (R111): the first `n` bytes. -/
def execLmb (rd ra : BufReg) (n : Nat) (s : State) : Result :=
  withBuffer s ra fun a =>
  require (n ≤ a.sig) .lengthMismatch s <|
  complete (s.setBuf rd (mkBuf ((List.range n).map a.byteAt)))

/-- `RMB bd, ba, n` (R112): the last `n` bytes; the source is clamped in place first. -/
def execRmb (rd ra : BufReg) (n : Nat) (s : State) : Result :=
  withBuffer s ra fun a =>
  require (n ≤ a.sig) .lengthMismatch s <|
  complete ((s.setBuf ra a.clampv).setBuf rd (mkBuf ((List.range n).map fun k => a.clampv.byteAt (a.sig - n + k))))

/-- `POPW bd, ba, n` (R120): the first `n` words leave `ba` for `bd`; the remainder is not clamped. -/
def execPopw (rd ra : BufReg) (n : Nat) (s : State) : Result :=
  withBuffer s ra fun a =>
  require (rd ≠ ra) .aliased s <|
  require (4 * n ≤ a.sig) .lengthMismatch s <|
  complete ((s.setBuf rd { valid := true, w := a.w.take n, sig := 4 * n }).setBuf ra
    { valid := true, w := a.w.drop n, sig := a.sig - 4 * n })

/-- `SHOB bd, ba, n` (R121): the first `n` bytes leave `ba` for `bd`; both results are clamped. -/
def execShob (rd ra : BufReg) (n : Nat) (s : State) : Result :=
  withBuffer s ra fun a =>
  require (rd ≠ ra) .aliased s <|
  require (n ≤ a.sig) .lengthMismatch s <|
  complete ((s.setBuf rd (mkBuf (a.sigBytes.take n))).setBuf ra (mkBuf (a.sigBytes.drop n)))

/-- The word-wise operations XOR and AND (R130, R133): both sources checked, equal `sig`, every word combined, not clamped. -/
def wordwise (f : Word → Word → Word) (rd ra rb : BufReg) (s : State) : Result :=
  withBuffer s ra fun a =>
  withBuffer s rb fun b =>
  require (a.sig = b.sig) .lengthMismatch s <|
  complete (s.setBuf rd { valid := true, w := List.zipWith f a.w b.w, sig := a.sig })

/-- `XOR bd, ba, bb` (R130). -/
def execXor (rd ra rb : BufReg) (s : State) : Result := wordwise (fun x y => x ^^^ y) rd ra rb s

/-- `XORT bd, ba, bb` (R132): `bb` onto the trailing bytes of `ba`. -/
def execXort (rd ra rb : BufReg) (s : State) : Result :=
  withBuffer s ra fun a =>
  withBuffer s rb fun b =>
  require (b.sig ≤ a.sig) .lengthMismatch s <|
  complete (s.setBuf rd (mkBuf ((List.range (a.sig - b.sig)).map a.byteAt ++
    (List.range b.sig).map fun k => a.byteAt (a.sig - b.sig + k) ^^^ b.byteAt k)))

/-- `AND bd, ba, bb` (R133). -/
def execAnd (rd ra rb : BufReg) (s : State) : Result := wordwise (fun x y => x &&& y) rd ra rb s

/-- `EQ sd, ba, bb` (R140): total; an invalid register or unequal `sig` gives 0 and changes no buffer, else both registers
are clamped in place and every word is compared. -/
def execEq (rd : ScalarReg) (ra rb : BufReg) (s : State) : Result :=
  let a := s.buf ra
  let b := s.buf rb
  if !a.valid || !b.valid then complete (s.setScalar rd 0)
  else if a.sig ≠ b.sig then complete (s.setScalar rd 0)
  else complete (((s.setBuf ra a.clampv).setBuf rb b.clampv).setScalar rd (if a.clampv.w = b.clampv.w then 1 else 0))

/-- `MSB sd, ba` (R145): bit 31 of the first word, read without clamping. -/
def execMsb (rd : ScalarReg) (ra : BufReg) (s : State) : Result :=
  withBuffer s ra fun a =>
  require (1 ≤ a.len) .lengthMismatch s <|
  complete (s.setScalar rd (a.w.headD 0 >>> 31))

/-- `CAT bd, ba, bb` (R150): byte concatenation, at most 32 words. -/
def execCat (rd ra rb : BufReg) (s : State) : Result :=
  withBuffer s ra fun a =>
  withBuffer s rb fun b =>
  require (ceil4 (a.sig + b.sig) ≤ Config.bufCapWords) .capacity s <|
  complete (s.setBuf rd (mkBuf (a.sigBytes ++ b.sigBytes)))

/-- The words of the doubled block (R160): one bit left, and RB (R161) XORed in word-wise when the top bit was 1. -/
def doubleWords (w : List Word) : List Word :=
  if (w.headD 0).getLsbD 31 then List.zipWith (fun x y => x ^^^ y) (shlWords 1 w) Config.rbWords else shlWords 1 w

/-- `DBL bd` (R160). -/
def execDbl (rd : BufReg) (s : State) : Result :=
  withBuffer s rd fun b =>
  require (b.len = 4 ∧ b.sig = 16) .lengthMismatch s <|
  complete (s.setBuf rd { valid := true, w := doubleWords b.w, sig := 16 })

end Sys2Proof.Machine
end

