-- ==== Sys2Proof/Machine/Sequencer.lean ====
section
/-! DEFINITION. The control and data-transfer commands (spec/44_sequencer_memory.md): NOP, HALT, BLD, BST, SST, BCLR. -/

namespace Sys2Proof.Machine

/-- `NOP` (R205). -/
def execNop (s : State) : Result := complete s

/-- `HALT` (R206): the run ends, with PC at the command after it. -/
def execHalt (s : State) : Result := complete { s with busy := false, done := true }

/-- `BLD bd, addr, n` (R207): whole words, not clamped. -/
def execBld (rd : BufReg) (addr n : Nat) (s : State) : Result :=
  require (ceil4 n ≤ Config.bufCapWords) .capacity s <|
  require (spanFits addr (ceil4 n)) .addressRange s <|
  complete (s.setBuf rd { valid := true, w := s.memRead addr (ceil4 n), sig := n })

/-- `BST bs, addr` (R208): every word, stale bytes included. -/
def execBst (r : BufReg) (addr : Nat) (s : State) : Result :=
  withBuffer s r fun b =>
  require (spanFits addr b.len) .addressRange s <|
  complete (s.memWrite addr b.w)

/-- `SST ss, addr` (R209). The range check of R54 passes for every address an encoding holds. -/
def execSst (r : ScalarReg) (addr : Nat) (s : State) : Result :=
  require (spanFits addr 1) .addressRange s <|
  complete (s.memWrite addr [s.scalar r])

/-- `BCLR bd, n` (R210). -/
def execBclr (rd : BufReg) (n : Nat) (s : State) : Result :=
  require (ceil4 n ≤ Config.bufCapWords) .capacity s <|
  complete (s.setBuf rd (mkBuf (List.replicate n 0)))

end Sys2Proof.Machine
end

