-- ==== Sys2Proof/Machine/Dispatch.lean ====
section
/-! DEFINITION. One arm per command: what each does when the sequencer runs it. -/

namespace Sys2Proof.Machine

-- spec/44_sequencer_memory.md, then spec/41_kernel.md, spec/42_gf_double.md and spec/43_cfb.md, in the order of R77
def exec (i : Instr) (s : State) : Host.Outcome State Fault Refusal :=
  match i with
  | .nop => Sys2Proof.Machine.execNop s
  | .halt => Sys2Proof.Machine.execHalt s
  | .bld rd addr n => Sys2Proof.Machine.execBld rd addr n s
  | .bst r addr => Sys2Proof.Machine.execBst r addr s
  | .sst r addr => Sys2Proof.Machine.execSst r addr s
  | .bclr rd n => Sys2Proof.Machine.execBclr rd n s
  | .bmov rd ra => Sys2Proof.Machine.execBmov rd ra s
  | .clamp rd => Sys2Proof.Machine.execClamp rd s
  | .shl rd ra n => Sys2Proof.Machine.execShl rd ra n s
  | .lmw rd ra n => Sys2Proof.Machine.execLmw rd ra n s
  | .lmb rd ra n => Sys2Proof.Machine.execLmb rd ra n s
  | .rmb rd ra n => Sys2Proof.Machine.execRmb rd ra n s
  | .popw rd ra n => Sys2Proof.Machine.execPopw rd ra n s
  | .shob rd ra n => Sys2Proof.Machine.execShob rd ra n s
  | .xor rd ra rb => Sys2Proof.Machine.execXor rd ra rb s
  | .xort rd ra rb => Sys2Proof.Machine.execXort rd ra rb s
  | .and rd ra rb => Sys2Proof.Machine.execAnd rd ra rb s
  | .eq rd ra rb => Sys2Proof.Machine.execEq rd ra rb s
  | .msb rd ra => Sys2Proof.Machine.execMsb rd ra s
  | .cat rd ra rb => Sys2Proof.Machine.execCat rd ra rb s
  | .dbl rd => Sys2Proof.Machine.execDbl rd s
  | .cfbi dir addr seg => Sys2Proof.Machine.execCfbi dir addr seg s
  | .cfbp addr nblk => Sys2Proof.Machine.execCfbp addr nblk s
  | .cfbs addr => Sys2Proof.Machine.execCfbs addr s

end Sys2Proof.Machine
end

