-- ==== Sys2Proof/Machine/HostPort.lean ====
section
/-! DEFINITION. The host interface (R250 to R258), the cipher's keying and the RESET input (R270, R271): what each does to
the state in a turn of its own. -/

namespace Sys2Proof.Machine

/-- The registers of the host window (R38 to R43). -/
inductive HostReg where
  | ctrl
  | status
  | pc
  | faultPc
  | faultCmd
  | params
  | sessInfo
deriving DecidableEq, Repr

/-- What a byte offset of the window names (R55). -/
inductive HostTarget where
  /-- A host register. -/
  | reg (r : HostReg)
  /-- `IMEM[i]`. -/
  | imem (i : Nat)
  /-- `DMEM[a]`. -/
  | dmem (a : Nat)
  /-- Offsets 0x001C to 0x0FFF (R44) and the unmapped range 0x02000 to 0x3FFFF (R55). -/
  | nothing
deriving DecidableEq, Repr

/-- The host register at an offset below 0x1000 (R38 to R44). -/
def hostRegAt (off : Nat) : HostTarget :=
  match off with
  | 0x0000 => .reg .ctrl
  | 0x0004 => .reg .status
  | 0x0008 => .reg .pc
  | 0x000C => .reg .faultPc
  | 0x0010 => .reg .faultCmd
  | 0x0014 => .reg .params
  | 0x0018 => .reg .sessInfo
  | _ => .nothing

/-- The host address map R55, for an offset that is a multiple of 4. -/
def hostTarget (off : BitVec 19) : HostTarget :=
  if off.toNat < 0x01000 then hostRegAt off.toNat
  else if off.toNat < 0x02000 then .imem ((off.toNat - 0x01000) / 4)
  else if off.toNat < 0x40000 then .nothing
  else .dmem ((off.toNat - 0x40000) / 4)

/-- A transaction is accepted only when it is 32 bits wide and aligned (R251, R57). -/
def hostAccepted (off : BitVec 19) (size : Nat) : Bool := size == 4 && off.toNat % 4 == 0

/-- The word a host register reads as (R38 to R43, R252). -/
def hostRegRead (r : HostReg) (s : State) : Word :=
  match r with
  | .ctrl => ctrlWord s
  | .status => statusWord s
  | .pc => wordOfPc s.pc
  | .faultPc => wordOfPc s.faultPc
  | .faultCmd => s.faultCmd
  | .params => Config.params
  | .sessInfo => s.sess.word

/-- A read of a memory window: its word while BUSY = 0, a fresh free value while BUSY = 1 (R252, R257; log 8). -/
def hostMemRead (w : Word) (s : State) : State :=
  if s.busy then { s with hostData := Config.busyRead s.draws, draws := s.draws + 1 } else { s with hostData := w }

/-- `HostRead(off, size)` (R251, R252, R257): the word returned is left in `hostData`. -/
def hostRead (off : BitVec 19) (size : Nat) (s : State) : State :=
  if hostAccepted off size then
    match hostTarget off with
    | .reg r => { s with hostData := hostRegRead r s }
    | .imem i => hostMemRead (s.imemWord i) s
    | .dmem a => hostMemRead (s.dmemWord a) s
    | .nothing => { s with hostData := 0 }
  else { s with hostData := 0, hostErr := true }

/-- An accepted write to CTRL (R254): IE always, then CLEAR, then GO. -/
def ctrlWrite (data : Word) (s : State) : State :=
  let s1 := { s with ie := data.getLsbD 2 }
  let s2 := if data.getLsbD 1 then s1.clear else s1
  if data.getLsbD 0 then s2.go else s2

/-- A write the host may make only while BUSY = 0 (R253): refused with HOSTERR while BUSY = 1. -/
def idleWrite (s t : State) : State := if s.busy then { s with hostErr := true } else t

/-- An accepted write to a host register (R252 to R254): the read-only registers ignore it. -/
def hostRegWrite (r : HostReg) (data : Word) (s : State) : State :=
  match r with
  | .ctrl => ctrlWrite data s
  | .pc => idleWrite s { s with pc := data.extractLsb' 0 11 }
  | .status => s
  | .faultPc => s
  | .faultCmd => s
  | .params => s
  | .sessInfo => s

/-- `HostWrite(off, size, data)` (R251 to R254). -/
def hostWrite (off : BitVec 19) (size : Nat) (data : Word) (s : State) : State :=
  if hostAccepted off size then
    match hostTarget off with
    | .reg r => hostRegWrite r data s
    | .imem i => idleWrite s { s with imem := s.imem.set i data }
    | .dmem a => idleWrite s { s with dmem := s.dmem.set a data }
    | .nothing => s
  else { s with hostErr := true }

/-- The host keys the external cipher. CIPH is fixed for a whole run (R36, R258): while BUSY = 1 nothing changes (log 3). -/
def keyCipher (k : Nat) (s : State) : State := if s.busy then s else { s with cipherKey := k }

/-- The reset state R271: every register of the unit at its reset value; IMEM, DMEM, the cipher's key (R270) and the model's
own fields are kept (log 15). -/
def applyReset (s : State) : State :=
  { State.reset with
    imem := s.imem, dmem := s.dmem, agenda := s.agenda, hostData := s.hostData, draws := s.draws, cipherKey := s.cipherKey }

/-- The DMEM words a command moves (R58), as an address and a count. -/
def commandSpan (i : Instr) (s : State) : Nat × Nat :=
  match i with
  | .bld _ addr n => (addr, ceil4 n)
  | .bst r addr => (addr, (s.buf r).len)
  | .sst _ addr => (addr, 1)
  | .cfbi _ addr _ => (addr, 4)
  | .cfbp addr nblk => (addr, 4 * nblk)
  | .cfbs addr => (addr, 9)
  | .nop | .halt | .bclr _ _ | .bmov _ _ | .clamp _ | .shl _ _ _ | .lmw _ _ _ | .lmb _ _ _ | .rmb _ _ _ | .popw _ _ _
  | .shob _ _ _ | .xor _ _ _ | .xort _ _ _ | .and _ _ _ | .eq _ _ _ | .msb _ _ | .cat _ _ _ | .dbl _ => (0, 0)

/-- The span of the command the sequencer would run now (R270): none when idle or when no command is there. -/
def interruptedSpan (s : State) : Nat × Nat :=
  if s.busy then
    match s.fetch with
    | .error _ => (0, 0)
    | .ok w =>
      match decode w with
      | .error _ => (0, 0)
      | .ok i => commandSpan i s
  else (0, 0)

/-- RESET during the next step (R270): the reset state, with the existing DMEM words of the interrupted command's span at
free values (log 9). -/
def applyResetDuringStep (s : State) : State :=
  let span := interruptedSpan s
  let count := min span.2 (Config.dmemWords - span.1)
  let torn := (List.range count).map fun k => Config.tornWord s.draws (span.1 + k)
  { applyReset s with dmem := s.dmem.setList span.1 torn, draws := s.draws + 1 }

/-- What the environment's turn does. -/
def hostTurn (e : HostEvent) (s : State) : State :=
  match e with
  | .read off size => hostRead off size s
  | .write off size data => hostWrite off size data s
  | .keyCipher k => keyCipher k s
  | .reset => applyReset s
  | .resetDuringStep => applyResetDuringStep s

end Sys2Proof.Machine
end

