-- ==== Sys2Proof/Machine/Step.lean ====
section
/-! DEFINITION. One step of the machine: a turn of the sequencer (R200) or of its environment (R250, R270), as the agenda
says (log 6). -/

namespace Sys2Proof.Machine

/-- The sequencer's turn (R200): while BUSY = 1, fetch (R202), decode (R78) and run one command; while BUSY = 0 nothing
happens and all state is kept (R200, R246). -/
def sequencerTurn (s : State) : Result :=
  if s.busy then
    match s.fetch with
    | .error c => trap s c
    | .ok w =>
      match decode w with
      | .error _ => trap s .illegalCommand
      | .ok i => exec i s
  else .next s

/-- One step: the agenda's first turn, or the sequencer's when the agenda is empty (R250, R286; log 6). -/
def step (s : State) : Host.Outcome State Fault Refusal :=
  match s.agenda with
  | [] => sequencerTurn s
  | .sequencer :: rest => sequencerTurn { s with agenda := rest }
  | .host e :: rest => .next (hostTurn e { s with agenda := rest })

/-- `s` with the word of a table row (its low `nbits` bits, zeros above) where the very next step fetches it: at IMEM[PC],
with the environment's turns taken away and a run in progress, started by GO (R254) where none is, after the CLEAR that a
pending fault needs (R236; log 5). A PC past IMEM fetches no word, so it is set to the reset entry point 0 (R60). -/
def State.withFetchWord (s : State) (nbits w : Nat) : State :=
  let pc := if s.pc.toNat < Config.imemWords then s.pc else 0
  let s' := { s with pc := pc, imem := s.imem.set pc.toNat (BitVec.ofNat 32 (w % 2 ^ nbits)), agenda := [] }
  if s'.busy then s' else if s'.fault then s'.clear.go else s'.go

end Sys2Proof.Machine
end

