-- ==== Sys2Proof/Safety.lean ====
section
/-! DEFINITION. The terms claims about the unit are made in: the invariant of its states, the fault conditions of every
command as the rules list them, what a command may write, and what it leaves alone. -/

namespace Sys2Proof.Machine

/-! ### The invariant -/

/-- What R21, R23 and R24 say of a buffer register between two commands. -/
abbrev Buf.Ok (b : Buf) : Prop :=
  (b.valid = true → b.len ≤ Config.bufCapWords ∧ b.sig ≤ 4 * b.len ∧ b.len = ceil4 b.sig) ∧
  (b.valid = false → b = Buf.invalid)

/-- What R30 to R35 say of the session registers: a session has a legal segment size and a CT of at most SEG bits; an IV
that is not pending is 0; before the first segment step PREV and CT are 0; without a session every register is reset. -/
abbrev Session.Ok (ss : Session) : Prop :=
  (ss.valid = true → ss.seg.toNat ∈ Config.segmentSet ∧ ss.ct.toNat < 2 ^ ss.seg.toNat) ∧
  (ss.ivPending = true → ss.valid = true ∧ ss.prev = 0 ∧ ss.ct = 0) ∧
  (ss.ivPending = false → ss.iv = 0) ∧
  (ss.valid = false → ss = Session.empty)

/-- What R39, R40 and R232 say of STATUS and the fault registers: BUSY excludes DONE and FAULT, DONE excludes FAULT, the
cause is one of 1 to 11 when FAULT = 1, and without a fault the cause and the fault registers are 0. -/
abbrev State.StatusOk (s : State) : Prop :=
  (s.busy = true → s.done = false ∧ s.fault = false) ∧
  (s.done = true → s.fault = false) ∧
  (s.fault = true → 1 ≤ s.cause.toNat ∧ s.cause.toNat ≤ 11) ∧
  (s.fault = false → s.cause = 0 ∧ s.faultPc = 0 ∧ s.faultCmd = 0)

/-- The invariant of the unit's states. Every step keeps it and the state after reset has it. -/
structure State.Inv (s : State) : Prop where
  bufs : ∀ r : BufReg, (s.buf r).Ok
  sess : s.sess.Ok
  status : s.StatusOk
  imem : Memory.wf Config.imemWords s.imem
  dmem : Memory.wf Config.dmemWords s.dmem

/-! ### Turns and runs -/

/-- The next step is the sequencer's: the agenda is empty or says so (log 6). -/
def State.sequencerNext (s : State) : Bool :=
  match s.agenda with
  | [] => true
  | .sequencer :: _ => true
  | .host _ :: _ => false

/-- `s` with the turn that is being taken off the agenda; `s` itself when the agenda is empty (log 6). -/
def State.turnTaken (s : State) : State := { s with agenda := s.agenda.tail }

/-- The next step is a sequencer step in the sense of R200: the sequencer's turn, while BUSY = 1. -/
def State.takesStep (s : State) : Bool := s.busy && s.sequencerNext

/-- The next step executes a command: a sequencer step at a PC inside IMEM, at a word that spells a command (R200, R202). -/
def State.runsCommand (s : State) : Bool :=
  s.takesStep && decide (s.pc.toNat < 1024) &&
    match decode (s.imemWord s.pc.toNat) with
    | .ok _ => true
    | .error _ => false

/-- How many of the next `k` steps from `s` on start in a state that `p` holds of. -/
def countSteps (p : State → Bool) (k : Nat) (s : State) : Nat :=
  match k with
  | 0 => 0
  | k + 1 => (if p s then 1 else 0) +
    match step s with
    | .next t => countSteps p k t
    | .fault _ => 0
    | .refused _ => 0

/-- What every RESET does (R270, R271), from `s` to `t`: each register of the unit at its reset value; IMEM and the external
cipher's key not touched; the word the last HostRead returned kept (the model's, log 15). DMEM, the agenda and the draw
counter are said apart. -/
structure ResetFrom (s t : State) : Prop where
  bufs : ∀ r, t.buf r = { valid := false, w := [], sig := 0 }
  scalars : ∀ q, t.scalar q = 0
  sess : t.sess = { valid := false, ivPending := false, dir := .encryptor, seg := 0, iv := 0, prev := 0, ct := 0 }
  pc : t.pc = 0
  ctrl : ctrlWord t = 0
  status : statusWord t = 0
  faultPc : t.faultPc = 0
  faultCmd : t.faultCmd = 0
  irq : t.irq = false
  params : hostRegRead .params t = 0x01040820#32
  sessInfo : hostRegRead .sessInfo t = 0
  imem : ∀ i, t.imemWord i = s.imemWord i
  cipherKey : t.cipherKey = s.cipherKey
  hostData : t.hostData = s.hostData

/-! ### When a command faults -/

/-- `n >= 1` words from `addr` on pass the top of DMEM (R54). -/
abbrev PastTop (addr n : Nat) : Prop := 1 ≤ n ∧ 65536 < addr + n

/-- The fault conditions of each command, as R232 and the command's own rule list them, without any order among them. -/
def FaultCondition (i : Instr) (s : State) (c : Cause) : Prop :=
  match i with
  | .nop => False
  | .halt => False
  | .bld _ addr n => match c with
    | .capacity => 32 < ceil4 n
    | .addressRange => PastTop addr (ceil4 n)
    | _ => False
  | .bst r addr => match c with
    | .unwrittenBuffer => (s.buf r).valid = false
    | .addressRange => PastTop addr (s.buf r).len
    | _ => False
  | .sst _ addr => match c with
    | .addressRange => PastTop addr 1
    | _ => False
  | .bclr _ n => match c with
    | .capacity => 32 < ceil4 n
    | _ => False
  | .bmov _ ra => match c with
    | .unwrittenBuffer => (s.buf ra).valid = false
    | _ => False
  | .clamp rd => match c with
    | .unwrittenBuffer => (s.buf rd).valid = false
    | _ => False
  | .shl rd _ n => match c with
    | .unwrittenBuffer => (s.buf rd).valid = false
    | .notImplemented => n < 0
    | .shiftRange => 32 ≤ n
    | _ => False
  | .lmw _ ra n => match c with
    | .unwrittenBuffer => (s.buf ra).valid = false
    | .lengthMismatch => (s.buf ra).len < n
    | _ => False
  | .lmb _ ra n => match c with
    | .unwrittenBuffer => (s.buf ra).valid = false
    | .lengthMismatch => (s.buf ra).sig < n
    | _ => False
  | .rmb _ ra n => match c with
    | .unwrittenBuffer => (s.buf ra).valid = false
    | .lengthMismatch => (s.buf ra).sig < n
    | _ => False
  | .popw rd ra n => match c with
    | .unwrittenBuffer => (s.buf ra).valid = false
    | .aliased => rd = ra
    | .lengthMismatch => (s.buf ra).sig < 4 * n
    | _ => False
  | .shob rd ra n => match c with
    | .unwrittenBuffer => (s.buf ra).valid = false
    | .aliased => rd = ra
    | .lengthMismatch => (s.buf ra).sig < n
    | _ => False
  | .xor _ ra rb => match c with
    | .unwrittenBuffer => (s.buf ra).valid = false ∨ (s.buf rb).valid = false
    | .lengthMismatch => (s.buf ra).sig ≠ (s.buf rb).sig
    | _ => False
  | .xort _ ra rb => match c with
    | .unwrittenBuffer => (s.buf ra).valid = false ∨ (s.buf rb).valid = false
    | .lengthMismatch => (s.buf ra).sig < (s.buf rb).sig
    | _ => False
  | .and _ ra rb => match c with
    | .unwrittenBuffer => (s.buf ra).valid = false ∨ (s.buf rb).valid = false
    | .lengthMismatch => (s.buf ra).sig ≠ (s.buf rb).sig
    | _ => False
  | .eq _ _ _ => False
  | .msb _ ra => match c with
    | .unwrittenBuffer => (s.buf ra).valid = false
    | .lengthMismatch => (s.buf ra).len = 0
    | _ => False
  | .cat _ ra rb => match c with
    | .unwrittenBuffer => (s.buf ra).valid = false ∨ (s.buf rb).valid = false
    | .capacity => 32 < ceil4 ((s.buf ra).sig + (s.buf rb).sig)
    | _ => False
  | .dbl rd => match c with
    | .unwrittenBuffer => (s.buf rd).valid = false
    | .lengthMismatch => (s.buf rd).len ≠ 4 ∨ (s.buf rd).sig ≠ 16
    | _ => False
  | .cfbi _ addr seg => match c with
    | .badSegment => seg ≠ 8 ∧ seg ≠ 16 ∧ seg ≠ 32 ∧ seg ≠ 64 ∧ seg ≠ 128
    | .addressRange => PastTop addr 4
    | _ => False
  | .cfbp addr nblk => match c with
    | .noSession => s.sess.valid = false
    | .addressRange => PastTop addr (4 * nblk)
    | _ => False
  | .cfbs addr => match c with
    | .noSession => s.sess.valid = false
    | .addressRange => PastTop addr 9
    | _ => False

/-- The fault conditions of a sequencer step (R235): fetch range, decode, then the conditions of the command at PC. -/
def StepFaultCondition (s : State) (c : Cause) : Prop :=
  match c with
  | .fetchRange => 1024 ≤ s.pc.toNat
  | .illegalCommand => s.pc.toNat < 1024 ∧ ∃ e, decode (s.imemWord s.pc.toNat) = .error e
  | c => s.pc.toNat < 1024 ∧ ∃ i, decode (s.imemWord s.pc.toNat) = .ok i ∧ FaultCondition i s c

/-! ### What a command may write -/

/-- The buffer registers a command writes (R75, and the destinations R112, R120, R121 and R140 add). -/
def bufDests (i : Instr) : List BufReg :=
  match i with
  | .bld rd _ _ => [rd]
  | .bclr rd _ => [rd]
  | .bmov rd _ => [rd]
  | .clamp rd => [rd]
  | .shl rd _ _ => [rd]
  | .lmw rd _ _ => [rd]
  | .lmb rd _ _ => [rd]
  | .rmb rd ra _ => [rd, ra]
  | .popw rd ra _ => [rd, ra]
  | .shob rd ra _ => [rd, ra]
  | .xor rd _ _ => [rd]
  | .xort rd _ _ => [rd]
  | .and rd _ _ => [rd]
  | .eq _ ra rb => [ra, rb]
  | .cat rd _ _ => [rd]
  | .dbl rd => [rd]
  | .nop | .halt | .bst _ _ | .sst _ _ | .msb _ _ | .cfbi _ _ _ | .cfbp _ _ | .cfbs _ => []

/-- The scalar registers a command writes: SHL, EQ and MSB have one (R27, R75). -/
def scalarDests (i : Instr) : List ScalarReg :=
  match i with
  | .shl _ ra _ => [ra]
  | .eq rd _ _ => [rd]
  | .msb rd _ => [rd]
  | .nop | .halt | .bld _ _ _ | .bst _ _ | .sst _ _ | .bclr _ _ | .bmov _ _ | .clamp _ | .lmw _ _ _ | .lmb _ _ _ | .rmb _ _ _
  | .popw _ _ _ | .shob _ _ _ | .xor _ _ _ | .xort _ _ _ | .and _ _ _ | .cat _ _ _ | .dbl _ | .cfbi _ _ _ | .cfbp _ _
  | .cfbs _ => []

/-- The DMEM words a command stores to (R58), as an address and a count; no words for a command that stores nothing. -/
def storeSpan (i : Instr) (s : State) : Nat × Nat :=
  match i with
  | .bst r addr => (addr, (s.buf r).len)
  | .sst _ addr => (addr, 1)
  | .cfbp addr nblk => (addr, 4 * nblk)
  | .cfbs addr => (addr, 9)
  | .nop | .halt | .bld _ _ _ | .bclr _ _ | .bmov _ _ | .clamp _ | .shl _ _ _ | .lmw _ _ _ | .lmb _ _ _ | .rmb _ _ _
  | .popw _ _ _ | .shob _ _ _ | .xor _ _ _ | .xort _ _ _ | .and _ _ _ | .eq _ _ _ | .msb _ _ | .cat _ _ _ | .dbl _
  | .cfbi _ _ _ => (0, 0)

/-- Whether a command writes the session registers: only CFBI and CFBP do (R170). -/
def writesSession (i : Instr) : Bool :=
  match i with
  | .cfbi _ _ _ => true
  | .cfbp _ _ => true
  | .nop | .halt | .bld _ _ _ | .bst _ _ | .sst _ _ | .bclr _ _ | .bmov _ _ | .clamp _ | .shl _ _ _ | .lmw _ _ _
  | .lmb _ _ _ | .rmb _ _ _ | .popw _ _ _ | .shob _ _ _ | .xor _ _ _ | .xort _ _ _ | .and _ _ _ | .eq _ _ _ | .msb _ _
  | .cat _ _ _ | .dbl _ | .cfbs _ => false

/-- What no command can reach and no command's completion changes: the host registers but BUSY and DONE, IMEM (R242), and the
model's own fields. -/
structure SameHostSide (s t : State) : Prop where
  ie : t.ie = s.ie
  fault : t.fault = s.fault
  hostErr : t.hostErr = s.hostErr
  cause : t.cause = s.cause
  faultPc : t.faultPc = s.faultPc
  faultCmd : t.faultCmd = s.faultCmd
  imem : t.imem = s.imem
  agenda : t.agenda = s.agenda
  hostData : t.hostData = s.hostData
  draws : t.draws = s.draws
  cipherKey : t.cipherKey = s.cipherKey

/-- `t` is `s` after a command that completed, apart from the session and the values of the buffers `bs`, the scalars `qs`
and the `n` DMEM words from `addr` on: PC advanced by 1 (R201), everything else unchanged. -/
structure CompletedBut (s t : State) (bs : List BufReg) (qs : List ScalarReg) (addr n : Nat) : Prop where
  pc : t.pc = s.pc + 1
  bufs : ∀ r, r ∉ bs → t.buf r = s.buf r
  scalars : ∀ q, q ∉ qs → t.scalar q = s.scalar q
  dmem : ∀ a, a < addr ∨ addr + n ≤ a → t.dmemWord a = s.dmemWord a
  busy : t.busy = s.busy
  done : t.done = s.done
  host : SameHostSide s t

/-- A clamped buffer whose significant bytes are `l`: what R12 says `mk(l)` is. -/
structure Buf.Holds (b : Buf) (l : List Byte) : Prop where
  valid : b.valid = true
  sig : b.sig = l.length
  len : b.len = ceil4 l.length
  bytes : ∀ (k : Nat) (h : k < l.length), b.byteAt k = l[k]
  padding : ∀ k, l.length ≤ k → k < 4 * b.len → b.byteAt k = 0

/-! ### Values the rules speak of -/

/-- The big-endian number a word list is (R10, R101). -/
def wordsValue (w : List Word) : Nat := w.foldl (fun acc x => acc * 2 ^ 32 + x.toNat) 0

/-- The input or output segments of `nblk` blocks from `addr` on, for a segment size `s`, in stream order (R172, R177). -/
def segmentsOf (m : Memory) (s addr nblk : Nat) : List Block :=
  (List.range nblk).flatMap fun k => (List.range (128 / s)).map fun j => getSegment (m.blockAt (addr + 4 * k)) s j

/-- One step of the CFB-s recurrence of R178: cipher input, input segment, output segment, ciphertext segment. -/
structure CfbStep where
  i : Block
  x : Block
  y : Block
  c : Block
deriving DecidableEq, Repr

/-- The CFB-s recurrence of R178 from the cipher input `i` on: `Y_t = X_t XOR MSB_s(CIPH(I_t))`, `C_t` is the output when
encrypting and the input when decrypting, and `I_(t+1) = LSB_(128-s)(I_t) || C_t`. -/
def cfbRecurrence (ciph : Block → Block) (s : Nat) (dir : Dir) (i : Block) (xs : List Block) : List CfbStep :=
  match xs with
  | [] => []
  | x :: rest =>
    let y := x ^^^ (ciph i >>> (128 - s))
    let c := match dir with
      | .encryptor => y
      | .decryptor => x
    { i := i, x := x, y := y, c := c } :: cfbRecurrence ciph s dir ((i <<< s) ||| c) rest

end Sys2Proof.Machine
end

