-- ==== Sys2Proof/Certificates/Slice0/Obligations.lean ====
section
/-! DEFINITION. The statements for the provers. Each docstring names the rules of spec/ the statement comes from. The terms
they use (the invariant, the fault conditions, the frames, the CFB recurrence) are defined in Sys2Proof/Safety.lean. -/

open Sys2Proof Sys2Proof.Machine

/-! ### Encoding -/

/-- Decoding an encoded well-formed command gives it back, with every operand at every value its field holds (R71 to R78). -/
def Obligations.DecodeOfEncodeIsTheCommand : Prop :=
  ∀ i : Instr, i.WellFormed = true → decode (encode i) = .ok i

/-- A word decodes to at most the one command whose encoding it is, and that command is well formed (R78). -/
def Obligations.EncodeOfDecodeIsTheWord : Prop :=
  ∀ (w : Word) (i : Instr), decode w = .ok i → i.WellFormed = true ∧ encode i = w

/-- The words that spell no command (R79): those with a reserved opcode, and those of a defined opcode with a nonzero bit in
a must-be-zero field, the fields as R71 to R75 place them. Every other word decodes. -/
def Obligations.ExactlyTheIllegalWordsDoNotDecode : Prop :=
  ∀ w : Word,
    let op := w.toNat / 2 ^ 27
    let zeroBits : Word :=
      if op = 0x01 ∨ op = 0x02 then 0x07FFFFFF#32
      else if op = 0x04 ∨ op = 0x05 then 0x000000FF#32
      else if op = 0x06 then 0x00FFFF00#32
      else if op = 0x07 ∨ op = 0x13 then 0x001FFFFF#32
      else if op = 0x08 ∨ op = 0x15 then 0x00FFFFFF#32
      else if 0x09 ≤ op ∧ op ≤ 0x0E then 0x001FFF00#32
      else if (0x0F ≤ op ∧ op ≤ 0x12) ∨ op = 0x14 then 0x0003FFFF#32
      else if op = 0x18 then 0x03000000#32
      else if op = 0x19 then 0x07000000#32
      else if op = 0x1A then 0x070000FF#32
      else 0#32
    (decode w = .error .reservedOpcode ↔ op = 0x00 ∨ op = 0x16 ∨ op = 0x17 ∨ 0x1B ≤ op) ∧
    (decode w = .error .mustBeZero ↔ w &&& zeroBits ≠ 0)

/-- The worked encodings of R92, in both directions. -/
def Obligations.WorkedEncodings : Prop :=
  ∀ p ∈ ([(0x19010010#32, .bld 1 0x0100 16), (0x4A600008#32, .shl 2 3 8), (0x4A6000FF#32, .shl 2 3 (-1)),
      (0x78040000#32, .xor 0 0 1), (0x91040000#32, .eq 1 0 1), (0xA8000000#32, .dbl 0),
      (0xC0010008#32, .cfbi .encryptor 0x0100 8), (0xC4010080#32, .cfbi .decryptor 0x0100 128),
      (0xC8020002#32, .cfbp 0x0200 2), (0x10000000#32, .halt)] : List (Word × Instr)),
    decode p.1 = .ok p.2 ∧ encode p.2 = p.1

/-! ### The step and the fault mechanism -/

/-- When it is the sequencer's turn and BUSY = 1, a step runs the command the word at PC decodes to (R200, R78, R202). The
turn is the sequencer's when the agenda is empty or says so; a turn taken is off the agenda (the model's, log 6). -/
def Obligations.StepRunsTheDecodedCommand : Prop :=
  ∀ (s : State) (i : Instr), s.busy = true → s.pc.toNat < 1024 → decode (s.imemWord s.pc.toNat) = .ok i → i.WellFormed = true →
    (s.agenda = [] → step s = exec i s) ∧
    (∀ rest, s.agenda = .sequencer :: rest → step s = exec i { s with agenda := rest })

/-- What a step does when no command runs. A turn of the environment acts on the state with that turn off the agenda (the
model's, log 6): a HostRead or HostWrite is the transaction of that offset, size and data (R250; `HostRegisterReads` and the
statements beside it say what each does), and keying the cipher sets its key while BUSY = 0 and changes nothing while BUSY = 1
(R258 (b); log 3). The RESET turns are `ResetBetweenSteps` and `ResetDuringAStep`. On its own turn an idle sequencer changes
nothing (R200, R246), and at a word that spells no command it raises ILLEGAL_COMMAND (R78). -/
def Obligations.OtherTurnsOfAStep : Prop :=
  (∀ (s : State) (e : HostEvent) (rest : List Turn), s.agenda = .host e :: rest →
    step s = .next (hostTurn e { s with agenda := rest })) ∧
  (∀ (s : State) (off : BitVec 19) (size : Nat) (rest : List Turn), s.agenda = .host (.read off size) :: rest →
    step s = .next (hostRead off size { s with agenda := rest })) ∧
  (∀ (s : State) (off : BitVec 19) (size : Nat) (data : Word) (rest : List Turn),
    s.agenda = .host (.write off size data) :: rest → step s = .next (hostWrite off size data { s with agenda := rest })) ∧
  (∀ (s : State) (k : Nat) (rest : List Turn), s.agenda = .host (.keyCipher k) :: rest →
    step s = .next (if s.busy then { s with agenda := rest } else { s with agenda := rest, cipherKey := k })) ∧
  (∀ s : State, s.sequencerNext = true → s.busy = false → step s = .next s.turnTaken) ∧
  (∀ (s : State) (e : DecodeError), s.sequencerNext = true → s.busy = true → s.pc.toNat < 1024 →
    decode (s.imemWord s.pc.toNat) = .error e → step s = .next (s.turnTaken.raise .illegalCommand))

/-- A fetch at PC >= 1024 raises FETCH_RANGE with FAULT_PC = PC and FAULT_CMD = 0; else the fetched word is IMEM[PC] (R202).
Whether the agenda is empty or names the sequencer's turn, that turn is taken off it: the model's choice (log 6). -/
def Obligations.FetchPastImemFaults : Prop :=
  ∀ s : State,
    (s.pc.toNat < 1024 → s.fetch = .ok (s.imemWord s.pc.toNat)) ∧
    (s.sequencerNext = true → s.busy = true → 1024 ≤ s.pc.toNat →
      step s = .next { s.turnTaken with busy := false, fault := true, cause := 1, faultPc := s.pc, faultCmd := 0 })

/-- The fault entry (R234), with the cause codes of R232: BUSY 0, FAULT 1, CAUSE the code, FAULT_PC the PC, FAULT_CMD the
fetched word (0 when none was fetched); IRQ high when IE = 1; everything else kept. -/
def Obligations.FaultEntryRecordsTheFault : Prop :=
  ∀ (s : State) (c : Cause),
    trap s c = .next { s with
      busy := false
      fault := true
      cause := BitVec.ofNat 4 (match c with
        | .fetchRange => 1
        | .illegalCommand => 2
        | .unwrittenBuffer => 3
        | .aliased => 4
        | .notImplemented => 5
        | .shiftRange => 6
        | .noSession => 7
        | .badSegment => 8
        | .lengthMismatch => 9
        | .capacity => 10
        | .addressRange => 11)
      faultPc := s.pc
      faultCmd := if s.pc.toNat < 1024 then s.imemWord s.pc.toNat else 0 } ∧
    (s.raise c).irq = s.ie

/-- Faults are precise (R233): a sequencer step that ends with FAULT = 1 wrote no buffer register, scalar register, session
register or memory word, and PC keeps the faulting index: the state is the state before plus the fault entry
(`FaultEntryRecordsTheFault`), with the turn it took off the agenda, which is the model's choice (log 6). -/
def Obligations.FaultsArePrecise : Prop :=
  ∀ s t : State, s.sequencerNext = true → s.busy = true → s.fault = false → step s = .next t → t.fault = true →
    (∀ r, t.buf r = s.buf r) ∧ (∀ q, t.scalar q = s.scalar q) ∧ t.sess = s.sess ∧
    (∀ a, t.dmemWord a = s.dmemWord a) ∧ (∀ i, t.imemWord i = s.imemWord i) ∧
    t.pc = s.pc ∧ ∃ c, t = s.turnTaken.raise c

/-- When one step meets several fault conditions the lowest cause code wins, and that fault is the step's only effect (R235)
but for the turn taken off the agenda, which is the model's choice (log 6). -/
def Obligations.LowestCauseCodeWins : Prop :=
  ∀ (s : State) (c : Cause), s.sequencerNext = true → s.busy = true → StepFaultCondition s c →
    (∀ d, StepFaultCondition s d → c.code.toNat ≤ d.code.toNat) → step s = .next (s.turnTaken.raise c)

/-- A command none of whose fault conditions holds completes: PC advances by 1 (R201), and nothing is written but what the
command's operands name (R75, R58, R170, R242). HALT's BUSY and DONE are `HaltEndsTheRun`'s. -/
def Obligations.CommandsCompleteWithinTheirFrame : Prop :=
  ∀ (i : Instr) (s : State), (∀ c, ¬FaultCondition i s c) →
    ∃ t, exec i s = .next t ∧
      (i ≠ .halt → CompletedBut s t (bufDests i) (scalarDests i) (storeSpan i s).1 (storeSpan i s).2) ∧
      (writesSession i = false → t.sess = s.sess) ∧ t.pc = s.pc + 1 ∧ t.fault = s.fault

/-- Every step of the machine answers a next state: every word and every operand has a defined effect (R78, R230). -/
def Obligations.EveryStepAnswersANextState : Prop :=
  ∀ s : State, ∃ t, step s = .next t

/-- Whether a command faults, and with which cause, depends on nothing but the command, the buffer registers and the session:
the conditions R232 and the commands' rules list read nothing else. So it depends neither on the host's registers, the
memories, the cipher's key nor the environment. (R239 would allow PC and the DMEM words a command reads as well.) -/
def Obligations.FaultsDependOnNothingElse : Prop :=
  ∀ (i : Instr) (s s' : State) (c : Cause),
    (∀ r, s'.buf r = s.buf r) → s'.sess = s.sess →
    (exec i s = .next (s.raise c) ↔ exec i s' = .next (s'.raise c))

/-! ### Control and data transfer -/

/-- `NOP` leaves everything unchanged but PC (R205). -/
def Obligations.NopOnlyAdvances : Prop :=
  ∀ s : State, exec .nop s = .next { s with pc := s.pc + 1 }

/-- `HALT` ends the run with DONE = 1 and PC at the next command, IRQ high when IE = 1, everything else kept (R206). -/
def Obligations.HaltEndsTheRun : Prop :=
  ∀ s : State, ∃ t, exec .halt s = .next t ∧ t = { s with busy := false, done := true, pc := s.pc + 1 } ∧ t.irq = s.ie

/-- `BLD bd, addr, n` loads `ceil4 n` whole words and sets sig to `n`; CAPACITY above 128 bytes, then ADDRESS_RANGE (R207). -/
def Obligations.BldLoadsWholeWords : Prop :=
  ∀ (s : State) (rd : BufReg) (addr n : Nat),
    if 128 < n then exec (.bld rd addr n) s = .next (s.raise .capacity)
    else if PastTop addr (ceil4 n) then exec (.bld rd addr n) s = .next (s.raise .addressRange)
    else ∃ t, exec (.bld rd addr n) s = .next t ∧ CompletedBut s t [rd] [] 0 0 ∧ t.sess = s.sess ∧
      (t.buf rd).valid = true ∧ (t.buf rd).sig = n ∧ (t.buf rd).len = ceil4 n ∧
      ∀ k, k < ceil4 n → (t.buf rd).w[k]? = some (s.dmemWord (addr + k))

/-- `BST bs, addr` stores every word of the buffer, stale bytes included (R208). -/
def Obligations.BstStoresEveryWord : Prop :=
  ∀ (s : State) (r : BufReg) (addr : Nat),
    if (s.buf r).valid = false then exec (.bst r addr) s = .next (s.raise .unwrittenBuffer)
    else if PastTop addr (s.buf r).len then exec (.bst r addr) s = .next (s.raise .addressRange)
    else ∃ t, exec (.bst r addr) s = .next t ∧ CompletedBut s t [] [] addr (s.buf r).len ∧ t.sess = s.sess ∧
      ∀ (k : Nat) (h : k < (s.buf r).w.length), t.dmemWord (addr + k) = (s.buf r).w[k]

/-- `SST ss, addr` stores the scalar at every address a command can name (R209). -/
def Obligations.SstStoresTheScalar : Prop :=
  ∀ (s : State) (r : ScalarReg) (addr : Nat), addr < 65536 →
    ∃ t, exec (.sst r addr) s = .next t ∧ CompletedBut s t [] [] addr 1 ∧ t.sess = s.sess ∧ t.dmemWord addr = s.scalar r

/-- `BCLR bd, n` makes a buffer of `n` zero bytes; CAPACITY above 128 (R210). -/
def Obligations.BclrMakesZeroBytes : Prop :=
  ∀ (s : State) (rd : BufReg) (n : Nat),
    if 128 < n then exec (.bclr rd n) s = .next (s.raise .capacity)
    else ∃ t, exec (.bclr rd n) s = .next t ∧ CompletedBut s t [rd] [] 0 0 ∧ t.sess = s.sess ∧
      t.buf rd = { valid := true, w := List.replicate (ceil4 n) 0, sig := n }

/-! ### The binary buffer kernel -/

/-- `BMOV bd, ba` copies exactly, stale bytes included (R103). -/
def Obligations.BmovCopiesExactly : Prop :=
  ∀ (s : State) (rd ra : BufReg),
    if (s.buf ra).valid = false then exec (.bmov rd ra) s = .next (s.raise .unwrittenBuffer)
    else ∃ t, exec (.bmov rd ra) s = .next t ∧ CompletedBut s t [rd] [] 0 0 ∧ t.sess = s.sess ∧ t.buf rd = s.buf ra

/-- `CLAMP bd` keeps the significant bytes, zeroes the stale ones and drops whole words beyond them (R102, R13). -/
def Obligations.ClampZeroesStaleBytes : Prop :=
  ∀ (s : State) (rd : BufReg),
    if (s.buf rd).valid = false then exec (.clamp rd) s = .next (s.raise .unwrittenBuffer)
    else ∃ t, exec (.clamp rd) s = .next t ∧ CompletedBut s t [rd] [] 0 0 ∧ t.sess = s.sess ∧
      (t.buf rd).Holds (s.buf rd).sigBytes

/-- `SHL bd, ss, n` (R104, R101): as big-endian numbers the words become `(W << n) mod 2^(32*len)` and the scalar gets the
overflow `W >> (32*len - n)`; sig and len stay. A negative amount raises NOT_IMPLEMENTED, 32 or more SHIFT_RANGE. -/
def Obligations.ShlShiftsTheWholeBuffer : Prop :=
  ∀ (s : State) (rd : BufReg) (ra : ScalarReg) (n : Int),
    if (s.buf rd).valid = false then exec (.shl rd ra n) s = .next (s.raise .unwrittenBuffer)
    else if n < 0 then exec (.shl rd ra n) s = .next (s.raise .notImplemented)
    else if 32 ≤ n then exec (.shl rd ra n) s = .next (s.raise .shiftRange)
    else ∃ t, exec (.shl rd ra n) s = .next t ∧ CompletedBut s t [rd] [ra] 0 0 ∧ t.sess = s.sess ∧
      (t.buf rd).valid = true ∧ (t.buf rd).sig = (s.buf rd).sig ∧ (t.buf rd).len = (s.buf rd).len ∧
      wordsValue (t.buf rd).w = wordsValue (s.buf rd).w * 2 ^ n.toNat % 2 ^ (32 * (s.buf rd).len) ∧
      (t.scalar ra).toNat = wordsValue (s.buf rd).w * 2 ^ n.toNat / 2 ^ (32 * (s.buf rd).len)

/-- `LMW bd, ba, n` takes the first `n` words, sig truncated to at most `4*n`, clamped (R110). -/
def Obligations.LmwTakesLeadingWords : Prop :=
  ∀ (s : State) (rd ra : BufReg) (n : Nat),
    if (s.buf ra).valid = false then exec (.lmw rd ra n) s = .next (s.raise .unwrittenBuffer)
    else if (s.buf ra).len < n then exec (.lmw rd ra n) s = .next (s.raise .lengthMismatch)
    else ∃ t, exec (.lmw rd ra n) s = .next t ∧ CompletedBut s t [rd] [] 0 0 ∧ t.sess = s.sess ∧
      (t.buf rd).Holds ((s.buf ra).sigBytes.take (4 * n))

/-- `LMB bd, ba, n` takes the first `n` bytes (R111). -/
def Obligations.LmbTakesLeadingBytes : Prop :=
  ∀ (s : State) (rd ra : BufReg) (n : Nat),
    if (s.buf ra).valid = false then exec (.lmb rd ra n) s = .next (s.raise .unwrittenBuffer)
    else if (s.buf ra).sig < n then exec (.lmb rd ra n) s = .next (s.raise .lengthMismatch)
    else ∃ t, exec (.lmb rd ra n) s = .next t ∧ CompletedBut s t [rd] [] 0 0 ∧ t.sess = s.sess ∧
      (t.buf rd).Holds ((s.buf ra).sigBytes.take n)

/-- `RMB bd, ba, n` takes the last `n` bytes and clamps its source in place; when both are one register it ends with the
result (R112). -/
def Obligations.RmbTakesTrailingBytes : Prop :=
  ∀ (s : State) (rd ra : BufReg) (n : Nat),
    if (s.buf ra).valid = false then exec (.rmb rd ra n) s = .next (s.raise .unwrittenBuffer)
    else if (s.buf ra).sig < n then exec (.rmb rd ra n) s = .next (s.raise .lengthMismatch)
    else ∃ t, exec (.rmb rd ra n) s = .next t ∧ CompletedBut s t [rd, ra] [] 0 0 ∧ t.sess = s.sess ∧
      (t.buf rd).Holds ((s.buf ra).sigBytes.drop ((s.buf ra).sig - n)) ∧
      (rd ≠ ra → (t.buf ra).Holds (s.buf ra).sigBytes)

/-- `POPW bd, ba, n` moves the first `n` words to `bd` and leaves the rest, not clamped; ALIAS when both are one register,
LENGTH_MISMATCH when fewer than `n` full significant words are there (R120). -/
def Obligations.PopwMovesLeadingWords : Prop :=
  ∀ (s : State) (rd ra : BufReg) (n : Nat),
    if (s.buf ra).valid = false then exec (.popw rd ra n) s = .next (s.raise .unwrittenBuffer)
    else if rd = ra then exec (.popw rd ra n) s = .next (s.raise .aliased)
    else if (s.buf ra).sig < 4 * n then exec (.popw rd ra n) s = .next (s.raise .lengthMismatch)
    else ∃ t, exec (.popw rd ra n) s = .next t ∧ CompletedBut s t [rd, ra] [] 0 0 ∧ t.sess = s.sess ∧
      t.buf rd = { valid := true, w := (s.buf ra).w.take n, sig := 4 * n } ∧
      t.buf ra = { valid := true, w := (s.buf ra).w.drop n, sig := (s.buf ra).sig - 4 * n }

/-- `SHOB bd, ba, n` moves the first `n` bytes to `bd` and leaves the rest, both clamped; ALIAS when both are one register
(R121). -/
def Obligations.ShobMovesLeadingBytes : Prop :=
  ∀ (s : State) (rd ra : BufReg) (n : Nat),
    if (s.buf ra).valid = false then exec (.shob rd ra n) s = .next (s.raise .unwrittenBuffer)
    else if rd = ra then exec (.shob rd ra n) s = .next (s.raise .aliased)
    else if (s.buf ra).sig < n then exec (.shob rd ra n) s = .next (s.raise .lengthMismatch)
    else ∃ t, exec (.shob rd ra n) s = .next t ∧ CompletedBut s t [rd, ra] [] 0 0 ∧ t.sess = s.sess ∧
      (t.buf rd).Holds ((s.buf ra).sigBytes.take n) ∧ (t.buf ra).Holds ((s.buf ra).sigBytes.drop n)

/-- `XOR bd, ba, bb` XORs two buffers of equal sig word by word, stale bytes included; equal sig gives equal len by R24, and
the premise says so of the two sources (R130). -/
def Obligations.XorIsWordwise : Prop :=
  ∀ (s : State) (rd ra rb : BufReg), ((s.buf ra).sig = (s.buf rb).sig → (s.buf ra).len = (s.buf rb).len) →
    if (s.buf ra).valid = false ∨ (s.buf rb).valid = false then exec (.xor rd ra rb) s = .next (s.raise .unwrittenBuffer)
    else if (s.buf ra).sig ≠ (s.buf rb).sig then exec (.xor rd ra rb) s = .next (s.raise .lengthMismatch)
    else ∃ t, exec (.xor rd ra rb) s = .next t ∧ CompletedBut s t [rd] [] 0 0 ∧ t.sess = s.sess ∧
      (t.buf rd).valid = true ∧ (t.buf rd).sig = (s.buf ra).sig ∧ (t.buf rd).len = (s.buf ra).len ∧
      ∀ i, i < (s.buf ra).len → (t.buf rd).w.getD i 0 = (s.buf ra).w.getD i 0 ^^^ (s.buf rb).w.getD i 0

/-- `AND bd, ba, bb` ANDs two buffers of equal sig word by word, stale bytes included; the premise as for XOR (R133). -/
def Obligations.AndIsWordwise : Prop :=
  ∀ (s : State) (rd ra rb : BufReg), ((s.buf ra).sig = (s.buf rb).sig → (s.buf ra).len = (s.buf rb).len) →
    if (s.buf ra).valid = false ∨ (s.buf rb).valid = false then exec (.and rd ra rb) s = .next (s.raise .unwrittenBuffer)
    else if (s.buf ra).sig ≠ (s.buf rb).sig then exec (.and rd ra rb) s = .next (s.raise .lengthMismatch)
    else ∃ t, exec (.and rd ra rb) s = .next t ∧ CompletedBut s t [rd] [] 0 0 ∧ t.sess = s.sess ∧
      (t.buf rd).valid = true ∧ (t.buf rd).sig = (s.buf ra).sig ∧ (t.buf rd).len = (s.buf ra).len ∧
      ∀ i, i < (s.buf ra).len → (t.buf rd).w.getD i 0 = (s.buf ra).w.getD i 0 &&& (s.buf rb).w.getD i 0

/-- `XORT bd, ba, bb` XORs the bytes of `bb` onto the last bytes of `ba` and leaves the leading ones, clamped (R132). -/
def Obligations.XortXorsTheTail : Prop :=
  ∀ (s : State) (rd ra rb : BufReg),
    if (s.buf ra).valid = false ∨ (s.buf rb).valid = false then exec (.xort rd ra rb) s = .next (s.raise .unwrittenBuffer)
    else if (s.buf ra).sig < (s.buf rb).sig then exec (.xort rd ra rb) s = .next (s.raise .lengthMismatch)
    else ∃ t, exec (.xort rd ra rb) s = .next t ∧ CompletedBut s t [rd] [] 0 0 ∧ t.sess = s.sess ∧
      (t.buf rd).Holds ((s.buf ra).sigBytes.take ((s.buf ra).sig - (s.buf rb).sig) ++
        List.zipWith (fun x y => x ^^^ y) ((s.buf ra).sigBytes.drop ((s.buf ra).sig - (s.buf rb).sig)) (s.buf rb).sigBytes)

/-- `EQ sd, ba, bb` never faults (R140): 0, and no buffer changes, when a register is invalid or the sigs differ; else 1 or 0
as the significant bytes are equal or not, and both registers are clamped in place. -/
def Obligations.EqComparesAndClamps : Prop :=
  ∀ (s : State) (rd : ScalarReg) (ra rb : BufReg),
    ∃ t, exec (.eq rd ra rb) s = .next t ∧ CompletedBut s t [ra, rb] [rd] 0 0 ∧ t.sess = s.sess ∧
      if (s.buf ra).valid = false ∨ (s.buf rb).valid = false ∨ (s.buf ra).sig ≠ (s.buf rb).sig then
        t.scalar rd = 0 ∧ t.buf ra = s.buf ra ∧ t.buf rb = s.buf rb
      else
        (t.scalar rd = 1 ∨ t.scalar rd = 0) ∧ (t.scalar rd = 1 ↔ (s.buf ra).sigBytes = (s.buf rb).sigBytes) ∧
        (t.buf ra).Holds (s.buf ra).sigBytes ∧ (t.buf rb).Holds (s.buf rb).sigBytes

/-- `MSB sd, ba` gives bit 31 of the first word as 0 or 1; LENGTH_MISMATCH when there is no word (R145). -/
def Obligations.MsbReadsBit31 : Prop :=
  ∀ (s : State) (rd : ScalarReg) (ra : BufReg),
    if (s.buf ra).valid = false then exec (.msb rd ra) s = .next (s.raise .unwrittenBuffer)
    else if (s.buf ra).len = 0 then exec (.msb rd ra) s = .next (s.raise .lengthMismatch)
    else ∃ t, exec (.msb rd ra) s = .next t ∧ CompletedBut s t [] [rd] 0 0 ∧ t.sess = s.sess ∧
      t.scalar rd = if ((s.buf ra).w.getD 0 0).getLsbD 31 then 1 else 0

/-- `CAT bd, ba, bb` joins the significant bytes, clamped; CAPACITY above 128 bytes (R150). -/
def Obligations.CatJoinsTheBytes : Prop :=
  ∀ (s : State) (rd ra rb : BufReg),
    if (s.buf ra).valid = false ∨ (s.buf rb).valid = false then exec (.cat rd ra rb) s = .next (s.raise .unwrittenBuffer)
    else if 128 < (s.buf ra).sig + (s.buf rb).sig then exec (.cat rd ra rb) s = .next (s.raise .capacity)
    else ∃ t, exec (.cat rd ra rb) s = .next t ∧ CompletedBut s t [rd] [] 0 0 ∧ t.sess = s.sess ∧
      (t.buf rd).Holds ((s.buf ra).sigBytes ++ (s.buf rb).sigBytes)

/-- Slicing and joining a buffer gives it back (R113): RMB the last `n` bytes, LMB the rest, CAT them; the result is the
clamped buffer, and EQ against the original yields 1. The registers written before `x` and the first slice
are read are other registers. -/
def Obligations.SlicesReconstructTheBuffer : Prop :=
  ∀ (s : State) (x r1 r2 r3 : BufReg) (q : ScalarReg) (n : Nat),
    (s.buf x).Ok → (s.buf x).valid = true → n ≤ (s.buf x).sig → r1 ≠ x → r2 ≠ x → r1 ≠ r2 →
    ∃ t1 t2 t3 t4, exec (.rmb r1 x n) s = .next t1 ∧ exec (.lmb r2 x ((s.buf x).sig - n)) t1 = .next t2 ∧
      exec (.cat r3 r2 r1) t2 = .next t3 ∧ t3.buf r3 = (s.buf x).clampv ∧
      exec (.eq q r3 x) t3 = .next t4 ∧ t4.scalar q = 1

/-- XOR twice with the same buffer gives the first back word for word, stale bytes included, and EQ yields 1 (R131); the
register the copy goes to is not the one XORed. -/
def Obligations.XorIsAnInvolution : Prop :=
  ∀ (s : State) (a b r : BufReg) (q : ScalarReg),
    (s.buf a).Ok → (s.buf b).Ok → (s.buf a).valid = true → (s.buf b).valid = true → (s.buf a).sig = (s.buf b).sig →
    r ≠ b →
    ∃ t1 t2 t3 t4, exec (.bmov r a) s = .next t1 ∧ exec (.xor r r b) t1 = .next t2 ∧ exec (.xor r r b) t2 = .next t3 ∧
      t3.buf r = s.buf a ∧ exec (.eq q r a) t3 = .next t4 ∧ t4.scalar q = 1

/-- EQ of a valid register with itself yields 1; EQ of registers whose sigs differ yields 0 (R141). -/
def Obligations.EqOfItselfAndOfOtherLengths : Prop :=
  (∀ (s : State) (q : ScalarReg) (x : BufReg), (s.buf x).valid = true →
    ∃ t, exec (.eq q x x) s = .next t ∧ t.scalar q = 1) ∧
  (∀ (s : State) (q : ScalarReg) (x y : BufReg), (s.buf x).sig ≠ (s.buf y).sig →
    ∃ t, exec (.eq q x y) s = .next t ∧ t.scalar q = 0)

/-! ### Doubling -/

/-- `DBL bd` (R160): as a 128-bit value `V' = ((V << 1) mod 2^128) XOR (V[127] = 1 ? 0x87 : 0)`; LENGTH_MISMATCH unless the
buffer is exactly four words with 16 significant bytes. -/
def Obligations.DblDoublesTheBlock : Prop :=
  ∀ (s : State) (rd : BufReg),
    if (s.buf rd).valid = false then exec (.dbl rd) s = .next (s.raise .unwrittenBuffer)
    else if (s.buf rd).len ≠ 4 ∨ (s.buf rd).sig ≠ 16 then exec (.dbl rd) s = .next (s.raise .lengthMismatch)
    else ∃ t, exec (.dbl rd) s = .next t ∧ CompletedBut s t [rd] [] 0 0 ∧ t.sess = s.sess ∧
      (t.buf rd).valid = true ∧ (t.buf rd).sig = 16 ∧ (t.buf rd).len = 4 ∧
      wordsValue (t.buf rd).w = (wordsValue (s.buf rd).w * 2 % 2 ^ 128) ^^^
        (if 2 ^ 127 ≤ wordsValue (s.buf rd).w then 0x87 else 0)

/-- DBL against MSB and SHL (R162): with top bit 0 DBL gives the words of SHL by 1; with top bit 1 those words XORed with RB,
which changes only the last word; sig and len never change. -/
def Obligations.DblAgreesWithShl : Prop :=
  ∀ (s : State) (r : BufReg) (q : ScalarReg) (m d h : State),
    (s.buf r).valid = true → (s.buf r).len = 4 → (s.buf r).sig = 16 →
    exec (.msb q r) s = .next m → exec (.dbl r) s = .next d → exec (.shl r q 1) s = .next h →
    (m.scalar q = 0 → (d.buf r).w = (h.buf r).w) ∧
    (m.scalar q = 1 → (d.buf r).w = (h.buf r).w.take 3 ++ [(h.buf r).w.getD 3 0 ^^^ 0x00000087#32]) ∧
    (d.buf r).sig = (s.buf r).sig ∧ (d.buf r).len = (s.buf r).len

/-! ### The CFB mode -/

/-- `CFBI dir, addr, seg` creates the session (R171): BAD_SEGMENT, then ADDRESS_RANGE; else IV from the four words, pending,
PREV and CT 0. -/
def Obligations.CfbiCreatesTheSession : Prop :=
  ∀ (s : State) (dir : Dir) (addr seg : Nat),
    if seg ≠ 8 ∧ seg ≠ 16 ∧ seg ≠ 32 ∧ seg ≠ 64 ∧ seg ≠ 128 then exec (.cfbi dir addr seg) s = .next (s.raise .badSegment)
    else if 65536 < addr + 4 then exec (.cfbi dir addr seg) s = .next (s.raise .addressRange)
    else ∃ t, exec (.cfbi dir addr seg) s = .next t ∧ CompletedBut s t [] [] 0 0 ∧
      t.sess.valid = true ∧ t.sess.ivPending = true ∧ t.sess.dir = dir ∧ t.sess.seg.toNat = seg ∧
      t.sess.prev = 0 ∧ t.sess.ct = 0 ∧
      t.sess.iv.toNat = (s.dmemWord addr).toNat * 2 ^ 96 + (s.dmemWord (addr + 1)).toNat * 2 ^ 64 +
        (s.dmemWord (addr + 2)).toNat * 2 ^ 32 + (s.dmemWord (addr + 3)).toNat

/-- The checks of `CFBP addr, nblk` and its frame (R177): NO_SESSION, then ADDRESS_RANGE, before any block; else it completes,
storing only to the blocks it names, and no blocks change nothing but PC. -/
def Obligations.CfbpIsAllOrNothing : Prop :=
  ∀ (s : State) (addr nblk : Nat),
    if s.sess.valid = false then exec (.cfbp addr nblk) s = .next (s.raise .noSession)
    else if PastTop addr (4 * nblk) then exec (.cfbp addr nblk) s = .next (s.raise .addressRange)
    else ∃ t, exec (.cfbp addr nblk) s = .next t ∧ CompletedBut s t [] [] addr (4 * nblk) ∧
      (nblk = 0 → t = { s with pc := s.pc + 1 })

/-- CFBP follows the CFB-s recurrence (R178): started at the IV when it is pending, else at
`LSB_(128-s)(PREV) || CT`, its output segments are the `Y_t` of the input segments read in order, and PREV and CT end as the
last `I_t` and `C_t`, so that the next CFBP goes on with the recurrence. -/
def Obligations.CfbpFollowsTheRecurrence : Prop :=
  ∀ (s : State) (addr nblk : Nat), s.sess.Ok → s.sess.valid = true → ¬PastTop addr (4 * nblk) →
    ∃ t, exec (.cfbp addr nblk) s = .next t ∧
      let n := s.sess.seg.toNat
      let i := if s.sess.ivPending then s.sess.iv else (s.sess.prev <<< n) ||| s.sess.ct
      let steps := cfbRecurrence (Config.ciph s.cipherKey) n s.sess.dir i (segmentsOf s.dmem n addr nblk)
      segmentsOf t.dmem n addr nblk = steps.map CfbStep.y ∧
      (∀ last, steps.getLast? = some last → t.sess.prev = last.i ∧ t.sess.ct = last.c) ∧
      t.sess.valid = true ∧ t.sess.seg = s.sess.seg ∧ t.sess.dir = s.sess.dir

/-- Encrypting blocks and decrypting the result, at the same or another address, in a session that differs in its direction
alone gives the blocks back, for every segment size; and the two sessions again differ in their direction alone, so the same
holds of the CFBP commands that follow (R179). -/
def Obligations.CfbRoundTrip : Prop :=
  ∀ (s s' t t' : State) (addr addr' nblk : Nat), s.sess.Ok → s.sess.valid = true → s.sess.dir = .encryptor →
    ¬PastTop addr (4 * nblk) → ¬PastTop addr' (4 * nblk) → exec (.cfbp addr nblk) s = .next t →
    s'.sess = { s.sess with dir := .decryptor } → s'.cipherKey = s.cipherKey →
    (∀ k, k < 4 * nblk → s'.dmemWord (addr' + k) = t.dmemWord (addr + k)) → exec (.cfbp addr' nblk) s' = .next t' →
    (∀ k, k < 4 * nblk → t'.dmemWord (addr' + k) = s.dmemWord (addr + k)) ∧ t'.sess = { t.sess with dir := .decryptor }

/-- The first `m` output segments of a CFBP depend only on the session, the cipher and the first `m` input segments (R180). -/
def Obligations.CfbOutputPrefix : Prop :=
  ∀ (s s' t t' : State) (addr nblk m : Nat), s.sess.Ok → s.sess.valid = true → ¬PastTop addr (4 * nblk) →
    s'.sess = s.sess → s'.cipherKey = s.cipherKey →
    (segmentsOf s'.dmem s.sess.seg.toNat addr nblk).take m = (segmentsOf s.dmem s.sess.seg.toNat addr nblk).take m →
    exec (.cfbp addr nblk) s = .next t → exec (.cfbp addr nblk) s' = .next t' →
    (segmentsOf t'.dmem s.sess.seg.toNat addr nblk).take m = (segmentsOf t.dmem s.sess.seg.toNat addr nblk).take m

/-- The IV is used once (R183): a CFBP of at least one block leaves IV = 0 and IV_PENDING = 0; and with the IV consumed no
command but CFBI changes either, nor does the next cipher input read it: for s = 128 it is CT alone (R184). -/
def Obligations.TheIvIsUsedOnce : Prop :=
  (∀ (s t : State) (addr nblk : Nat), s.sess.Ok → s.sess.valid = true → ¬PastTop addr (4 * nblk) → 1 ≤ nblk →
    exec (.cfbp addr nblk) s = .next t → t.sess.iv = 0 ∧ t.sess.ivPending = false) ∧
  (∀ (i : Instr) (s t : State), s.sess.iv = 0 → s.sess.ivPending = false → exec i s = .next t →
    (∀ dir addr seg, i ≠ .cfbi dir addr seg) → t.sess.iv = 0 ∧ t.sess.ivPending = false) ∧
  (∀ ss : Session, ss.ivPending = false → ss.cipherInput = (ss.prev <<< ss.seg.toNat) ||| ss.ct) ∧
  (∀ ss : Session, ss.ivPending = false → ss.seg = 128 → ss.cipherInput = ss.ct)

/-- `CFBS addr` stores PREV, CT left-aligned and the session word at the nine words from `addr` on (R185); NO_SESSION, then
ADDRESS_RANGE. -/
def Obligations.CfbsDumpsTheSession : Prop :=
  ∀ (s : State) (addr : Nat),
    if s.sess.valid = false then exec (.cfbs addr) s = .next (s.raise .noSession)
    else if 65536 < addr + 9 then exec (.cfbs addr) s = .next (s.raise .addressRange)
    else ∃ t, exec (.cfbs addr) s = .next t ∧ CompletedBut s t [] [] addr 9 ∧ t.sess = s.sess ∧
      (∀ k, k < 4 → (t.dmemWord (addr + k)).toNat = s.sess.prev.toNat / 2 ^ (96 - 32 * k) % 2 ^ 32) ∧
      (∀ k, k < 4 → (t.dmemWord (addr + 4 + k)).toNat =
        s.sess.ct.toNat * 2 ^ (128 - s.sess.seg.toNat) % 2 ^ 128 / 2 ^ (96 - 32 * k) % 2 ^ 32) ∧
      (t.dmemWord (addr + 8)).toNat = s.sess.seg.toNat * 2 ^ 8 + (if s.sess.dir = .decryptor then 4 else 0) +
        (if s.sess.ivPending then 2 else 0) + (if s.sess.valid then 1 else 0)

/-! ### The invariant and the end of a run -/

/-- The state after reset has the invariant (R271). -/
def Obligations.ResetHasTheInvariant : Prop := State.reset.Inv

/-- Every step keeps the invariant, from every state that has it (R21, R23, R24, R30 to R35, R39, R40, R50, R51). -/
def Obligations.EveryStepKeepsTheInvariant : Prop :=
  ∀ s t : State, s.Inv → step s = .next t → t.Inv

/-- Every run ends (R202, R204), whatever turns of the environment come between its steps (R286). From PC = p, with BUSY = 1,
the run goes on until BUSY = 0: the sequencer executes at most 1024 - p commands in it (none when p is past 1023) and takes at
most 1025 - p steps, or the one step that faults when p is past 1024; the rest of its turns are the environment's. Unless a
RESET ends it (R270), it ends with DONE or FAULT, and no step of it lowers PC. That the environment has finitely many turns,
which stand in the agenda and bound the run's length, is the model's choice (logs 6, 16). -/
def Obligations.EveryRunEnds : Prop :=
  ∀ s : State, s.busy = true →
    ∃ (k : Nat) (t : State), k ≤ s.agenda.length + max 1 (1025 - s.pc.toNat) ∧
      Host.Core.run Sys2Proof.core k s = .next t ∧ t.busy = false ∧
      (∀ j, j < k → ∃ u : State, Host.Core.run Sys2Proof.core j s = .next u ∧ u.busy = true) ∧
      countSteps State.runsCommand k s ≤ 1024 - s.pc.toNat ∧
      countSteps State.takesStep k s ≤ max 1 (1025 - s.pc.toNat) ∧
      ((∀ turn ∈ s.agenda, turn ≠ .host .reset ∧ turn ≠ .host .resetDuringStep) →
        (t.done = true ∨ t.fault = true) ∧
        ∀ (j : Nat) (u v : State), j < k → Host.Core.run Sys2Proof.core j s = .next u →
          Host.Core.run Sys2Proof.core (j + 1) s = .next v → u.pc.toNat ≤ v.pc.toNat)

/-! ### Reset -/

/-- RESET between two steps puts every register of the unit at its reset value and keeps both memories and the cipher's key
(R270, R271); of the model's own fields the rest of the agenda, the last HostRead's word and the draw counter are kept
(log 15). -/
def Obligations.ResetBetweenSteps : Prop :=
  ∀ (s : State) (rest : List Turn), s.agenda = .host .reset :: rest →
    ∃ t, step s = .next t ∧ ResetFrom s t ∧ (∀ a, t.dmemWord a = s.dmemWord a) ∧ t.agenda = rest ∧ t.draws = s.draws

/-- RESET during a step (R270): the registers, IMEM and the cipher's key as for RESET between steps, and so the model's own
fields, but for the draw counter, which advances (logs 9, 15). When a command runs in that step, every DMEM word outside its
span is kept and the existing words in the span are free values of the current draw, whatever its number (log 9); when none
does (BUSY = 0, PC past IMEM, a word that spells no command), all of DMEM is kept. -/
def Obligations.ResetDuringAStep : Prop :=
  ∀ (s : State) (rest : List Turn), s.agenda = .host .resetDuringStep :: rest →
    ∃ t, step s = .next t ∧ ResetFrom s t ∧ t.agenda = rest ∧ t.draws = s.draws + 1 ∧
      (∀ i, s.busy = true → s.pc.toNat < 1024 → decode (s.imemWord s.pc.toNat) = .ok i →
        (∀ a, a < (commandSpan i s).1 ∨ (commandSpan i s).1 + (commandSpan i s).2 ≤ a → t.dmemWord a = s.dmemWord a) ∧
        (∀ a, (commandSpan i s).1 ≤ a → a < (commandSpan i s).1 + (commandSpan i s).2 → a < 65536 →
          t.dmemWord a = Config.tornWord s.draws a)) ∧
      (s.busy = false ∨ 1024 ≤ s.pc.toNat ∨ (∃ e, decode (s.imemWord s.pc.toNat) = .error e) →
        ∀ a, t.dmemWord a = s.dmemWord a)

/-! ### The host interface -/

/-- A write to CTRL (R254, R255): IE first and always; then CLEAR, refused with HOSTERR while BUSY = 1; then GO, refused with
HOSTERR while BUSY = 1 or FAULT = 1, else DONE 0 and BUSY 1. -/
def Obligations.CtrlWriteAppliesIeClearGo : Prop :=
  ∀ (s : State) (data : Word),
    let s1 := { s with ie := data.getLsbD 2 }
    let s2 := if data.getLsbD 1 = false then s1
      else if s.busy = true then { s1 with hostErr := true }
      else { s1 with done := false, fault := false, hostErr := false, cause := 0, faultPc := 0, faultCmd := 0 }
    hostWrite 0x0000 4 data s =
      if data.getLsbD 0 = false then s2
      else if s2.busy = true ∨ s2.fault = true then { s2 with hostErr := true }
      else { s2 with done := false, busy := true }

/-- A write to PC, IMEM or DMEM (R253): refused with HOSTERR while BUSY = 1, else PC takes the low 11 bits, or the one word of
the window changes. -/
def Obligations.WritesWaitForIdle : Prop :=
  ∀ (s : State) (data : Word),
    (hostWrite 0x0008 4 data s =
      if s.busy then { s with hostErr := true } else { s with pc := BitVec.ofNat 11 (data.toNat % 2 ^ 11) }) ∧
    (∀ i, i < 1024 → let t := hostWrite (BitVec.ofNat 19 (0x01000 + 4 * i)) 4 data s
      if s.busy then t = { s with hostErr := true }
      else t = { s with imem := t.imem } ∧ ∀ j, t.imemWord j = if j = i then data else s.imemWord j) ∧
    (∀ a, a < 65536 → let t := hostWrite (BitVec.ofNat 19 (0x40000 + 4 * a)) 4 data s
      if s.busy then t = { s with hostErr := true }
      else t = { s with dmem := t.dmem } ∧ ∀ b, t.dmemWord b = if b = a then data else s.dmemWord b)

/-- A transaction that is not 32 bits wide or not aligned is refused (R251): a write does nothing, a read returns 0, HOSTERR is
set. That the word a read returns stands in hostData is the model's choice (log 7). -/
def Obligations.BadTransactionsAreRefused : Prop :=
  ∀ (s : State) (off : BitVec 19) (size : Nat) (data : Word), size ≠ 4 ∨ off.toNat % 4 ≠ 0 →
    hostWrite off size data s = { s with hostErr := true } ∧
    hostRead off size s = { s with hostData := 0, hostErr := true }

/-- Writes to the read-only registers and to the offsets that hold no register do nothing and set no HOSTERR (R252). -/
def Obligations.ReadOnlyWritesAreIgnored : Prop :=
  ∀ (s : State) (off : BitVec 19) (data : Word), off.toNat < 0x1000 → off.toNat % 4 = 0 → off.toNat ≠ 0x00 → off.toNat ≠ 0x08 →
    hostWrite off 4 data s = s

/-- Reads of the host registers (R38 to R44): each register's word, and 0 at the offsets that hold none; no state changes but
the returned word. -/
def Obligations.HostRegisterReads : Prop :=
  ∀ (s : State) (off : BitVec 19), off.toNat < 0x1000 → off.toNat % 4 = 0 →
    ∃ v : Word, hostRead off 4 s = { s with hostData := v } ∧
      v.toNat =
        if off.toNat = 0x00 then (if s.ie then 4 else 0)
        else if off.toNat = 0x04 then (if s.busy then 1 else 0) + (if s.done then 2 else 0) + (if s.fault then 4 else 0) +
          (if s.hostErr then 8 else 0) + s.cause.toNat * 2 ^ 8
        else if off.toNat = 0x08 then s.pc.toNat
        else if off.toNat = 0x0C then s.faultPc.toNat
        else if off.toNat = 0x10 then s.faultCmd.toNat
        else if off.toNat = 0x14 then 0x01040820
        else if off.toNat = 0x18 then (if s.sess.valid then 1 else 0) + (if s.sess.ivPending then 2 else 0) +
          (if s.sess.dir = .decryptor then 4 else 0) + s.sess.seg.toNat * 2 ^ 8
        else 0

/-- Reads of the memory windows (R55, R252, R257): the word while BUSY = 0; while BUSY = 1 the free value of the current draw,
for every value of the draw counter, and nothing else changes but that counter (log 8); 0 in the unmapped range. -/
def Obligations.HostMemoryReads : Prop :=
  ∀ s : State,
    (∀ i, i < 1024 → hostRead (BitVec.ofNat 19 (0x01000 + 4 * i)) 4 s =
      if s.busy then { s with hostData := Config.busyRead s.draws, draws := s.draws + 1 }
      else { s with hostData := s.imemWord i }) ∧
    (∀ a, a < 65536 → hostRead (BitVec.ofNat 19 (0x40000 + 4 * a)) 4 s =
      if s.busy then { s with hostData := Config.busyRead s.draws, draws := s.draws + 1 }
      else { s with hostData := s.dmemWord a }) ∧
    (∀ off : BitVec 19, 0x02000 ≤ off.toNat → off.toNat < 0x40000 → off.toNat % 4 = 0 →
      hostRead off 4 s = { s with hostData := 0 } ∧ ∀ data, hostWrite off 4 data s = s)

/-- The IRQ output is the level `CTRL.IE AND (STATUS.DONE OR STATUS.FAULT)` (R240), and HOSTERR does not drive it. -/
def Obligations.IrqIsTheLevelOfDoneOrFault : Prop :=
  ∀ s : State, (s.irq = true ↔ s.ie = true ∧ (s.done = true ∨ s.fault = true)) ∧ { s with hostErr := !s.hostErr }.irq = s.irq

/-- Recovery from a fault (R236): after a fault in a run, one CTRL write with CLEAR and GO gives the state before the faulting
command, PC included, with IE as written and the sticky HOSTERR cleared: the run goes on as if the fault had not happened. -/
def Obligations.ClearAndGoResumeAtTheFault : Prop :=
  ∀ (s : State) (c : Cause) (data : Word), s.Inv → s.busy = true → data.getLsbD 0 = true → data.getLsbD 1 = true →
    hostWrite 0x0000 4 data (s.raise c) = { s with ie := data.getLsbD 2, hostErr := false }
end

