-- ==== Sys2Proof/Laws/State.lean ====
section
/-! SUPPORT. What each update of the state leaves in each field (one lemma per field per update, all by rfl), and what the
register and memory reads see through updates of other fields. -/

namespace Sys2Proof.Machine

variable (s : State)

/-! ### `setBuf` -/

@[simp] theorem setBuf_bufs (r : BufReg) (v : Buf) : (s.setBuf r v).bufs = s.bufs.set r.val v := rfl
@[simp] theorem setBuf_scalars (r : BufReg) (v : Buf) : (s.setBuf r v).scalars = s.scalars := rfl
@[simp] theorem setBuf_sess (r : BufReg) (v : Buf) : (s.setBuf r v).sess = s.sess := rfl
@[simp] theorem setBuf_pc (r : BufReg) (v : Buf) : (s.setBuf r v).pc = s.pc := rfl
@[simp] theorem setBuf_ie (r : BufReg) (v : Buf) : (s.setBuf r v).ie = s.ie := rfl
@[simp] theorem setBuf_busy (r : BufReg) (v : Buf) : (s.setBuf r v).busy = s.busy := rfl
@[simp] theorem setBuf_done (r : BufReg) (v : Buf) : (s.setBuf r v).done = s.done := rfl
@[simp] theorem setBuf_fault (r : BufReg) (v : Buf) : (s.setBuf r v).fault = s.fault := rfl
@[simp] theorem setBuf_hostErr (r : BufReg) (v : Buf) : (s.setBuf r v).hostErr = s.hostErr := rfl
@[simp] theorem setBuf_cause (r : BufReg) (v : Buf) : (s.setBuf r v).cause = s.cause := rfl
@[simp] theorem setBuf_faultPc (r : BufReg) (v : Buf) : (s.setBuf r v).faultPc = s.faultPc := rfl
@[simp] theorem setBuf_faultCmd (r : BufReg) (v : Buf) : (s.setBuf r v).faultCmd = s.faultCmd := rfl
@[simp] theorem setBuf_imem (r : BufReg) (v : Buf) : (s.setBuf r v).imem = s.imem := rfl
@[simp] theorem setBuf_dmem (r : BufReg) (v : Buf) : (s.setBuf r v).dmem = s.dmem := rfl
@[simp] theorem setBuf_agenda (r : BufReg) (v : Buf) : (s.setBuf r v).agenda = s.agenda := rfl
@[simp] theorem setBuf_hostData (r : BufReg) (v : Buf) : (s.setBuf r v).hostData = s.hostData := rfl
@[simp] theorem setBuf_draws (r : BufReg) (v : Buf) : (s.setBuf r v).draws = s.draws := rfl
@[simp] theorem setBuf_cipherKey (r : BufReg) (v : Buf) : (s.setBuf r v).cipherKey = s.cipherKey := rfl

/-! ### `setScalar` -/

@[simp] theorem setScalar_bufs (r : ScalarReg) (v : Word) : (s.setScalar r v).bufs = s.bufs := rfl
@[simp] theorem setScalar_scalars (r : ScalarReg) (v : Word) : (s.setScalar r v).scalars = s.scalars.set r.val v := rfl
@[simp] theorem setScalar_sess (r : ScalarReg) (v : Word) : (s.setScalar r v).sess = s.sess := rfl
@[simp] theorem setScalar_pc (r : ScalarReg) (v : Word) : (s.setScalar r v).pc = s.pc := rfl
@[simp] theorem setScalar_ie (r : ScalarReg) (v : Word) : (s.setScalar r v).ie = s.ie := rfl
@[simp] theorem setScalar_busy (r : ScalarReg) (v : Word) : (s.setScalar r v).busy = s.busy := rfl
@[simp] theorem setScalar_done (r : ScalarReg) (v : Word) : (s.setScalar r v).done = s.done := rfl
@[simp] theorem setScalar_fault (r : ScalarReg) (v : Word) : (s.setScalar r v).fault = s.fault := rfl
@[simp] theorem setScalar_hostErr (r : ScalarReg) (v : Word) : (s.setScalar r v).hostErr = s.hostErr := rfl
@[simp] theorem setScalar_cause (r : ScalarReg) (v : Word) : (s.setScalar r v).cause = s.cause := rfl
@[simp] theorem setScalar_faultPc (r : ScalarReg) (v : Word) : (s.setScalar r v).faultPc = s.faultPc := rfl
@[simp] theorem setScalar_faultCmd (r : ScalarReg) (v : Word) : (s.setScalar r v).faultCmd = s.faultCmd := rfl
@[simp] theorem setScalar_imem (r : ScalarReg) (v : Word) : (s.setScalar r v).imem = s.imem := rfl
@[simp] theorem setScalar_dmem (r : ScalarReg) (v : Word) : (s.setScalar r v).dmem = s.dmem := rfl
@[simp] theorem setScalar_agenda (r : ScalarReg) (v : Word) : (s.setScalar r v).agenda = s.agenda := rfl
@[simp] theorem setScalar_hostData (r : ScalarReg) (v : Word) : (s.setScalar r v).hostData = s.hostData := rfl
@[simp] theorem setScalar_draws (r : ScalarReg) (v : Word) : (s.setScalar r v).draws = s.draws := rfl
@[simp] theorem setScalar_cipherKey (r : ScalarReg) (v : Word) : (s.setScalar r v).cipherKey = s.cipherKey := rfl

/-! ### `memWrite` -/

@[simp] theorem memWrite_bufs (a : Nat) (vs : List Word) : (s.memWrite a vs).bufs = s.bufs := rfl
@[simp] theorem memWrite_scalars (a : Nat) (vs : List Word) : (s.memWrite a vs).scalars = s.scalars := rfl
@[simp] theorem memWrite_sess (a : Nat) (vs : List Word) : (s.memWrite a vs).sess = s.sess := rfl
@[simp] theorem memWrite_pc (a : Nat) (vs : List Word) : (s.memWrite a vs).pc = s.pc := rfl
@[simp] theorem memWrite_ie (a : Nat) (vs : List Word) : (s.memWrite a vs).ie = s.ie := rfl
@[simp] theorem memWrite_busy (a : Nat) (vs : List Word) : (s.memWrite a vs).busy = s.busy := rfl
@[simp] theorem memWrite_done (a : Nat) (vs : List Word) : (s.memWrite a vs).done = s.done := rfl
@[simp] theorem memWrite_fault (a : Nat) (vs : List Word) : (s.memWrite a vs).fault = s.fault := rfl
@[simp] theorem memWrite_hostErr (a : Nat) (vs : List Word) : (s.memWrite a vs).hostErr = s.hostErr := rfl
@[simp] theorem memWrite_cause (a : Nat) (vs : List Word) : (s.memWrite a vs).cause = s.cause := rfl
@[simp] theorem memWrite_faultPc (a : Nat) (vs : List Word) : (s.memWrite a vs).faultPc = s.faultPc := rfl
@[simp] theorem memWrite_faultCmd (a : Nat) (vs : List Word) : (s.memWrite a vs).faultCmd = s.faultCmd := rfl
@[simp] theorem memWrite_imem (a : Nat) (vs : List Word) : (s.memWrite a vs).imem = s.imem := rfl
@[simp] theorem memWrite_dmem (a : Nat) (vs : List Word) : (s.memWrite a vs).dmem = s.dmem.setList a vs := rfl
@[simp] theorem memWrite_agenda (a : Nat) (vs : List Word) : (s.memWrite a vs).agenda = s.agenda := rfl
@[simp] theorem memWrite_hostData (a : Nat) (vs : List Word) : (s.memWrite a vs).hostData = s.hostData := rfl
@[simp] theorem memWrite_draws (a : Nat) (vs : List Word) : (s.memWrite a vs).draws = s.draws := rfl
@[simp] theorem memWrite_cipherKey (a : Nat) (vs : List Word) : (s.memWrite a vs).cipherKey = s.cipherKey := rfl

/-! ### `advance` -/

@[simp] theorem advance_bufs : (s.advance).bufs = s.bufs := rfl
@[simp] theorem advance_scalars : (s.advance).scalars = s.scalars := rfl
@[simp] theorem advance_sess : (s.advance).sess = s.sess := rfl
@[simp] theorem advance_pc : (s.advance).pc = s.pc + 1 := rfl
@[simp] theorem advance_ie : (s.advance).ie = s.ie := rfl
@[simp] theorem advance_busy : (s.advance).busy = s.busy := rfl
@[simp] theorem advance_done : (s.advance).done = s.done := rfl
@[simp] theorem advance_fault : (s.advance).fault = s.fault := rfl
@[simp] theorem advance_hostErr : (s.advance).hostErr = s.hostErr := rfl
@[simp] theorem advance_cause : (s.advance).cause = s.cause := rfl
@[simp] theorem advance_faultPc : (s.advance).faultPc = s.faultPc := rfl
@[simp] theorem advance_faultCmd : (s.advance).faultCmd = s.faultCmd := rfl
@[simp] theorem advance_imem : (s.advance).imem = s.imem := rfl
@[simp] theorem advance_dmem : (s.advance).dmem = s.dmem := rfl
@[simp] theorem advance_agenda : (s.advance).agenda = s.agenda := rfl
@[simp] theorem advance_hostData : (s.advance).hostData = s.hostData := rfl
@[simp] theorem advance_draws : (s.advance).draws = s.draws := rfl
@[simp] theorem advance_cipherKey : (s.advance).cipherKey = s.cipherKey := rfl

/-! ### `raise` -/

@[simp] theorem raise_bufs (c : Cause) : (s.raise c).bufs = s.bufs := rfl
@[simp] theorem raise_scalars (c : Cause) : (s.raise c).scalars = s.scalars := rfl
@[simp] theorem raise_sess (c : Cause) : (s.raise c).sess = s.sess := rfl
@[simp] theorem raise_pc (c : Cause) : (s.raise c).pc = s.pc := rfl
@[simp] theorem raise_ie (c : Cause) : (s.raise c).ie = s.ie := rfl
@[simp] theorem raise_busy (c : Cause) : (s.raise c).busy = false := rfl
@[simp] theorem raise_done (c : Cause) : (s.raise c).done = s.done := rfl
@[simp] theorem raise_fault (c : Cause) : (s.raise c).fault = true := rfl
@[simp] theorem raise_hostErr (c : Cause) : (s.raise c).hostErr = s.hostErr := rfl
@[simp] theorem raise_cause (c : Cause) : (s.raise c).cause = c.code := rfl
@[simp] theorem raise_faultPc (c : Cause) : (s.raise c).faultPc = s.pc := rfl
@[simp] theorem raise_faultCmd (c : Cause) : (s.raise c).faultCmd = s.fetchedWord := rfl
@[simp] theorem raise_imem (c : Cause) : (s.raise c).imem = s.imem := rfl
@[simp] theorem raise_dmem (c : Cause) : (s.raise c).dmem = s.dmem := rfl
@[simp] theorem raise_agenda (c : Cause) : (s.raise c).agenda = s.agenda := rfl
@[simp] theorem raise_hostData (c : Cause) : (s.raise c).hostData = s.hostData := rfl
@[simp] theorem raise_draws (c : Cause) : (s.raise c).draws = s.draws := rfl
@[simp] theorem raise_cipherKey (c : Cause) : (s.raise c).cipherKey = s.cipherKey := rfl

/-! ### `processBlocks` -/

@[simp] theorem processBlocks_bufs (ciph : Block → Block) (a n : Nat) : (processBlocks ciph a n s).bufs = s.bufs := rfl
@[simp] theorem processBlocks_scalars (ciph : Block → Block) (a n : Nat) : (processBlocks ciph a n s).scalars = s.scalars := rfl
@[simp] theorem processBlocks_sess (ciph : Block → Block) (a n : Nat) : (processBlocks ciph a n s).sess = (blockLoop ciph n a s.sess s.dmem).1 := rfl
@[simp] theorem processBlocks_pc (ciph : Block → Block) (a n : Nat) : (processBlocks ciph a n s).pc = s.pc := rfl
@[simp] theorem processBlocks_ie (ciph : Block → Block) (a n : Nat) : (processBlocks ciph a n s).ie = s.ie := rfl
@[simp] theorem processBlocks_busy (ciph : Block → Block) (a n : Nat) : (processBlocks ciph a n s).busy = s.busy := rfl
@[simp] theorem processBlocks_done (ciph : Block → Block) (a n : Nat) : (processBlocks ciph a n s).done = s.done := rfl
@[simp] theorem processBlocks_fault (ciph : Block → Block) (a n : Nat) : (processBlocks ciph a n s).fault = s.fault := rfl
@[simp] theorem processBlocks_hostErr (ciph : Block → Block) (a n : Nat) : (processBlocks ciph a n s).hostErr = s.hostErr := rfl
@[simp] theorem processBlocks_cause (ciph : Block → Block) (a n : Nat) : (processBlocks ciph a n s).cause = s.cause := rfl
@[simp] theorem processBlocks_faultPc (ciph : Block → Block) (a n : Nat) : (processBlocks ciph a n s).faultPc = s.faultPc := rfl
@[simp] theorem processBlocks_faultCmd (ciph : Block → Block) (a n : Nat) : (processBlocks ciph a n s).faultCmd = s.faultCmd := rfl
@[simp] theorem processBlocks_imem (ciph : Block → Block) (a n : Nat) : (processBlocks ciph a n s).imem = s.imem := rfl
@[simp] theorem processBlocks_dmem (ciph : Block → Block) (a n : Nat) : (processBlocks ciph a n s).dmem = (blockLoop ciph n a s.sess s.dmem).2 := rfl
@[simp] theorem processBlocks_agenda (ciph : Block → Block) (a n : Nat) : (processBlocks ciph a n s).agenda = s.agenda := rfl
@[simp] theorem processBlocks_hostData (ciph : Block → Block) (a n : Nat) : (processBlocks ciph a n s).hostData = s.hostData := rfl
@[simp] theorem processBlocks_draws (ciph : Block → Block) (a n : Nat) : (processBlocks ciph a n s).draws = s.draws := rfl
@[simp] theorem processBlocks_cipherKey (ciph : Block → Block) (a n : Nat) : (processBlocks ciph a n s).cipherKey = s.cipherKey := rfl

/-! ### `applyReset` -/

@[simp] theorem applyReset_bufs : (applyReset s).bufs = State.reset.bufs := rfl
@[simp] theorem applyReset_scalars : (applyReset s).scalars = State.reset.scalars := rfl
@[simp] theorem applyReset_sess : (applyReset s).sess = State.reset.sess := rfl
@[simp] theorem applyReset_pc : (applyReset s).pc = State.reset.pc := rfl
@[simp] theorem applyReset_ie : (applyReset s).ie = State.reset.ie := rfl
@[simp] theorem applyReset_busy : (applyReset s).busy = State.reset.busy := rfl
@[simp] theorem applyReset_done : (applyReset s).done = State.reset.done := rfl
@[simp] theorem applyReset_fault : (applyReset s).fault = State.reset.fault := rfl
@[simp] theorem applyReset_hostErr : (applyReset s).hostErr = State.reset.hostErr := rfl
@[simp] theorem applyReset_cause : (applyReset s).cause = State.reset.cause := rfl
@[simp] theorem applyReset_faultPc : (applyReset s).faultPc = State.reset.faultPc := rfl
@[simp] theorem applyReset_faultCmd : (applyReset s).faultCmd = State.reset.faultCmd := rfl
@[simp] theorem applyReset_imem : (applyReset s).imem = s.imem := rfl
@[simp] theorem applyReset_dmem : (applyReset s).dmem = s.dmem := rfl
@[simp] theorem applyReset_agenda : (applyReset s).agenda = s.agenda := rfl
@[simp] theorem applyReset_hostData : (applyReset s).hostData = s.hostData := rfl
@[simp] theorem applyReset_draws : (applyReset s).draws = s.draws := rfl
@[simp] theorem applyReset_cipherKey : (applyReset s).cipherKey = s.cipherKey := rfl

/-! ### Reads through updates of other fields -/

@[simp] theorem scalar_setBuf (r : BufReg) (v : Buf) (q : ScalarReg) : (s.setBuf r v).scalar q = s.scalar q := rfl
@[simp] theorem dmemWord_setBuf (r : BufReg) (v : Buf) (x : Nat) : (s.setBuf r v).dmemWord x = s.dmemWord x := rfl
@[simp] theorem imemWord_setBuf (r : BufReg) (v : Buf) (x : Nat) : (s.setBuf r v).imemWord x = s.imemWord x := rfl
@[simp] theorem buf_setScalar (r : ScalarReg) (v : Word) (q : BufReg) : (s.setScalar r v).buf q = s.buf q := rfl
@[simp] theorem dmemWord_setScalar (r : ScalarReg) (v : Word) (x : Nat) : (s.setScalar r v).dmemWord x = s.dmemWord x := rfl
@[simp] theorem imemWord_setScalar (r : ScalarReg) (v : Word) (x : Nat) : (s.setScalar r v).imemWord x = s.imemWord x := rfl
@[simp] theorem buf_memWrite (a : Nat) (vs : List Word) (q : BufReg) : (s.memWrite a vs).buf q = s.buf q := rfl
@[simp] theorem scalar_memWrite (a : Nat) (vs : List Word) (q : ScalarReg) : (s.memWrite a vs).scalar q = s.scalar q := rfl
@[simp] theorem imemWord_memWrite (a : Nat) (vs : List Word) (x : Nat) : (s.memWrite a vs).imemWord x = s.imemWord x := rfl
@[simp] theorem buf_advance (q : BufReg) : (s.advance).buf q = s.buf q := rfl
@[simp] theorem scalar_advance (q : ScalarReg) : (s.advance).scalar q = s.scalar q := rfl
@[simp] theorem dmemWord_advance (x : Nat) : (s.advance).dmemWord x = s.dmemWord x := rfl
@[simp] theorem imemWord_advance (x : Nat) : (s.advance).imemWord x = s.imemWord x := rfl
@[simp] theorem buf_raise (c : Cause) (q : BufReg) : (s.raise c).buf q = s.buf q := rfl
@[simp] theorem scalar_raise (c : Cause) (q : ScalarReg) : (s.raise c).scalar q = s.scalar q := rfl
@[simp] theorem dmemWord_raise (c : Cause) (x : Nat) : (s.raise c).dmemWord x = s.dmemWord x := rfl
@[simp] theorem imemWord_raise (c : Cause) (x : Nat) : (s.raise c).imemWord x = s.imemWord x := rfl
@[simp] theorem buf_processBlocks (ciph : Block → Block) (a n : Nat) (q : BufReg) : (processBlocks ciph a n s).buf q = s.buf q := rfl
@[simp] theorem scalar_processBlocks (ciph : Block → Block) (a n : Nat) (q : ScalarReg) : (processBlocks ciph a n s).scalar q = s.scalar q := rfl
@[simp] theorem imemWord_processBlocks (ciph : Block → Block) (a n : Nat) (x : Nat) : (processBlocks ciph a n s).imemWord x = s.imemWord x := rfl

/-! ### The state after reset -/

@[simp] theorem buf_reset (r : BufReg) : State.reset.buf r = Buf.invalid := by
  simp [State.buf, State.reset]

@[simp] theorem scalar_reset (r : ScalarReg) : State.reset.scalar r = 0 := by
  simp [State.scalar, State.reset]

end Sys2Proof.Machine
end

