-- ==== Sys2Proof/Laws/Ops.lean ====
section
/-! SUPPORT. One lemma per shared operation that says once everything it can do, the memory laws (read after write, and that
every operation keeps the canonical form), and the register laws. -/

namespace Sys2Proof.Machine

/-! ### The shapes of a meaning -/

@[simp] theorem complete_eq (s : State) : complete s = .next s.advance := rfl

@[simp] theorem trap_eq (s : State) (c : Cause) : trap s c = .next (s.raise c) := rfl

/-- A checked condition: it goes on where the condition holds, and takes the fault entry where it does not. -/
theorem require_next {p : Prop} [Decidable p] {c : Cause} {s : State} {k : Result} {t : State} :
    require p c s k = .next t ↔ (p ∧ k = .next t) ∨ (¬p ∧ t = s.raise c) := by
  by_cases hp : p <;> simp [require, hp, eq_comm]

theorem require_pos {p : Prop} [Decidable p] (hp : p) (c : Cause) (s : State) (k : Result) : require p c s k = k := by
  simp [require, hp]

theorem require_neg {p : Prop} [Decidable p] (hp : ¬p) (c : Cause) (s : State) (k : Result) :
    require p c s k = .next (s.raise c) := by
  simp [require, hp]

/-- A checked read: it goes on with a written register's value, and takes the fault entry for an unwritten one. -/
theorem withBuffer_next {s : State} {r : BufReg} {k : Buf → Result} {t : State} :
    withBuffer s r k = .next t ↔
      ((s.buf r).valid = true ∧ k (s.buf r) = .next t) ∨ ((s.buf r).valid = false ∧ t = s.raise .unwrittenBuffer) := by
  cases h : (s.buf r).valid <;> simp [withBuffer, h, eq_comm]

theorem withBuffer_pos {s : State} {r : BufReg} (h : (s.buf r).valid = true) (k : Buf → Result) :
    withBuffer s r k = k (s.buf r) := by
  simp [withBuffer, h]

theorem withBuffer_neg {s : State} {r : BufReg} (h : (s.buf r).valid = false) (k : Buf → Result) :
    withBuffer s r k = .next (s.raise .unwrittenBuffer) := by
  simp [withBuffer, h]

/-! ### Registers -/

theorem buf_setBuf (s : State) (r : BufReg) (v : Buf) (q : BufReg) :
    (s.setBuf r v).buf q = if r = q then v else s.buf q := by
  simp only [State.buf, State.setBuf, Vector.getElem_set, Fin.ext_iff]

@[simp] theorem buf_setBuf_self (s : State) (r : BufReg) (v : Buf) : (s.setBuf r v).buf r = v := by
  simp [buf_setBuf]

theorem buf_setBuf_ne (s : State) {r q : BufReg} (h : r ≠ q) (v : Buf) : (s.setBuf r v).buf q = s.buf q := by
  simp [buf_setBuf, h]

theorem scalar_setScalar (s : State) (r : ScalarReg) (v : Word) (q : ScalarReg) :
    (s.setScalar r v).scalar q = if r = q then v else s.scalar q := by
  simp only [State.scalar, State.setScalar, Vector.getElem_set, Fin.ext_iff]

@[simp] theorem scalar_setScalar_self (s : State) (r : ScalarReg) (v : Word) : (s.setScalar r v).scalar r = v := by
  simp [scalar_setScalar]

theorem scalar_setScalar_ne (s : State) {r q : ScalarReg} (h : r ≠ q) (v : Word) :
    (s.setScalar r v).scalar q = s.scalar q := by
  simp [scalar_setScalar, h]

/-! ### Memory: read after write -/

theorem get_set (m : Memory) (a : Nat) (v : Word) (b : Nat) :
    Memory.get (Memory.set m a v) b = if b = a then some v else Memory.get m b := by
  induction m with
  | nil => simp [Memory.set, Memory.get]
  | cons c r ih =>
    obtain ⟨x, w⟩ := c
    by_cases h1 : a < x
    · simp [Memory.set, Memory.get, h1]
    · by_cases h2 : a = x
      · subst h2
        by_cases h3 : b = a <;> simp [Memory.set, Memory.get, h3]
      · by_cases h3 : b = x
        · subst h3
          simp [Memory.set, Memory.get, h1, h2, Ne.symm h2]
        · simp [Memory.set, Memory.get, h1, h2, h3, ih]

@[simp] theorem get_set_self (m : Memory) (a : Nat) (v : Word) : Memory.get (Memory.set m a v) a = some v := by
  simp [get_set]

theorem get_setList (vs : List Word) (m : Memory) (a b : Nat) :
    Memory.get (m.setList a vs) b = if a ≤ b ∧ b < a + vs.length then vs[b - a]? else Memory.get m b := by
  induction vs generalizing m a with
  | nil => simp [Memory.setList]
  | cons v rest ih =>
    rw [Memory.setList, ih]
    by_cases h1 : a + 1 ≤ b ∧ b < a + 1 + rest.length
    · have h2 : a ≤ b ∧ b < a + (v :: rest).length := by simp; omega
      rw [if_pos h1, if_pos h2, show b - a = (b - (a + 1)) + 1 by omega, List.getElem?_cons_succ]
    · rw [if_neg h1, get_set]
      by_cases h3 : b = a
      · subst h3; simp
      · have h2 : ¬(a ≤ b ∧ b < a + (v :: rest).length) := by simp; omega
        rw [if_neg h3, if_neg h2]

/-- Reading a written range gives the words written; every other address reads as before. -/
theorem dmemAt_setList (vs : List Word) (m : Memory) (a b : Nat) :
    (m.setList a vs).dmemAt b = if a ≤ b ∧ b < a + vs.length then vs.getD (b - a) 0 else m.dmemAt b := by
  unfold Memory.dmemAt
  rw [get_setList]
  by_cases h : a ≤ b ∧ b < a + vs.length
  · have hb : b - a < vs.length := by omega
    simp [h, List.getElem?_eq_getElem hb]
  · simp [h]

theorem dmemAt_setList_outside {vs : List Word} {m : Memory} {a b : Nat} (h : b < a ∨ a + vs.length ≤ b) :
    (m.setList a vs).dmemAt b = m.dmemAt b := by
  rw [dmemAt_setList, if_neg (by omega)]

theorem dmemWord_memWrite (s : State) (a : Nat) (vs : List Word) (b : Nat) :
    (s.memWrite a vs).dmemWord b = if a ≤ b ∧ b < a + vs.length then vs.getD (b - a) 0 else s.dmemWord b :=
  dmemAt_setList vs s.dmem a b

@[simp] theorem length_memRead (s : State) (a n : Nat) : (s.memRead a n).length = n := by
  simp [State.memRead]

@[simp] theorem getElem_memRead (s : State) (a n k : Nat) (h : k < (s.memRead a n).length) :
    (s.memRead a n)[k] = s.dmemWord (a + k) := by
  simp [State.memRead]

/-! ### Memory: the canonical form -/

theorem mem_set {m : Memory} {a : Nat} {v : Word} {c : Nat × Word} (h : c ∈ Memory.set m a v) : c = (a, v) ∨ c ∈ m := by
  induction m with
  | nil => simpa [Memory.set] using h
  | cons d r ih =>
    obtain ⟨x, w⟩ := d
    rw [Memory.set] at h
    split at h
    · simpa using h
    · split at h
      · rcases List.mem_cons.mp h with h | h
        · exact .inl h
        · exact .inr (List.mem_cons_of_mem _ h)
      · rcases List.mem_cons.mp h with h | h
        · exact .inr (h ▸ List.mem_cons_self)
        · exact (ih h).imp id (List.mem_cons_of_mem _)

/-- Writing an existing address keeps the canonical form. -/
theorem wf_set {size : Nat} {m : Memory} {a : Nat} (hm : Memory.wf size m) (ha : a < size) (v : Word) :
    Memory.wf size (Memory.set m a v) := by
  obtain ⟨hp, hb⟩ := hm
  refine ⟨?_, fun c hc => (mem_set hc).elim (fun h => h ▸ ha) (hb c)⟩
  clear hb
  induction m with
  | nil => simp [Memory.set]
  | cons d r ih =>
    obtain ⟨x, w⟩ := d
    rw [List.pairwise_cons] at hp
    rw [Memory.set]
    split
    · next h =>
      rw [List.pairwise_cons, List.pairwise_cons]
      refine ⟨fun c hc => ?_, hp⟩
      rcases List.mem_cons.mp hc with rfl | hc
      · exact h
      · exact Nat.lt_trans h (hp.1 c hc)
    · split
      · next h =>
        rw [List.pairwise_cons]
        exact ⟨fun c hc => h ▸ hp.1 c hc, hp.2⟩
      · rw [List.pairwise_cons]
        refine ⟨fun c hc => ?_, ih hp.2⟩
        rcases mem_set hc with rfl | hc
        · show x < a
          omega
        · exact hp.1 c hc

theorem wf_setList {size : Nat} {vs : List Word} {m : Memory} {a : Nat} (hm : Memory.wf size m)
    (ha : vs = [] ∨ a + vs.length ≤ size) : Memory.wf size (m.setList a vs) := by
  induction vs generalizing m a with
  | nil => exact hm
  | cons v rest ih =>
    have h : a + (rest.length + 1) ≤ size := by simpa using ha
    exact ih (wf_set hm (by omega) v) (.inr (by omega))

theorem wf_nil (size : Nat) : Memory.wf size [] := ⟨List.Pairwise.nil, by simp⟩

/-- Both memories have the canonical form after reset. -/
theorem reset_memories_wf :
    Memory.wf Config.imemWords State.reset.imem ∧ Memory.wf Config.dmemWords State.reset.dmem :=
  ⟨wf_nil _, wf_nil _⟩

/-! ### Fetch and ranges -/

theorem fetch_of_lt {s : State} (h : s.pc.toNat < Config.imemWords) : s.fetch = .ok (s.imemWord s.pc.toNat) := by
  simp [State.fetch, h]

theorem fetch_of_ge {s : State} (h : Config.imemWords ≤ s.pc.toNat) : s.fetch = .error .fetchRange := by
  simp [State.fetch, Nat.not_lt.mpr h]

theorem fetchedWord_of_lt {s : State} (h : s.pc.toNat < Config.imemWords) :
    s.fetchedWord = s.imemWord s.pc.toNat := by
  simp [State.fetchedWord, fetch_of_lt h]

theorem fetchedWord_of_ge {s : State} (h : Config.imemWords ≤ s.pc.toNat) : s.fetchedWord = 0 := by
  simp [State.fetchedWord, fetch_of_ge h]

theorem spanFits_iff {a n : Nat} : spanFits a n = true ↔ n = 0 ∨ a + n ≤ Config.dmemWords := by
  simp [spanFits]

end Sys2Proof.Machine
end

