-- ==== Sys2Proof/Laws/Buffers.lean ====
section
/-! SUPPORT. What the buffer helpers compute: lengths, the bytes of `mkBuf` and of `clampv`, and that a clamped buffer is
the buffer of its significant bytes. -/

namespace Sys2Proof.Machine

/-! ### Bytes of words -/

/-- The bits of a word built from four bytes. -/
theorem getLsbD_fourBytes (a b c d : Byte) (i : Nat) :
    (a ++ b ++ c ++ d : Word).getLsbD i =
      if i < 8 then d.getLsbD i else if i < 16 then c.getLsbD (i - 8)
      else if i < 24 then b.getLsbD (i - 16) else a.getLsbD (i - 24) := by
  show BitVec.getLsbD (w := 8 + 8 + 8 + 8) (a ++ b ++ c ++ d) i = _
  simp only [BitVec.getLsbD_append]
  by_cases h1 : i < 8
  · simp [h1]
  by_cases h2 : i < 16
  · simp [h1, h2, show i - 8 < 8 by omega]
  have e2 : i - 8 - 8 = i - 16 := by omega
  by_cases h3 : i < 24
  · simp [h1, h2, h3, e2, show ¬i - 8 < 8 by omega, show i - 16 < 8 by omega]
  · simp [h1, h2, h3, e2, show ¬i - 8 < 8 by omega, show ¬i - 16 < 8 by omega, show i - 16 - 8 = i - 24 by omega]

theorem byte0_append (a b c d : Byte) : (a ++ b ++ c ++ d : Word).extractLsb' 24 8 = a := by
  ext i hi
  simp [BitVec.getElem_extractLsb', getLsbD_fourBytes, BitVec.getLsbD_eq_getElem hi, show ¬24 + i < 8 by omega,
    show ¬24 + i < 16 by omega]

theorem byte1_append (a b c d : Byte) : (a ++ b ++ c ++ d : Word).extractLsb' 16 8 = b := by
  ext i hi
  simp [BitVec.getElem_extractLsb', getLsbD_fourBytes, BitVec.getLsbD_eq_getElem hi, show ¬16 + i < 8 by omega,
    show 16 + i < 24 by omega]

theorem byte2_append (a b c d : Byte) : (a ++ b ++ c ++ d : Word).extractLsb' 8 8 = c := by
  ext i hi
  simp [BitVec.getElem_extractLsb', getLsbD_fourBytes, BitVec.getLsbD_eq_getElem hi, show 8 + i < 16 by omega]

theorem byte3_append (a b c d : Byte) : (a ++ b ++ c ++ d : Word).extractLsb' 0 8 = d := by
  ext i hi
  simp [BitVec.getElem_extractLsb', getLsbD_fourBytes, hi]

/-- Two words with the same four bytes are the same word. -/
theorem word_ext_bytes {x y : Word}
    (h : ∀ i < 4, x.extractLsb' (24 - 8 * i) 8 = y.extractLsb' (24 - 8 * i) 8) : x = y := by
  apply BitVec.eq_of_getLsbD_eq
  intro j hj
  have h1 := congrArg (fun b => BitVec.getLsbD b (j % 8)) (h (3 - j / 8) (by omega))
  have h2 : 24 - 8 * (3 - j / 8) + j % 8 = j := by omega
  simpa [BitVec.getLsbD_extractLsb', h2, Nat.mod_lt] using h1

theorem byteOfWords_of_ge {w : List Word} {k : Nat} (h : 4 * w.length ≤ k) : byteOfWords w k = 0 := by
  have : w.length ≤ k / 4 := by omega
  simp [byteOfWords, List.getD, List.getElem?_eq_none this]

/-- Two word lists of one length with the same bytes are the same list. -/
theorem words_ext_bytes {v w : List Word} (hl : v.length = w.length)
    (h : ∀ k < 4 * w.length, byteOfWords v k = byteOfWords w k) : v = w := by
  apply List.ext_getElem hl
  intro j h1 h2
  apply word_ext_bytes
  intro i hi
  have := h (4 * j + i) (by omega)
  simpa [byteOfWords, show (4 * j + i) / 4 = j by omega, show (4 * j + i) % 4 = i by omega, List.getD,
    List.getElem?_eq_getElem h1, List.getElem?_eq_getElem h2] using this

/-! ### `mkBuf` -/

@[simp] theorem mkBuf_valid (l : List Byte) : (mkBuf l).valid = true := rfl

@[simp] theorem mkBuf_sig (l : List Byte) : (mkBuf l).sig = l.length := rfl

@[simp] theorem mkBuf_len (l : List Byte) : (mkBuf l).w.length = ceil4 l.length := by simp [mkBuf]

theorem byteOfWords_pack (l : List Byte) (k : Nat) :
    byteOfWords ((List.range (ceil4 l.length)).map (packWord l)) k = l.getD k 0 := by
  by_cases hk : k / 4 < ceil4 l.length
  · have hw : ((List.range (ceil4 l.length)).map (packWord l)).getD (k / 4) 0 = packWord l (k / 4) := by
      simp [List.getD, hk]
    rw [byteOfWords, hw, packWord]
    have hm : k % 4 = 0 ∨ k % 4 = 1 ∨ k % 4 = 2 ∨ k % 4 = 3 := by omega
    rcases hm with h | h | h | h <;> rw [h]
    · rw [byte0_append, show 4 * (k / 4) = k by omega]
    · rw [byte1_append, show 4 * (k / 4) + 1 = k by omega]
    · rw [byte2_append, show 4 * (k / 4) + 2 = k by omega]
    · rw [byte3_append, show 4 * (k / 4) + 3 = k by omega]
  · have h1 : l.length ≤ k := by unfold ceil4 at hk; omega
    rw [byteOfWords_of_ge (by simp; omega)]
    simp [List.getD, List.getElem?_eq_none h1]

/-- Byte `k` of `mk(L)` is `L[k]`, and 0 past the end (R12). -/
@[simp] theorem mkBuf_byteAt (l : List Byte) (k : Nat) : (mkBuf l).byteAt k = l.getD k 0 := byteOfWords_pack l k

@[simp] theorem length_sigBytes (b : Buf) : b.sigBytes.length = b.sig := by simp [Buf.sigBytes]

@[simp] theorem getElem_sigBytes (b : Buf) (k : Nat) (h : k < b.sigBytes.length) : b.sigBytes[k] = b.byteAt k := by
  simp [Buf.sigBytes]

@[simp] theorem mkBuf_sigBytes (l : List Byte) : (mkBuf l).sigBytes = l := by
  apply List.ext_getElem (by simp)
  intro k h1 h2
  simp [List.getD, List.getElem?_eq_getElem h2]

/-! ### `clampv` -/

@[simp] theorem clampv_valid (b : Buf) : b.clampv.valid = b.valid := rfl

@[simp] theorem clampv_sig (b : Buf) : b.clampv.sig = b.sig := rfl

@[simp] theorem clampv_len (b : Buf) : b.clampv.w.length = ceil4 b.sig := by simp [Buf.clampv]

theorem getLsbD_tailMask (sig j : Nat) :
    (tailMask sig).getLsbD j = decide (j < 32 ∧ 32 - 8 * (sig % 4) ≤ j) := by
  have hones : 0xFFFFFFFF#32 = BitVec.allOnes 32 := by decide
  simp only [tailMask, hones, BitVec.getLsbD_shiftLeft, BitVec.getLsbD_allOnes]
  by_cases h : j < 32 <;> by_cases h2 : j < 32 - 8 * (sig % 4) <;> simp [h, h2] <;> omega

/-- The mask keeps the first `sig mod 4` bytes of a word (R13). -/
theorem byte_tailMask (x : Word) (sig : Nat) {i : Nat} (hi : i < 4) :
    (x &&& tailMask sig).extractLsb' (24 - 8 * i) 8 = if i < sig % 4 then x.extractLsb' (24 - 8 * i) 8 else 0 := by
  apply BitVec.eq_of_getLsbD_eq
  intro j hj
  have hm : 32 - 8 * (sig % 4) ≤ 24 - 8 * i + j ↔ i < sig % 4 := by omega
  by_cases h : i < sig % 4 <;> simp [h, hm, getLsbD_tailMask, hj]
  omega

/-- Clamping keeps the significant bytes and zeroes every byte after them (R13). -/
@[simp] theorem clampv_byteAt (b : Buf) (k : Nat) : b.clampv.byteAt k = if k < b.sig then b.byteAt k else 0 := by
  by_cases hk : k / 4 < ceil4 b.sig
  · have hw : ((List.range (ceil4 b.sig)).map (clampWord b.w b.sig)).getD (k / 4) 0 = clampWord b.w b.sig (k / 4) := by
      simp [List.getD, hk]
    show byteOfWords b.clampv.w k = _
    rw [byteOfWords, Buf.clampv, hw, clampWord]
    split
    · next h =>
      have h2 := h.2
      rw [byte_tailMask _ _ (Nat.mod_lt _ (by decide))]
      unfold ceil4 at h2
      have : k % 4 < b.sig % 4 ↔ k < b.sig := by omega
      simp only [this]
      rfl
    · next h =>
      have : k < b.sig := by unfold ceil4 at *; omega
      rw [if_pos this]
      rfl
  · have h1 : ¬k < b.sig := by unfold ceil4 at hk; omega
    rw [if_neg h1]
    exact byteOfWords_of_ge (by simp; omega)

/-- The clamp of a valid buffer is the buffer of its significant bytes (R12, R13). -/
theorem clampv_eq_mkBuf (b : Buf) (h : b.valid = true) : b.clampv = mkBuf b.sigBytes := by
  have hw : b.clampv.w = (mkBuf b.sigBytes).w := by
    apply words_ext_bytes (by simp)
    intro k _
    show b.clampv.byteAt k = (mkBuf b.sigBytes).byteAt k
    rw [clampv_byteAt, mkBuf_byteAt]
    by_cases hk : k < b.sig
    · rw [if_pos hk, List.getD, List.getElem?_eq_getElem (by simpa using hk)]
      simp
    · rw [if_neg hk, List.getD, List.getElem?_eq_none (by simpa using hk)]
      rfl
  have : b.clampv = ⟨true, b.clampv.w, b.sig⟩ := by rw [← h]; rfl
  rw [this, hw]
  simp [mkBuf]

/-- The clamp of a clamped-shape buffer with no stale bytes is itself: `mk` always yields a clamped buffer (R12). -/
theorem clampv_mkBuf (l : List Byte) : (mkBuf l).clampv = mkBuf l := by
  rw [clampv_eq_mkBuf _ rfl, mkBuf_sigBytes]

/-! ### Shifts -/

@[simp] theorem length_shlWords (n : Nat) (w : List Word) : (shlWords n w).length = w.length := by
  induction w with
  | nil => rfl
  | cons x xs ih => simp [shlWords, ih]

@[simp] theorem length_doubleWords (w : List Word) (h : w.length = 4) : (doubleWords w).length = 4 := by
  unfold doubleWords
  split <;> simp [h, Config.rbWords]

@[simp] theorem length_splitBlock (v : Block) : (splitBlock v).length = 4 := rfl

end Sys2Proof.Machine
end

