-- ==== Sys2Proof/Laws/Frames.lean ====
section
/-! SUPPORT. The frames of the shapes a completing command ends in, and what one turn of the sequencer is in each case. -/

namespace Sys2Proof.Machine

/-! ### Frames -/

theorem SameHostSide.refl (s : State) : SameHostSide s s := by constructor <;> rfl

/-- A command that only advances PC changes nothing else. -/
theorem completedBut_advance (s : State) : CompletedBut s s.advance [] [] 0 0 := by
  constructor <;> first | simp | constructor <;> rfl

theorem completedBut_setBuf (s : State) (r : BufReg) (v : Buf) : CompletedBut s (s.setBuf r v).advance [r] [] 0 0 where
  pc := rfl
  bufs q hq := buf_setBuf_ne s (fun h => hq (by simp [h])) v
  scalars _ _ := rfl
  dmem _ _ := rfl
  busy := rfl
  done := rfl
  host := by constructor <;> rfl

theorem completedBut_setScalar (s : State) (q : ScalarReg) (v : Word) :
    CompletedBut s (s.setScalar q v).advance [] [q] 0 0 where
  pc := rfl
  bufs _ _ := rfl
  scalars p hp := scalar_setScalar_ne s (fun h => hp (by simp [h])) v
  dmem _ _ := rfl
  busy := rfl
  done := rfl
  host := by constructor <;> rfl

theorem completedBut_setBuf_setScalar (s : State) (r : BufReg) (v : Buf) (q : ScalarReg) (w : Word) :
    CompletedBut s ((s.setBuf r v).setScalar q w).advance [r] [q] 0 0 where
  pc := rfl
  bufs p hp := buf_setBuf_ne s (fun h => hp (by simp [h])) v
  scalars p hp := scalar_setScalar_ne (s.setBuf r v) (fun h => hp (by simp [h])) w
  dmem _ _ := rfl
  busy := rfl
  done := rfl
  host := by constructor <;> rfl

/-- Two buffer registers written, named in either order. -/
theorem completedBut_setBuf_setBuf (s : State) {r p : BufReg} (v w : Buf) {bs : List BufReg} (hr : r ∈ bs) (hp : p ∈ bs) :
    CompletedBut s ((s.setBuf r v).setBuf p w).advance bs [] 0 0 where
  pc := rfl
  bufs q hq := by
    show ((s.setBuf r v).setBuf p w).buf q = s.buf q
    rw [buf_setBuf_ne _ (fun h : p = q => hq (h ▸ hp)), buf_setBuf_ne _ (fun h : r = q => hq (h ▸ hr))]
  scalars _ _ := rfl
  dmem _ _ := rfl
  busy := rfl
  done := rfl
  host := by constructor <;> rfl

theorem completedBut_memWrite (s : State) (a : Nat) (vs : List Word) :
    CompletedBut s (s.memWrite a vs).advance [] [] a vs.length where
  pc := rfl
  bufs _ _ := rfl
  scalars _ _ := rfl
  dmem b hb := by
    show (s.memWrite a vs).dmemWord b = s.dmemWord b
    rw [dmemWord_memWrite, if_neg (by omega)]
  busy := rfl
  done := rfl
  host := by constructor <;> rfl

theorem completedBut_session (s : State) (ss : Session) : CompletedBut s (State.advance { s with sess := ss }) [] [] 0 0 where
  pc := rfl
  bufs _ _ := rfl
  scalars _ _ := rfl
  dmem _ _ := rfl
  busy := rfl
  done := rfl
  host := by constructor <;> rfl

/-- The three writes of EQ: two buffers clamped, one scalar. -/
theorem completedBut_setBuf_setBuf_setScalar (s : State) (r p : BufReg) (v w : Buf) (q : ScalarReg) (x : Word) :
    CompletedBut s (((s.setBuf r v).setBuf p w).setScalar q x).advance [r, p] [q] 0 0 where
  pc := rfl
  bufs := (completedBut_setBuf_setBuf s v w (r := r) (p := p) (by simp) (by simp)).bufs
  scalars o ho := scalar_setScalar_ne ((s.setBuf r v).setBuf p w) (fun h => ho (by simp [h])) x
  dmem _ _ := rfl
  busy := rfl
  done := rfl
  host := by constructor <;> rfl

/-- A frame may name more registers than were written. -/
theorem CompletedBut.mono {s t : State} {bs bs' : List BufReg} {qs qs' : List ScalarReg} {a n : Nat}
    (h : CompletedBut s t bs qs a n) (hb : ∀ r ∈ bs, r ∈ bs') (hq : ∀ q ∈ qs, q ∈ qs') : CompletedBut s t bs' qs' a n :=
  { h with
    bufs := fun r hr => h.bufs r (fun h' => hr (hb r h'))
    scalars := fun q hq' => h.scalars q (fun h' => hq' (hq q h')) }

/-! ### Clamped buffers -/

theorem holds_mkBuf (l : List Byte) : (mkBuf l).Holds l where
  valid := rfl
  sig := rfl
  len := by simp
  bytes k h := by simp [List.getD, List.getElem?_eq_getElem h]
  padding k h _ := by simp [List.getD, List.getElem?_eq_none h]

theorem holds_clampv {b : Buf} (h : b.valid = true) : b.clampv.Holds b.sigBytes := by
  rw [clampv_eq_mkBuf b h]
  exact holds_mkBuf _

/-- Only one buffer is clamped and has the bytes `l` as its significant ones. -/
theorem Buf.Holds.eq_mkBuf {b : Buf} {l : List Byte} (h : b.Holds l) : b = mkBuf l := by
  have hw : b.w = (mkBuf l).w := by
    refine words_ext_bytes (h.len.trans (mkBuf_len l).symm) fun k hk => ?_
    have hm : byteOfWords (mkBuf l).w k = l.getD k 0 := mkBuf_byteAt l k
    rw [hm]
    by_cases hl : k < l.length
    · rw [List.getD_eq_getElem _ _ hl]
      exact h.bytes k hl
    · rw [List.getD_eq_default _ _ (by omega)]
      exact h.padding k (by omega) (h.len.trans (mkBuf_len l).symm ▸ hk)
  have hb : b = ⟨b.valid, b.w, b.sig⟩ := rfl
  rw [hb, h.valid, h.sig, hw]
  rfl

/-! ### A turn of the sequencer -/

theorem sequencerTurn_idle {s : State} (h : s.busy = false) : sequencerTurn s = .next s := by
  simp [sequencerTurn, h]

theorem sequencerTurn_pastImem {s : State} (h : s.busy = true) (hp : Config.imemWords ≤ s.pc.toNat) :
    sequencerTurn s = .next (s.raise .fetchRange) := by
  simp [sequencerTurn, h, fetch_of_ge hp]

theorem sequencerTurn_illegal {s : State} {e : DecodeError} (h : s.busy = true) (hp : s.pc.toNat < Config.imemWords)
    (hd : decode (s.imemWord s.pc.toNat) = .error e) : sequencerTurn s = .next (s.raise .illegalCommand) := by
  simp [sequencerTurn, h, fetch_of_lt hp, hd]

theorem sequencerTurn_command {s : State} {i : Instr} (h : s.busy = true) (hp : s.pc.toNat < Config.imemWords)
    (hd : decode (s.imemWord s.pc.toNat) = .ok i) : sequencerTurn s = exec i s := by
  simp [sequencerTurn, h, fetch_of_lt hp, hd]

/-- Everything a running sequencer's turn can be: FETCH_RANGE, ILLEGAL_COMMAND, or the command at PC. -/
theorem sequencerTurn_cases {s : State} (h : s.busy = true) :
    (Config.imemWords ≤ s.pc.toNat ∧ sequencerTurn s = .next (s.raise .fetchRange)) ∨
    (s.pc.toNat < Config.imemWords ∧ (∃ e, decode (s.imemWord s.pc.toNat) = .error e) ∧
      sequencerTurn s = .next (s.raise .illegalCommand)) ∨
    (s.pc.toNat < Config.imemWords ∧ ∃ i, decode (s.imemWord s.pc.toNat) = .ok i ∧ sequencerTurn s = exec i s) := by
  by_cases hp : s.pc.toNat < Config.imemWords
  · cases hd : decode (s.imemWord s.pc.toNat) with
    | error e => exact .inr (.inl ⟨hp, ⟨e, rfl⟩, sequencerTurn_illegal h hp hd⟩)
    | ok i => exact .inr (.inr ⟨hp, i, rfl, sequencerTurn_command h hp hd⟩)
  · exact .inl ⟨Nat.not_lt.mp hp, sequencerTurn_pastImem h (Nat.not_lt.mp hp)⟩

@[simp] theorem step_of_no_agenda {s : State} (h : s.agenda = []) : step s = sequencerTurn s := by
  simp [step, h]

theorem step_of_sequencer {s : State} {rest : List Turn} (h : s.agenda = .sequencer :: rest) :
    step s = sequencerTurn { s with agenda := rest } := by
  simp [step, h]

@[simp] theorem turnTaken_of_no_agenda {s : State} (h : s.agenda = []) : s.turnTaken = s := by
  cases s
  simp_all [State.turnTaken]

@[simp] theorem turnTaken_agenda (s : State) : s.turnTaken.agenda = s.agenda.tail := rfl
@[simp] theorem turnTaken_bufs (s : State) : s.turnTaken.bufs = s.bufs := rfl
@[simp] theorem turnTaken_scalars (s : State) : s.turnTaken.scalars = s.scalars := rfl
@[simp] theorem turnTaken_sess (s : State) : s.turnTaken.sess = s.sess := rfl
@[simp] theorem turnTaken_pc (s : State) : s.turnTaken.pc = s.pc := rfl
@[simp] theorem turnTaken_busy (s : State) : s.turnTaken.busy = s.busy := rfl
@[simp] theorem turnTaken_done (s : State) : s.turnTaken.done = s.done := rfl
@[simp] theorem turnTaken_fault (s : State) : s.turnTaken.fault = s.fault := rfl
@[simp] theorem turnTaken_imem (s : State) : s.turnTaken.imem = s.imem := rfl
@[simp] theorem turnTaken_dmem (s : State) : s.turnTaken.dmem = s.dmem := rfl
@[simp] theorem turnTaken_cipherKey (s : State) : s.turnTaken.cipherKey = s.cipherKey := rfl
@[simp] theorem turnTaken_imemWord (s : State) (i : Nat) : s.turnTaken.imemWord i = s.imemWord i := rfl
@[simp] theorem turnTaken_fetch (s : State) : s.turnTaken.fetch = s.fetch := rfl

/-- A step on the sequencer's turn, whether the agenda is empty or names it. -/
theorem step_of_sequencerNext {s : State} (h : s.sequencerNext = true) : step s = sequencerTurn s.turnTaken := by
  match ha : s.agenda with
  | [] => rw [step_of_no_agenda ha, turnTaken_of_no_agenda ha]
  | .sequencer :: _ => simp [step, State.turnTaken, ha]
  | .host _ :: _ => simp [State.sequencerNext, ha] at h

/-- Whose turn it is: the sequencer's, or the environment's. -/
theorem turn_cases (s : State) : s.sequencerNext = true ∨ ∃ e rest, s.agenda = .host e :: rest ∧ s.sequencerNext = false := by
  match ha : s.agenda with
  | [] => simp [State.sequencerNext, ha]
  | .sequencer :: _ => simp [State.sequencerNext, ha]
  | .host _ :: _ => simp [State.sequencerNext, ha]

theorem step_of_host {s : State} {e : HostEvent} {rest : List Turn} (h : s.agenda = .host e :: rest) :
    step s = .next (hostTurn e { s with agenda := rest }) := by
  simp [step, h]

end Sys2Proof.Machine
end

