-- ==== Sys2Proof/Laws/Cfb.lean ====
section
/-! SUPPORT. The CFB operations: segments of a block, what one segment step leaves in each session register,
    and what the loops
over segments and blocks keep. -/

namespace Sys2Proof.Machine

/-! ### Segments -/

@[simp] theorem getLsbD_lowMask (s k : Nat) : (lowMask s).getLsbD k = decide (k < 128 ∧ k < s) := by
  rw [lowMask, BitVec.getLsbD_ofNat, Nat.testBit_two_pow_sub_one, Bool.decide_and]

/-- A segment lies in the low bits. -/
theorem toNat_lt_of_low {v : Block} {s : Nat} (h : ∀ k, s ≤ k → v.getLsbD k = false) : v.toNat < 2 ^ s := by
  apply Nat.lt_pow_two_of_testBit
  intro k hk
  rw [BitVec.testBit_toNat]
  exact h k hk

theorem getSegment_high {v : Block} {s j k : Nat} (h : s ≤ k) : (getSegment v s j).getLsbD k = false := by
  simp [getSegment]
  omega

/-! ### Blocks in memory, and segments put and read -/

theorem toNat_append_eq {m n : Nat} (x : BitVec m) (y : BitVec n) : (x ++ y).toNat = x.toNat * 2 ^ n + y.toNat := by
  rw [BitVec.toNat_append, ← Nat.shiftLeft_add_eq_or_of_lt y.isLt, Nat.shiftLeft_eq]

theorem toNat_joinBlock (a b c d : Word) :
    (joinBlock a b c d).toNat = a.toNat * 2 ^ 96 + b.toNat * 2 ^ 64 + c.toNat * 2 ^ 32 + d.toNat := by
  have h : (joinBlock a b c d).toNat = ((a.toNat * 2 ^ 32 + b.toNat) * 2 ^ 32 + c.toNat) * 2 ^ 32 + d.toNat := by
    show (a ++ b ++ c ++ d : BitVec (32 + 32 + 32 + 32)).toNat = _
    simp only [toNat_append_eq]
  rw [h]; ring

theorem toNat_splitBlock (v : Block) (k : Nat) (h : k < (splitBlock v).length) :
    ((splitBlock v)[k]).toNat = v.toNat / 2 ^ (96 - 32 * k) % 2 ^ 32 := by
  rw [length_splitBlock] at h
  interval_cases k <;> simp [splitBlock, BitVec.extractLsb'_toNat, Nat.shiftRight_eq_div_pow]

/-- The block stored as four words is read back. -/
theorem blockAt_setList_splitBlock (m : Memory) (a : Nat) (v : Block) :
    (m.setList a (splitBlock v)).blockAt a = v := by
  apply BitVec.eq_of_toNat_eq
  have h : ∀ k, k < 4 → ((m.setList a (splitBlock v)).dmemAt (a + k)).toNat = v.toNat / 2 ^ (96 - 32 * k) % 2 ^ 32 := by
    intro k hk
    rw [dmemAt_setList, if_pos (by simp; omega), Nat.add_sub_cancel_left]
    rw [← toNat_splitBlock v k hk, List.getD_eq_getElem _ _ hk]
  have hv := v.isLt
  rw [Memory.blockAt, toNat_joinBlock]
  have h0 := h 0 (by omega); have h1 := h 1 (by omega); have h2 := h 2 (by omega); have h3 := h 3 (by omega)
  simp only [Nat.add_zero] at h0
  rw [h0, h1, h2, h3]
  norm_num
  omega

/-- A block away from a store is unchanged. -/
theorem blockAt_setList_outside {m : Memory} {a b : Nat} {vs : List Word} (h : b + 4 ≤ a ∨ a + vs.length ≤ b) :
    (m.setList a vs).blockAt b = m.blockAt b := by
  simp only [Memory.blockAt]
  rw [dmemAt_setList_outside (by omega), dmemAt_setList_outside (by omega), dmemAt_setList_outside (by omega),
    dmemAt_setList_outside (by omega)]

theorem getLsbD_getSegment (v : Block) (s j k : Nat) :
    (getSegment v s j).getLsbD k = (decide (k < 128 ∧ k < s) && v.getLsbD (segShift s j + k)) := by
  simp [getSegment, Bool.and_comm]

theorem getLsbD_putSegment (v y : Block) (s j k : Nat) :
    (putSegment v s j y).getLsbD k =
      if segShift s j ≤ k ∧ k < segShift s j + s ∧ k < 128 then y.getLsbD (k - segShift s j) else v.getLsbD k := by
  by_cases hk : k < 128
  · simp only [putSegment, BitVec.getLsbD_or, BitVec.getLsbD_and, BitVec.getLsbD_not, BitVec.getLsbD_shiftLeft,
    getLsbD_lowMask,
      hk, decide_true, Bool.true_and]
    by_cases h1 : k < segShift s j
    · simp [h1, show ¬segShift s j ≤ k by omega]
    · by_cases h2 : k < segShift s j + s
      · simp [h1, h2, show segShift s j ≤ k by omega, show k - segShift s j < 128 by omega,
        show k - segShift s j < s by omega]
      · simp [h1, h2, show ¬k - segShift s j < s by omega]
  · rw [if_neg (by omega), BitVec.getLsbD_of_ge _ _ (by omega), BitVec.getLsbD_of_ge _ _ (by omega)]

/-- The segment put is the segment read back. -/
theorem getSegment_putSegment_self {v y : Block} {s j : Nat} (hs :
    (j + 1) * s ≤ 128) (hy : ∀ k, s ≤ k → y.getLsbD k = false) :
    getSegment (putSegment v s j y) s j = y := by
  apply BitVec.eq_of_getLsbD_eq
  intro k hk
  rw [getLsbD_getSegment, getLsbD_putSegment]
  by_cases h : k < s
  · have : segShift s j + k < 128 := by
      have : s ≤ (j + 1) * s := Nat.le_mul_of_pos_left s (by omega)
      unfold segShift; omega
    simp [h, hk, this]
  · simp [h, hy k (by omega)]

/-- Putting a segment leaves the other segments alone. -/
theorem getSegment_putSegment_ne {v y : Block} {s i j : Nat} (hi : (i + 1) * s ≤ 128) (hj : (j + 1) * s ≤ 128) (h : i ≠ j) :
    getSegment (putSegment v s j y) s i = getSegment v s i := by
  apply BitVec.eq_of_getLsbD_eq
  intro k hk
  rw [getLsbD_getSegment, getLsbD_getSegment, getLsbD_putSegment]
  by_cases hs : k < s
  · rw [if_neg]
    unfold segShift
    rcases Nat.lt_or_gt_of_ne h with h | h
    · have : (i + 1 + 1) * s ≤ (j + 1) * s := Nat.mul_le_mul_right s (by omega)
      rw [Nat.add_mul (i + 1) 1 s] at this
      omega
    · have : (j + 1 + 1) * s ≤ (i + 1) * s := Nat.mul_le_mul_right s (by omega)
      rw [Nat.add_mul (j + 1) 1 s] at this
      omega
  · simp [hs]

/-- Two blocks with equal segments are equal, for a size that divides the block. -/
theorem block_ext_segments {v w : Block} {s : Nat} (hs : 128 / s * s = 128)
    (h : ∀ j, j < 128 / s → getSegment v s j = getSegment w s j) : v = w := by
  apply BitVec.eq_of_getLsbD_eq
  intro k hk
  have hpos : 0 < s := by
    rcases Nat.eq_zero_or_pos s with rfl | h0
    · simp at hs
    · exact h0
  have hq : (127 - k) / s < 128 / s := by
    rw [Nat.div_lt_iff_lt_mul hpos, hs]; omega
  have hm := Nat.div_add_mod (127 - k) s
  have hlt := Nat.mod_lt (127 - k) hpos
  have he := congrArg (fun x => BitVec.getLsbD x (s - 1 - (127 - k) % s)) (h _ hq)
  have hsh : segShift s ((127 - k) / s) + (s - 1 - (127 - k) % s) = k := by
    have hle : ((127 - k) / s + 1) * s ≤ 128 := hs ▸ Nat.mul_le_mul_right s hq
    rw [Nat.add_mul, Nat.mul_comm] at hle
    unfold segShift
    rw [Nat.add_mul, Nat.mul_comm ((127 - k) / s) s]
    omega
  have hs128 : s ≤ 128 := by
    by_contra hgt
    rw [Nat.div_eq_of_lt (by omega)] at hs
    omega
  simp only [getLsbD_getSegment, hsh] at he
  simpa [show s - 1 - (127 - k) % s < 128 by omega, show s - 1 - (127 - k) % s < s by omega] using he

/-! ### The segment step -/

variable (ciph : Block → Block) (ss : Session) (x : Block)

@[simp] theorem segmentStep_valid : (segmentStep ciph ss x).1.valid = ss.valid := rfl

@[simp] theorem segmentStep_seg : (segmentStep ciph ss x).1.seg = ss.seg := rfl

@[simp] theorem segmentStep_dir : (segmentStep ciph ss x).1.dir = ss.dir := rfl

@[simp] theorem segmentStep_ivPending : (segmentStep ciph ss x).1.ivPending = false := rfl

@[simp] theorem segmentStep_prev : (segmentStep ciph ss x).1.prev = ss.cipherInput := rfl

@[simp] theorem segmentStep_output : (segmentStep ciph ss x).2 = x ^^^ ss.keystream ciph := rfl

/-! ### The loops -/

/-- What the loop over a block's segments keeps of the session. -/
theorem segmentLoop_keeps (n j : Nat) (v : Block) :
    (segmentLoop ciph n j ss v).1.valid = ss.valid ∧ (segmentLoop ciph n j ss v).1.seg = ss.seg ∧
      (segmentLoop ciph n j ss v).1.dir = ss.dir := by
  induction n generalizing j ss v with
  | zero => exact ⟨rfl, rfl, rfl⟩
  | succ n ih =>
    obtain ⟨h1, h2, h3⟩ := ih (segmentStep ciph ss (getSegment v ss.seg.toNat j)).1 (j + 1)
      (putSegment v ss.seg.toNat j (segmentStep ciph ss (getSegment v ss.seg.toNat j)).2)
    exact ⟨h1, h2, h3⟩

/-- What the loop over blocks keeps of the session. -/
theorem blockLoop_keeps (n a : Nat) (m : Memory) :
    (blockLoop ciph n a ss m).1.valid = ss.valid ∧ (blockLoop ciph n a ss m).1.seg = ss.seg ∧
      (blockLoop ciph n a ss m).1.dir = ss.dir := by
  induction n generalizing a ss m with
  | zero => exact ⟨rfl, rfl, rfl⟩
  | succ n ih =>
    obtain ⟨h1, h2, h3⟩ := ih (blockStep ciph ss (m.blockAt a)).1 (a + 4)
      (m.setList a (splitBlock (blockStep ciph ss (m.blockAt a)).2))
    obtain ⟨g1, g2, g3⟩ := segmentLoop_keeps ciph ss (128 / ss.seg.toNat) 0 (m.blockAt a)
    exact ⟨h1.trans g1, h2.trans g2, h3.trans g3⟩

/-- The loop over blocks stores only to its blocks. -/
theorem blockLoop_outside (n a : Nat) (m : Memory) {b : Nat} (hb : b < a ∨ a + 4 * n ≤ b) :
    (blockLoop ciph n a ss m).2.dmemAt b = m.dmemAt b := by
  induction n generalizing a ss m with
  | zero => rfl
  | succ n ih =>
    rw [blockLoop]
    rw [ih _ _ _ (by omega), dmemAt_setList_outside (by rw [length_splitBlock]; omega)]

/-- The loop over blocks keeps the canonical form of a memory that holds them. -/
theorem blockLoop_wf {size : Nat} (n a : Nat) {m : Memory} (hm : Memory.wf size m) (ha : n = 0 ∨ a + 4 * n ≤ size) :
    Memory.wf size (blockLoop ciph n a ss m).2 := by
  induction n generalizing a ss m with
  | zero => exact hm
  | succ n ih =>
    exact ih _ _ (wf_setList hm (.inr (by rw [length_splitBlock]; omega))) (by omega)

/-- CFBP with its checks passed changes the session, its blocks and PC, nothing else. -/
theorem completedBut_processBlocks (s : State) (a n : Nat) :
    CompletedBut s (processBlocks ciph a n s).advance [] [] a (4 * n) where
  pc := rfl
  bufs _ _ := rfl
  scalars _ _ := rfl
  dmem b hb := blockLoop_outside ciph s.sess n a s.dmem hb
  busy := rfl
  done := rfl
  host := by constructor <;> rfl

/-! ### CFBP -/

/-- A CFBP in a session, whose blocks exist, completes with those blocks processed (R177). -/
theorem exec_cfbp_completes {s : State} {addr nblk : Nat} (hv : s.sess.valid = true) (hs : ¬PastTop addr (4 * nblk)) :
    exec (.cfbp addr nblk) s = .next (processBlocks (Config.ciph s.cipherKey) addr nblk s).advance := by
  have hfit : spanFits addr (4 * nblk) = true := by
    rw [spanFits_iff]
    simp only [Config.dmemWords]
    unfold PastTop at hs
    omega
  simp only [exec, execCfbp]
  rw [require_pos hv, require_pos hfit]
  rfl

end Sys2Proof.Machine
end

