-- ==== Sys2Proof/Laws/Encoding.lean ====
section
/-! SUPPORT. The bits of an encoded word in each of the four formats, and what each field reads as (R71 to R76). -/

namespace Sys2Proof

variable (op : BitVec 5) (rd ra rb : Fin 8) (imm8 : BitVec 8) (addr n : Nat) (d : Dir)

theorem ofNat_val_toFin (r : Fin 8) : (BitVec.ofNat 3 r.val).toFin = r := by
  apply Fin.ext
  simp

/-! ### The bits of the four formats -/

theorem getLsbD_encodeS (k : Nat) :
    (encodeS op).getLsbD k = if k < 27 then false else op.getLsbD (k - 27) := by
  show BitVec.getLsbD (w := 5 + 27) _ k = _
  simp only [encodeS, BitVec.getLsbD_append]
  grind

theorem getLsbD_encodeR (k : Nat) :
    (encodeR op rd ra rb imm8).getLsbD k =
      if k < 8 then imm8.getLsbD k
      else if k < 18 then false
      else if k < 21 then (BitVec.ofNat 3 rb.val).getLsbD (k - 18)
      else if k < 24 then (BitVec.ofNat 3 ra.val).getLsbD (k - 21)
      else if k < 27 then (BitVec.ofNat 3 rd.val).getLsbD (k - 24)
      else op.getLsbD (k - 27) := by
  show BitVec.getLsbD (w := 5 + 3 + 3 + 3 + 10 + 8) _ k = _
  simp only [encodeR, BitVec.getLsbD_append, BitVec.getLsbD_zero]
  grind

theorem getLsbD_encodeM (k : Nat) :
    (encodeM op rd addr n).getLsbD k =
      if k < 8 then (BitVec.ofNat 8 n).getLsbD k
      else if k < 24 then (BitVec.ofNat 16 addr).getLsbD (k - 8)
      else if k < 27 then (BitVec.ofNat 3 rd.val).getLsbD (k - 24)
      else op.getLsbD (k - 27) := by
  show BitVec.getLsbD (w := 5 + 3 + 16 + 8) _ k = _
  simp only [encodeM, BitVec.getLsbD_append]
  grind

theorem getLsbD_encodeC (k : Nat) :
    (encodeC op d addr n).getLsbD k =
      if k < 8 then (BitVec.ofNat 8 n).getLsbD k
      else if k < 24 then (BitVec.ofNat 16 addr).getLsbD (k - 8)
      else if k < 26 then false
      else if k < 27 then (dirBit d).getLsbD (k - 26)
      else op.getLsbD (k - 27) := by
  show BitVec.getLsbD (w := 5 + 1 + 2 + 16 + 8) _ k = _
  simp only [encodeC, BitVec.getLsbD_append, BitVec.getLsbD_zero]
  grind

/-! ### Masking a format field by field -/

theorem encodeR_and (m1 : BitVec 5) (m2 m3 m4 : BitVec 3) (m5 : BitVec 10) (m6 : BitVec 8) :
    encodeR op rd ra rb imm8 &&& (m1 ++ m2 ++ m3 ++ m4 ++ m5 ++ m6 : Word) =
      (op &&& m1) ++ (BitVec.ofNat 3 rd.val &&& m2) ++ (BitVec.ofNat 3 ra.val &&& m3) ++
        (BitVec.ofNat 3 rb.val &&& m4) ++ (0#10 &&& m5) ++ (imm8 &&& m6) := by
  show (_ ++ _ : BitVec (5 + 3 + 3 + 3 + 10 + 8)) &&& (_ ++ _ : BitVec (5 + 3 + 3 + 3 + 10 + 8)) = _
  simp only [BitVec.and_append]

theorem encodeM_and (m1 : BitVec 5) (m2 : BitVec 3) (m3 : BitVec 16) (m4 : BitVec 8) :
    encodeM op rd addr n &&& (m1 ++ m2 ++ m3 ++ m4 : Word) =
      (op &&& m1) ++ (BitVec.ofNat 3 rd.val &&& m2) ++ (BitVec.ofNat 16 addr &&& m3) ++ (BitVec.ofNat 8 n &&& m4) := by
  show (_ ++ _ : BitVec (5 + 3 + 16 + 8)) &&& (_ ++ _ : BitVec (5 + 3 + 16 + 8)) = _
  simp only [BitVec.and_append]

theorem encodeC_and (m1 : BitVec 5) (m2 : BitVec 1) (m3 : BitVec 2) (m4 : BitVec 16) (m5 : BitVec 8) :
    encodeC op d addr n &&& (m1 ++ m2 ++ m3 ++ m4 ++ m5 : Word) =
      (op &&& m1) ++ (dirBit d &&& m2) ++ (0#2 &&& m3) ++ (BitVec.ofNat 16 addr &&& m4) ++ (BitVec.ofNat 8 n &&& m5) := by
  show (_ ++ _ : BitVec (5 + 1 + 2 + 16 + 8)) &&& (_ ++ _ : BitVec (5 + 1 + 2 + 16 + 8)) = _
  simp only [BitVec.and_append]

/-! ### The fields of an encoded word -/

@[simp] theorem fieldOp_encodeS : fieldOp (encodeS op) = op := by
  apply BitVec.eq_of_getLsbD_eq
  intro k hk
  simp [fieldOp, getLsbD_encodeS, hk]

@[simp] theorem fieldOp_encodeR : fieldOp (encodeR op rd ra rb imm8) = op := by
  apply BitVec.eq_of_getLsbD_eq
  intro k hk
  simp [fieldOp, getLsbD_encodeR, hk, show ¬27 + k < 8 by omega, show ¬27 + k < 18 by omega,
    show ¬27 + k < 21 by omega, show ¬27 + k < 24 by omega]

@[simp] theorem fieldOp_encodeM : fieldOp (encodeM op rd addr n) = op := by
  apply BitVec.eq_of_getLsbD_eq
  intro k hk
  simp [fieldOp, getLsbD_encodeM, hk, show ¬27 + k < 8 by omega, show ¬27 + k < 24 by omega]

@[simp] theorem fieldOp_encodeC : fieldOp (encodeC op d addr n) = op := by
  apply BitVec.eq_of_getLsbD_eq
  intro k hk
  simp [fieldOp, getLsbD_encodeC, hk, show ¬27 + k < 8 by omega, show ¬27 + k < 24 by omega,
    show ¬27 + k < 26 by omega]

@[simp] theorem fieldRd_encodeR : fieldRd (encodeR op rd ra rb imm8) = rd := by
  rw [fieldRd, ← ofNat_val_toFin rd]
  congr 1
  apply BitVec.eq_of_getLsbD_eq
  intro k hk
  simp [getLsbD_encodeR, hk, show ¬24 + k < 8 by omega, show ¬24 + k < 18 by omega,
    show ¬24 + k < 21 by omega, show 24 + k < 27 by omega]

@[simp] theorem fieldRa_encodeR : fieldRa (encodeR op rd ra rb imm8) = ra := by
  rw [fieldRa, ← ofNat_val_toFin ra]
  congr 1
  apply BitVec.eq_of_getLsbD_eq
  intro k hk
  simp [getLsbD_encodeR, hk, show ¬21 + k < 8 by omega, show ¬21 + k < 18 by omega,
    show 21 + k < 24 by omega]

@[simp] theorem fieldRb_encodeR : fieldRb (encodeR op rd ra rb imm8) = rb := by
  rw [fieldRb, ← ofNat_val_toFin rb]
  congr 1
  apply BitVec.eq_of_getLsbD_eq
  intro k hk
  simp [getLsbD_encodeR, hk, show ¬18 + k < 8 by omega, show 18 + k < 21 by omega]

@[simp] theorem fieldRd_encodeM : fieldRd (encodeM op rd addr n) = rd := by
  rw [fieldRd, ← ofNat_val_toFin rd]
  congr 1
  apply BitVec.eq_of_getLsbD_eq
  intro k hk
  simp [getLsbD_encodeM, hk, show ¬24 + k < 8 by omega, show 24 + k < 27 by omega]

/-- The low eight bits of a format R word. -/
@[simp] theorem imm8_encodeR : (encodeR op rd ra rb imm8).extractLsb' 0 8 = imm8 := by
  apply BitVec.eq_of_getLsbD_eq
  intro k hk
  simp [getLsbD_encodeR, hk]

/-- The low eight bits of a format M word. -/
@[simp] theorem imm8_encodeM : (encodeM op rd addr n).extractLsb' 0 8 = BitVec.ofNat 8 n := by
  apply BitVec.eq_of_getLsbD_eq
  intro k hk
  simp [getLsbD_encodeM, hk]

/-- The low eight bits of a format C word. -/
@[simp] theorem imm8_encodeC : (encodeC op d addr n).extractLsb' 0 8 = BitVec.ofNat 8 n := by
  apply BitVec.eq_of_getLsbD_eq
  intro k hk
  simp [getLsbD_encodeC, hk]

@[simp] theorem fieldAddr_encodeM : fieldAddr (encodeM op rd addr n) = addr % 2 ^ 16 := by
  rw [fieldAddr, ← BitVec.toNat_ofNat]
  congr 1
  apply BitVec.eq_of_getLsbD_eq
  intro k hk
  simp [getLsbD_encodeM, hk, show ¬8 + k < 8 by omega, show 8 + k < 24 by omega]

@[simp] theorem fieldAddr_encodeC : fieldAddr (encodeC op d addr n) = addr % 2 ^ 16 := by
  rw [fieldAddr, ← BitVec.toNat_ofNat]
  congr 1
  apply BitVec.eq_of_getLsbD_eq
  intro k hk
  simp [getLsbD_encodeC, hk, show ¬8 + k < 8 by omega, show 8 + k < 24 by omega]

@[simp] theorem fieldDir_encodeC : fieldDir (encodeC op d addr n) = d := by
  rw [fieldDir, getLsbD_encodeC]
  cases d <;> rfl

end Sys2Proof
end

