-- ==== Sys2Proof/Laws/Host.lean ====
section
/-! SUPPORT. What the operations of the host's port can do: CLEAR and GO in each state of STATUS, which transactions are
accepted, and what each offset of the window names. -/

namespace Sys2Proof.Machine

/-! ### CLEAR and GO -/

theorem clear_of_busy {s : State} (h : s.busy = true) : s.clear = { s with hostErr := true } := by
  simp [State.clear, h]

theorem clear_of_idle {s : State} (h : s.busy = false) :
    s.clear = { s with done := false, fault := false, hostErr := false, cause := 0, faultPc := 0, faultCmd := 0 } := by
  simp [State.clear, h]

theorem go_refused {s : State} (h : s.busy = true ∨ s.fault = true) : s.go = { s with hostErr := true } := by
  rcases h with h | h <;> simp [State.go, h]

theorem go_accepted {s : State} (hb : s.busy = false) (hf : s.fault = false) :
    s.go = { s with done := false, busy := true } := by
  simp [State.go, hb, hf]

/-- Everything a turn of the environment can do to a run in progress: a RESET ends it, any other turn leaves it running at
the same PC, with the program and the agenda as they were. -/
theorem hostTurn_of_busy {s : State} (e : HostEvent) (h : s.busy = true) :
    ((e = .reset ∨ e = .resetDuringStep) ∧ (hostTurn e s).busy = false) ∨
    (e ≠ .reset ∧ e ≠ .resetDuringStep ∧ (hostTurn e s).busy = true ∧ (hostTurn e s).pc = s.pc ∧
      (hostTurn e s).imem = s.imem ∧ (hostTurn e s).agenda = s.agenda) := by
  cases e with
  | reset => exact .inl ⟨.inl rfl, rfl⟩
  | resetDuringStep => exact .inl ⟨.inr rfl, rfl⟩
  | keyCipher k => exact .inr ⟨by simp, by simp, by simp [hostTurn, keyCipher, h]⟩
  | read off size =>
    refine .inr ⟨by simp, by simp, ?_⟩
    simp only [hostTurn, hostRead]
    split
    · split <;> simp [hostMemRead, h]
    · simp [h]
  | write off size data =>
    refine .inr ⟨by simp, by simp, ?_⟩
    simp only [hostTurn, hostWrite]
    split
    · split
      · next r _ =>
        cases r <;> simp only [hostRegWrite, ctrlWrite, State.clear, State.go, idleWrite]
        case ctrl => cases data.getLsbD 0 <;> cases data.getLsbD 1 <;> simp [h]
        all_goals simp [h]
      · simp [idleWrite, h]
      · simp [idleWrite, h]
      · simp [h]
    · simp [h]

/-! ### The window -/

theorem hostAccepted_iff {off : BitVec 19} {size : Nat} :
    hostAccepted off size = true ↔ size = 4 ∧ off.toNat % 4 = 0 := by
  simp [hostAccepted]

/-- What each register offset names. -/
theorem hostRegAt_cases (off : Nat) :
    (off = 0x00 ∧ hostRegAt off = .reg .ctrl) ∨ (off = 0x04 ∧ hostRegAt off = .reg .status) ∨
    (off = 0x08 ∧ hostRegAt off = .reg .pc) ∨ (off = 0x0C ∧ hostRegAt off = .reg .faultPc) ∨
    (off = 0x10 ∧ hostRegAt off = .reg .faultCmd) ∨ (off = 0x14 ∧ hostRegAt off = .reg .params) ∨
    (off = 0x18 ∧ hostRegAt off = .reg .sessInfo) ∨
    (off ≠ 0x00 ∧ off ≠ 0x04 ∧ off ≠ 0x08 ∧ off ≠ 0x0C ∧ off ≠ 0x10 ∧ off ≠ 0x14 ∧ off ≠ 0x18 ∧
      hostRegAt off = .nothing) := by
  unfold hostRegAt
  split <;> simp_all

theorem hostTarget_reg {off : BitVec 19} (h : off.toNat < 0x1000) : hostTarget off = hostRegAt off.toNat := by
  simp [hostTarget, h]

theorem hostTarget_imem {i : Nat} (h : i < 1024) : hostTarget (BitVec.ofNat 19 (0x01000 + 4 * i)) = .imem i := by
  have hn : (BitVec.ofNat 19 (0x01000 + 4 * i)).toNat = 0x01000 + 4 * i := by simp; omega
  rw [hostTarget, hn, if_neg (by omega), if_pos (by omega), Nat.add_sub_cancel_left, Nat.mul_div_cancel_left i (by omega)]

theorem hostTarget_dmem {a : Nat} (h : a < 65536) : hostTarget (BitVec.ofNat 19 (0x40000 + 4 * a)) = .dmem a := by
  have hn : (BitVec.ofNat 19 (0x40000 + 4 * a)).toNat = 0x40000 + 4 * a := by simp; omega
  rw [hostTarget, hn, if_neg (by omega), if_neg (by omega), if_neg (by omega), Nat.add_sub_cancel_left,
    Nat.mul_div_cancel_left a (by omega)]

theorem hostTarget_unmapped {off : BitVec 19} (h1 : 0x02000 ≤ off.toNat) (h2 : off.toNat < 0x40000) :
    hostTarget off = .nothing := by
  rw [hostTarget, if_neg (by omega), if_neg (by omega), if_pos h2]

/-- Everything a write that waits for idle can do. -/
theorem idleWrite_cases (s t : State) :
    (s.busy = true ∧ idleWrite s t = { s with hostErr := true }) ∨ (s.busy = false ∧ idleWrite s t = t) := by
  cases h : s.busy <;> simp [idleWrite, h]

/-- Everything a read of a memory window can do. -/
theorem hostMemRead_cases (w : Word) (s : State) :
    (s.busy = true ∧ hostMemRead w s = { s with hostData := Config.busyRead s.draws, draws := s.draws + 1 }) ∨
    (s.busy = false ∧ hostMemRead w s = { s with hostData := w }) := by
  cases h : s.busy <;> simp [hostMemRead, h]

end Sys2Proof.Machine
end

