-- ==== Sys2Proof/Laws/PerInstr.lean ====
section
/-! SUPPORT. Statements about every command as syntax, one lemma per constructor: the encoding of a command carries the
opcode and the must-be-zero bits of its row of R77, whatever its operands. -/

namespace Sys2Proof.Laws

open Sys2Proof

/-- The encoding of `i` falls in a row of R77 and has that row's fixed bits. -/
def EncodeMatchesRow.Statement (i : Instr) : Prop :=
  ∃ row, opRow (fieldOp (encode i)).toNat = some row ∧ encode i &&& row.mask = row.pattern

/-- The opcode field picks the row; the masked word is its fixed bits. -/
theorem EncodeMatchesRow.matches_of {i : Instr} {op : BitVec 5} {row : OpRow} (hop : fieldOp (encode i) = op)
    (hrow : opRow op.toNat = some row) (hbits : encode i &&& row.mask = row.pattern) : Statement i :=
  ⟨row, hop ▸ hrow, hbits⟩

theorem EncodeMatchesRow.nop : Statement (.nop) :=
  matches_of (fieldOp_encodeS _) rfl (by decide)

theorem EncodeMatchesRow.halt : Statement (.halt) :=
  matches_of (fieldOp_encodeS _) rfl (by decide)

theorem EncodeMatchesRow.bld (rd : BufReg) (addr n : Nat) : Statement (.bld rd addr n) :=
  matches_of (fieldOp_encodeM ..) rfl ((encodeM_and _ _ _ _ 0x1F#5 0x0#3 0x0#16 0x0#8).trans (by simp))

theorem EncodeMatchesRow.bst (r : BufReg) (addr : Nat) : Statement (.bst r addr) :=
  matches_of (fieldOp_encodeM ..) rfl ((encodeM_and _ _ _ _ 0x1F#5 0x0#3 0x0#16 0xFF#8).trans (by simp))

theorem EncodeMatchesRow.sst (r : ScalarReg) (addr : Nat) : Statement (.sst r addr) :=
  matches_of (fieldOp_encodeM ..) rfl ((encodeM_and _ _ _ _ 0x1F#5 0x0#3 0x0#16 0xFF#8).trans (by simp))

theorem EncodeMatchesRow.bclr (rd : BufReg) (n : Nat) : Statement (.bclr rd n) :=
  matches_of (fieldOp_encodeR ..) rfl ((encodeR_and _ _ _ _ _ 0x1F#5 0x0#3 0x7#3 0x7#3 0x3FF#10 0x0#8).trans (by simp))

theorem EncodeMatchesRow.bmov (rd ra : BufReg) : Statement (.bmov rd ra) :=
  matches_of (fieldOp_encodeR ..) rfl ((encodeR_and _ _ _ _ _ 0x1F#5 0x0#3 0x0#3 0x7#3 0x3FF#10 0xFF#8).trans (by simp))

theorem EncodeMatchesRow.clamp (rd : BufReg) : Statement (.clamp rd) :=
  matches_of (fieldOp_encodeR ..) rfl ((encodeR_and _ _ _ _ _ 0x1F#5 0x0#3 0x7#3 0x7#3 0x3FF#10 0xFF#8).trans (by simp))

theorem EncodeMatchesRow.shl (rd : BufReg) (ra : ScalarReg) (n : Int) : Statement (.shl rd ra n) :=
  matches_of (fieldOp_encodeR ..) rfl ((encodeR_and _ _ _ _ _ 0x1F#5 0x0#3 0x0#3 0x7#3 0x3FF#10 0x0#8).trans (by simp))

theorem EncodeMatchesRow.lmw (rd ra : BufReg) (n : Nat) : Statement (.lmw rd ra n) :=
  matches_of (fieldOp_encodeR ..) rfl ((encodeR_and _ _ _ _ _ 0x1F#5 0x0#3 0x0#3 0x7#3 0x3FF#10 0x0#8).trans (by simp))

theorem EncodeMatchesRow.lmb (rd ra : BufReg) (n : Nat) : Statement (.lmb rd ra n) :=
  matches_of (fieldOp_encodeR ..) rfl ((encodeR_and _ _ _ _ _ 0x1F#5 0x0#3 0x0#3 0x7#3 0x3FF#10 0x0#8).trans (by simp))

theorem EncodeMatchesRow.rmb (rd ra : BufReg) (n : Nat) : Statement (.rmb rd ra n) :=
  matches_of (fieldOp_encodeR ..) rfl ((encodeR_and _ _ _ _ _ 0x1F#5 0x0#3 0x0#3 0x7#3 0x3FF#10 0x0#8).trans (by simp))

theorem EncodeMatchesRow.popw (rd ra : BufReg) (n : Nat) : Statement (.popw rd ra n) :=
  matches_of (fieldOp_encodeR ..) rfl ((encodeR_and _ _ _ _ _ 0x1F#5 0x0#3 0x0#3 0x7#3 0x3FF#10 0x0#8).trans (by simp))

theorem EncodeMatchesRow.shob (rd ra : BufReg) (n : Nat) : Statement (.shob rd ra n) :=
  matches_of (fieldOp_encodeR ..) rfl ((encodeR_and _ _ _ _ _ 0x1F#5 0x0#3 0x0#3 0x7#3 0x3FF#10 0x0#8).trans (by simp))

theorem EncodeMatchesRow.xor (rd ra rb : BufReg) : Statement (.xor rd ra rb) :=
  matches_of (fieldOp_encodeR ..) rfl ((encodeR_and _ _ _ _ _ 0x1F#5 0x0#3 0x0#3 0x0#3 0x3FF#10 0xFF#8).trans (by simp))

theorem EncodeMatchesRow.xort (rd ra rb : BufReg) : Statement (.xort rd ra rb) :=
  matches_of (fieldOp_encodeR ..) rfl ((encodeR_and _ _ _ _ _ 0x1F#5 0x0#3 0x0#3 0x0#3 0x3FF#10 0xFF#8).trans (by simp))

theorem EncodeMatchesRow.and (rd ra rb : BufReg) : Statement (.and rd ra rb) :=
  matches_of (fieldOp_encodeR ..) rfl ((encodeR_and _ _ _ _ _ 0x1F#5 0x0#3 0x0#3 0x0#3 0x3FF#10 0xFF#8).trans (by simp))

theorem EncodeMatchesRow.eq (rd : ScalarReg) (ra rb : BufReg) : Statement (.eq rd ra rb) :=
  matches_of (fieldOp_encodeR ..) rfl ((encodeR_and _ _ _ _ _ 0x1F#5 0x0#3 0x0#3 0x0#3 0x3FF#10 0xFF#8).trans (by simp))

theorem EncodeMatchesRow.msb (rd : ScalarReg) (ra : BufReg) : Statement (.msb rd ra) :=
  matches_of (fieldOp_encodeR ..) rfl ((encodeR_and _ _ _ _ _ 0x1F#5 0x0#3 0x0#3 0x7#3 0x3FF#10 0xFF#8).trans (by simp))

theorem EncodeMatchesRow.cat (rd ra rb : BufReg) : Statement (.cat rd ra rb) :=
  matches_of (fieldOp_encodeR ..) rfl ((encodeR_and _ _ _ _ _ 0x1F#5 0x0#3 0x0#3 0x0#3 0x3FF#10 0xFF#8).trans (by simp))

theorem EncodeMatchesRow.dbl (rd : BufReg) : Statement (.dbl rd) :=
  matches_of (fieldOp_encodeR ..) rfl ((encodeR_and _ _ _ _ _ 0x1F#5 0x0#3 0x7#3 0x7#3 0x3FF#10 0xFF#8).trans (by simp))

theorem EncodeMatchesRow.cfbi (dir : Dir) (addr seg : Nat) : Statement (.cfbi dir addr seg) :=
  matches_of (fieldOp_encodeC ..) rfl ((encodeC_and _ _ _ _ 0x1F#5 0x0#1 0x3#2 0x0#16 0x0#8).trans (by simp))

theorem EncodeMatchesRow.cfbp (addr nblk : Nat) : Statement (.cfbp addr nblk) :=
  matches_of (fieldOp_encodeM ..) rfl ((encodeM_and _ _ _ _ 0x1F#5 0x7#3 0x0#16 0x0#8).trans (by simp))

theorem EncodeMatchesRow.cfbs (addr : Nat) : Statement (.cfbs addr) :=
  matches_of (fieldOp_encodeM ..) rfl ((encodeM_and _ _ _ _ 0x1F#5 0x7#3 0x0#16 0xFF#8).trans (by simp))

end Sys2Proof.Laws
end

