-- ==== Sys2Proof/Laws/Values.lean ====
section
/-! SUPPORT. The small lemmas of the values the statements speak of: the number a word list is, the segments of a run of
blocks, and the recurrence of R178. -/

namespace Sys2Proof.Machine

/-! ### The number a word list is -/

@[simp] theorem wordsValue_nil : wordsValue [] = 0 := rfl

theorem foldl_wordsValue (w : List Word) (a : Nat) :
    w.foldl (fun acc x => acc * 2 ^ 32 + x.toNat) a = a * 2 ^ (32 * w.length) + wordsValue w := by
  induction w generalizing a with
  | nil => simp
  | cons x xs ih =>
    have h : wordsValue (x :: xs) = (0 * 2 ^ 32 + x.toNat) * 2 ^ (32 * xs.length) + wordsValue xs := ih _
    rw [List.foldl_cons, ih, h, List.length_cons, Nat.mul_add 32, pow_add]
    ring

theorem wordsValue_cons (x : Word) (xs : List Word) :
    wordsValue (x :: xs) = x.toNat * 2 ^ (32 * xs.length) + wordsValue xs := by
  rw [wordsValue, List.foldl_cons, foldl_wordsValue]
  simp

theorem wordsValue_lt (w : List Word) : wordsValue w < 2 ^ (32 * w.length) := by
  induction w with
  | nil => simp
  | cons x xs ih =>
    rw [wordsValue_cons, List.length_cons, Nat.mul_add 32, pow_add]
    have hx := x.isLt
    rw [Nat.mul_one]
    generalize 2 ^ (32 * xs.length) = p at *
    calc x.toNat * p + wordsValue xs < x.toNat * p + p := by omega
      _ = p * (x.toNat + 1) := by ring
      _ ≤ p * 2 ^ 32 := Nat.mul_le_mul_left p hx

/-! ### Counting steps -/

@[simp] theorem countSteps_zero (p : State → Bool) (s : State) : countSteps p 0 s = 0 := rfl

theorem countSteps_succ {p : State → Bool} {s t : State} (h : step s = .next t) (k : Nat) :
    countSteps p (k + 1) s = (if p s then 1 else 0) + countSteps p k t := by
  simp [countSteps, h]

/-! ### Segments and the recurrence -/

@[simp] theorem segmentsOf_zero (m : Memory) (s a : Nat) : segmentsOf m s a 0 = [] := rfl

/-- The segments of the first block, then those of the rest. -/
theorem segmentsOf_succ (m : Memory) (s a n : Nat) :
    segmentsOf m s a (n + 1) = (List.range (128 / s)).map (getSegment (m.blockAt a) s) ++ segmentsOf m s (a + 4) n := by
  unfold segmentsOf
  generalize 128 / s = q
  have h : ∀ k, a + 4 * (k + 1) = a + 4 + 4 * k := fun k => by omega
  rw [List.range_succ_eq_map, List.flatMap_cons, List.flatMap_map]
  simp only [Nat.mul_zero, Nat.add_zero, Nat.succ_eq_add_one, h]

variable (ciph : Block → Block) (s : Nat) (dir : Dir) (i : Block)

@[simp] theorem cfbRecurrence_nil : cfbRecurrence ciph s dir i [] = [] := rfl

theorem cfbRecurrence_encrypt (x : Block) (xs : List Block) :
    cfbRecurrence ciph s .encryptor i (x :: xs) =
      { i := i, x := x, y := x ^^^ (ciph i >>> (128 - s)), c := x ^^^ (ciph i >>> (128 - s)) } ::
        cfbRecurrence ciph s .encryptor ((i <<< s) ||| (x ^^^ (ciph i >>> (128 - s)))) xs := rfl

theorem cfbRecurrence_decrypt (x : Block) (xs : List Block) :
    cfbRecurrence ciph s .decryptor i (x :: xs) =
      { i := i, x := x, y := x ^^^ (ciph i >>> (128 - s)), c := x } ::
        cfbRecurrence ciph s .decryptor ((i <<< s) ||| x) xs := rfl

@[simp] theorem length_cfbRecurrence (xs : List Block) : (cfbRecurrence ciph s dir i xs).length = xs.length := by
  induction xs generalizing i with
  | nil => rfl
  | cons x xs ih => simp [cfbRecurrence, ih]

end Sys2Proof.Machine
end

