-- ==== Sys2Proof/Tests/Slice0.lean ====
section
/-! SUPPORT. The model's own tests: an ill-formed term for each check of WellFormed; every constructor's decoding from a word
written out from R71 to R77 (the words of spec/95_test_vectors.md 4.1, or R92); one small effect per command, its expected
value from spec/95_test_vectors.md; and for every statement with hypotheses or clauses a state that meets them. -/

namespace Sys2Proof.Tests

open Sys2Proof Sys2Proof.Machine

/-! ### Well-formedness -/

theorem test_bld_address_too_large : Instr.WellFormed (.bld 0 65536 0) = false := by decide
theorem test_bld_count_too_large : Instr.WellFormed (.bld 0 65535 256) = false := by decide
theorem test_bst_address_too_large : Instr.WellFormed (.bst 0 65536) = false := by decide
theorem test_sst_address_too_large : Instr.WellFormed (.sst 0 65536) = false := by decide
theorem test_bclr_count_too_large : Instr.WellFormed (.bclr 0 256) = false := by decide
theorem test_shl_amount_too_large : Instr.WellFormed (.shl 0 0 128) = false := by decide
theorem test_shl_amount_too_small : Instr.WellFormed (.shl 0 0 (-129)) = false := by decide
theorem test_lmw_count_too_large : Instr.WellFormed (.lmw 0 1 256) = false := by decide
theorem test_lmb_count_too_large : Instr.WellFormed (.lmb 0 1 256) = false := by decide
theorem test_rmb_count_too_large : Instr.WellFormed (.rmb 0 1 256) = false := by decide
theorem test_popw_count_too_large : Instr.WellFormed (.popw 0 1 256) = false := by decide
theorem test_shob_count_too_large : Instr.WellFormed (.shob 0 1 256) = false := by decide
theorem test_cfbi_address_too_large : Instr.WellFormed (.cfbi .encryptor 65536 8) = false := by decide
theorem test_cfbi_segment_too_large : Instr.WellFormed (.cfbi .encryptor 0 256) = false := by decide
theorem test_cfbp_address_too_large : Instr.WellFormed (.cfbp 65536 0) = false := by decide
theorem test_cfbp_count_too_large : Instr.WellFormed (.cfbp 0 256) = false := by decide
theorem test_cfbs_address_too_large : Instr.WellFormed (.cfbs 65536) = false := by decide
theorem test_largest_operands_well_formed :
    Instr.WellFormed (.cfbp 65535 255) = true ∧ Instr.WellFormed (.shl 7 7 127) = true ∧
      Instr.WellFormed (.shl 7 7 (-128)) = true := by decide

/-! ### Decoding: one word per constructor -/

theorem test_decode_nop : decode 0x08000000#32 = .ok .nop := by decide
theorem test_decode_halt : decode 0x10000000#32 = .ok .halt := by decide
theorem test_decode_bld : decode 0x19010010#32 = .ok (.bld 1 0x0100 16) := by decide
theorem test_decode_bst : decode 0x20021000#32 = .ok (.bst 0 0x0210) := by decide
theorem test_decode_sst : decode 0x28021800#32 = .ok (.sst 0 0x0218) := by decide
theorem test_decode_bclr : decode 0x30000010#32 = .ok (.bclr 0 16) := by decide
theorem test_decode_bmov : decode 0x38200000#32 = .ok (.bmov 0 1) := by decide
theorem test_decode_clamp : decode 0x40000000#32 = .ok (.clamp 0) := by decide
theorem test_decode_shl : decode 0x4A600008#32 = .ok (.shl 2 3 8) := by decide
theorem test_decode_shl_negative : decode 0x4A6000FF#32 = .ok (.shl 2 3 (-1)) := by decide
theorem test_decode_lmw : decode 0x50200002#32 = .ok (.lmw 0 1 2) := by decide
theorem test_decode_lmb : decode 0x5A000007#32 = .ok (.lmb 2 0 7) := by decide
theorem test_decode_rmb : decode 0x61000003#32 = .ok (.rmb 1 0 3) := by decide
theorem test_decode_popw : decode 0x6C000001#32 = .ok (.popw 4 0 1) := by decide
theorem test_decode_shob : decode 0x70200003#32 = .ok (.shob 0 1 3) := by decide
theorem test_decode_xor : decode 0x79080000#32 = .ok (.xor 1 0 2) := by decide
theorem test_decode_xort : decode 0x85040000#32 = .ok (.xort 5 0 1) := by decide
theorem test_decode_and : decode 0x88280000#32 = .ok (.and 0 1 2) := by decide
theorem test_decode_eq : decode 0x91040000#32 = .ok (.eq 1 0 1) := by decide
theorem test_decode_msb : decode 0x98200000#32 = .ok (.msb 0 1) := by decide
theorem test_decode_cat : decode 0xA3440000#32 = .ok (.cat 3 2 1) := by decide
theorem test_decode_dbl : decode 0xA8000000#32 = .ok (.dbl 0) := by decide
theorem test_decode_cfbi_encryptor : decode 0xC0010008#32 = .ok (.cfbi .encryptor 0x0100 8) := by decide
theorem test_decode_cfbi_decryptor : decode 0xC4010080#32 = .ok (.cfbi .decryptor 0x0100 128) := by decide
theorem test_decode_cfbp : decode 0xC8020002#32 = .ok (.cfbp 0x0200 2) := by decide
theorem test_decode_cfbs : decode 0xD0030000#32 = .ok (.cfbs 0x0300) := by decide

/-- The reserved opcodes of 4.1. -/
theorem test_decode_reserved :
    [0x00000000#32, 0xB0000000#32, 0xB8000000#32, 0xD8000000#32, 0xF8000000#32].map decode =
      List.replicate 5 (.error .reservedOpcode) := by decide

/-- The words of 4.1 with a nonzero bit in a must-be-zero field. -/
theorem test_decode_must_be_zero :
    [0x0FFFFFFF#32, 0x08000001#32, 0x10000100#32, 0x38200001#32, 0x40200000#32, 0x20000001#32, 0x28000005#32,
        0x30200010#32, 0x78000100#32, 0x98040000#32, 0xA8200000#32, 0xC2010008#32, 0xC9020001#32, 0xD0020001#32].map decode =
      List.replicate 14 (.error .mustBeZero) := by decide

theorem test_decodeTableWord : decodeTableWord 32 0xC8020002 = some (.cfbp 0x0200 2) := by decide

/-! ### Small states, and what a result says -/

/-- A written register. -/
def reg (w : List Word) (sig : Nat) : Buf := { valid := true, w := w, sig := sig }

/-- A running machine with `a` and `b` in B[1] and B[2], and everything else as after reset. -/
def two (a b : Buf) : State := { ((State.reset.setBuf 1 a).setBuf 2 b) with busy := true }

/-- A running machine with one buffer in B[1]. -/
def one (a : Buf) : State := two a Buf.invalid

/-- The 10-byte buffer the slice vectors start from. -/
def x10 : Buf := reg [0x11223344#32, 0x55667788#32, 0x99AABBCC#32] 10

/-- The same, clamped. -/
def x10clamped : Buf := reg [0x11223344#32, 0x55667788#32, 0x99AA0000#32] 10

/-- 0 for a command that completed, the cause code for one that faulted. -/
def causeOf (r : Result) : Option Nat :=
  match r with
  | .next t => some (if t.fault then t.cause.toNat else 0)
  | _ => none

def bufOf (r : Result) (b : BufReg) : Option Buf :=
  match r with
  | .next t => some (t.buf b)
  | _ => none

def scalarOf (r : Result) (q : ScalarReg) : Option Word :=
  match r with
  | .next t => some (t.scalar q)
  | _ => none

def wordOf (r : Result) (a : Nat) : Option Word :=
  match r with
  | .next t => t.dmem.get a
  | _ => none

def sessOf (r : Result) : Option Session :=
  match r with
  | .next t => some t.sess
  | _ => none

/-! ### One effect per command -/

theorem test_nop : (match exec .nop (one x10) with | .next t => t.pc == 1 && t.busy | _ => false) = true := by decide

theorem test_halt : (match exec .halt (one x10) with | .next t => t.pc == 1 && !t.busy && t.done | _ => false) = true := by
  decide

theorem test_bld : bufOf (exec (.bld 0 0x0010 3) { State.reset with dmem := [(0x10, 0x616263FF#32)] }) 0 =
    some (reg [0x616263FF#32] 3) := by decide

theorem test_bld_clauses :
    causeOf (exec (.bld 0 0xFFFF 200) State.reset) = some 10 ∧ causeOf (exec (.bld 0 0x0000 129) State.reset) = some 10 ∧
    causeOf (exec (.bld 0 0xFFFF 5) State.reset) = some 11 ∧ causeOf (exec (.bld 0 65505 128) State.reset) = some 11 ∧
    causeOf (exec (.bld 0 65504 128) State.reset) = some 0 ∧ causeOf (exec (.bld 0 0xFFFF 4) State.reset) = some 0 ∧
    bufOf (exec (.bld 0 0xFFFF 0) State.reset) 0 = some (reg [] 0) := by decide +kernel

theorem test_bst : wordOf (exec (.bst 1 0x0020) (one (reg [0x8899AA00#32] 3))) 0x20 = some 0x8899AA00#32 := by decide

theorem test_bst_clauses :
    causeOf (exec (.bst 0 0x0020) (one x10)) = some 3 ∧ causeOf (exec (.bst 1 0xFFFE) (one x10)) = some 11 ∧
    wordOf (exec (.bst 1 0xFFFD) (one x10)) 0xFFFF = some 0x99AABBCC#32 ∧
    causeOf (exec (.bst 1 0xFFFF) (one (reg [] 0))) = some 0 := by decide

theorem test_sst : wordOf (exec (.sst 1 0xFFFF) (State.reset.setScalar 1 1)) 0xFFFF = some 1 := by decide

theorem test_bclr : bufOf (exec (.bclr 2 16) State.reset) 2 = some (reg [0, 0, 0, 0] 16) := by decide

theorem test_bclr_clauses :
    causeOf (exec (.bclr 0 129) State.reset) = some 10 ∧ causeOf (exec (.bclr 0 128) State.reset) = some 0 ∧
    bufOf (exec (.bclr 0 0) State.reset) 0 = some (reg [] 0) := by decide +kernel

theorem test_bmov : bufOf (exec (.bmov 0 1) (one (reg [0x616263FF#32] 3))) 0 = some (reg [0x616263FF#32] 3) ∧
    causeOf (exec (.bmov 0 2) State.reset) = some 3 := by decide

theorem test_clamp : bufOf (exec (.clamp 1) (one (reg [0x61626364#32, 0x65666768#32] 5))) 1 =
    some (reg [0x61626364#32, 0x65000000#32] 5) ∧ causeOf (exec (.clamp 2) (one x10)) = some 3 := by decide

theorem test_shl :
    bufOf (exec (.shl 1 1 31) (one (reg [0x12345679#32, 0x9ABCDEF0#32] 8))) 1 = some (reg [0xCD5E6F78#32, 0x00000000#32] 8) ∧
    scalarOf (exec (.shl 1 1 31) (one (reg [0x12345679#32, 0x9ABCDEF0#32] 8))) 1 = some 0x091A2B3C#32 := by decide

theorem test_shl_clauses :
    causeOf (exec (.shl 2 1 (-1)) (one x10)) = some 3 ∧ causeOf (exec (.shl 1 1 (-1)) (one x10)) = some 5 ∧
    causeOf (exec (.shl 1 1 32) (one x10)) = some 6 ∧ causeOf (exec (.shl 1 1 31) (one x10)) = some 0 ∧
    bufOf (exec (.shl 1 1 0) (one x10)) 1 = some x10 ∧ scalarOf (exec (.shl 1 1 0) (one x10)) 1 = some 0 := by decide

theorem test_lmw : bufOf (exec (.lmw 0 1 3) (one x10)) 0 = some x10clamped ∧
    bufOf (exec (.lmw 0 1 3) (one x10)) 1 = some x10 := by decide

theorem test_lmw_clauses :
    causeOf (exec (.lmw 0 2 0) (one x10)) = some 3 ∧ causeOf (exec (.lmw 0 1 4) (one x10)) = some 9 ∧
    bufOf (exec (.lmw 0 1 0) (one x10)) 0 = some (reg [] 0) := by decide

theorem test_lmb : bufOf (exec (.lmb 0 1 5) (one x10)) 0 = some (reg [0x11223344#32, 0x55000000#32] 5) := by decide

theorem test_lmb_clauses :
    causeOf (exec (.lmb 0 2 0) (one x10)) = some 3 ∧ causeOf (exec (.lmb 0 1 11) (one x10)) = some 9 ∧
    bufOf (exec (.lmb 0 1 10) (one x10)) 0 = some x10clamped := by decide

theorem test_rmb : bufOf (exec (.rmb 0 1 3) (one x10)) 0 = some (reg [0x8899AA00#32] 3) ∧
    bufOf (exec (.rmb 0 1 3) (one x10)) 1 = some x10clamped := by decide

theorem test_rmb_clauses :
    causeOf (exec (.rmb 0 2 0) (one x10)) = some 3 ∧ causeOf (exec (.rmb 0 1 11) (one x10)) = some 9 ∧
    bufOf (exec (.rmb 0 1 11) (one x10)) 1 = some x10 ∧ bufOf (exec (.rmb 1 1 10) (one x10)) 1 = some x10clamped := by decide

theorem test_popw : bufOf (exec (.popw 0 1 1) (one x10)) 0 = some (reg [0x11223344#32] 4) ∧
    bufOf (exec (.popw 0 1 1) (one x10)) 1 = some (reg [0x55667788#32, 0x99AABBCC#32] 6) := by decide

theorem test_popw_clauses :
    causeOf (exec (.popw 2 2 9) (one x10)) = some 3 ∧ causeOf (exec (.popw 1 1 3) (one x10)) = some 4 ∧
    causeOf (exec (.popw 0 1 3) (one x10)) = some 9 ∧ causeOf (exec (.popw 0 1 2) (one x10)) = some 0 := by decide

theorem test_shob : bufOf (exec (.shob 0 1 3) (one x10)) 0 = some (reg [0x11223300#32] 3) ∧
    bufOf (exec (.shob 0 1 3) (one x10)) 1 = some (reg [0x44556677#32, 0x8899AA00#32] 7) := by decide

theorem test_shob_clauses :
    causeOf (exec (.shob 2 2 3) (one x10)) = some 3 ∧ causeOf (exec (.shob 1 1 11) (one x10)) = some 4 ∧
    causeOf (exec (.shob 0 1 11) (one x10)) = some 9 ∧ bufOf (exec (.shob 0 1 10) (one x10)) 1 = some (reg [] 0) := by decide

theorem test_xor : bufOf (exec (.xor 0 1 2) (two (reg [0x616263FF#32] 3) (reg [0x01010101#32] 3))) 0 =
    some (reg [0x606362FE#32] 3) := by decide

theorem test_xor_clauses :
    causeOf (exec (.xor 0 1 2) (one x10)) = some 3 ∧ causeOf (exec (.xor 0 2 1) (one x10)) = some 3 ∧
    causeOf (exec (.xor 0 1 2) (two (reg [0x616263FF#32] 3) (reg [0x01010101#32] 4))) = some 9 ∧
    (x10.sig = x10clamped.sig → x10.len = x10clamped.len) ∧
    causeOf (exec (.xor 0 1 2) (two x10 x10clamped)) = some 0 := by decide

theorem test_xort : bufOf (exec (.xort 0 1 2) (two (reg [0x01020304#32, 0x05000000#32] 5) (reg [0xAABBCCDD#32] 3))) 0 =
    some (reg [0x0102A9BF#32, 0xC9000000#32] 5) := by decide

theorem test_xort_clauses :
    causeOf (exec (.xort 0 1 2) (one x10)) = some 3 ∧
    causeOf (exec (.xort 0 1 2) (two (reg [0x01020000#32] 2) (reg [0xAABBCCDD#32] 3))) = some 9 ∧
    bufOf (exec (.xort 0 1 2) (two (reg [0x01020304#32] 4) (reg [0xFFFFFFFF#32] 4))) 0 = some (reg [0xFEFDFCFB#32] 4) ∧
    bufOf (exec (.xort 0 1 2) (two (reg [0x010203FF#32] 3) (reg [] 0))) 0 = some (reg [0x01020300#32] 3) := by decide

theorem test_and : bufOf (exec (.and 0 1 2) (two (reg [0xF0F0F0F0#32, 0xFFFF0000#32] 8) (reg [0x3C3C3C3C#32,
    0x12345678#32] 8))) 0 =
    some (reg [0x30303030#32, 0x12340000#32] 8) := by decide

theorem test_and_clauses :
    causeOf (exec (.and 0 1 2) (one x10)) = some 3 ∧
    causeOf (exec (.and 0 1 2) (two (reg [0xF0F0F0F0#32] 4) (reg [0x3C3C3C3C#32, 0x00000000#32] 5))) = some 9 ∧
    (x10.sig = x10clamped.sig → x10.len = x10clamped.len) ∧
    bufOf (exec (.and 0 1 2) (two x10 x10clamped)) 0 = some x10clamped := by decide

theorem test_eq : scalarOf (exec (.eq 0 1 2) (two (reg [0x61626364#32] 3) (reg [0x61626300#32] 3))) 0 = some 1 ∧
    bufOf (exec (.eq 0 1 2) (two (reg [0x61626364#32] 3) (reg [0x61626300#32] 3))) 1 =
      some (reg [0x61626300#32] 3) := by decide

theorem test_eq_clauses :
    scalarOf (exec (.eq 0 1 2) (one (reg [0x616263FF#32] 3))) 0 = some 0 ∧
    bufOf (exec (.eq 0 1 2) (one (reg [0x616263FF#32] 3))) 1 = some (reg [0x616263FF#32] 3) ∧
    scalarOf (exec (.eq 0 1 2) (two (reg [0x61626300#32] 3) (reg [0x61626300#32] 4))) 0 = some 0 ∧
    scalarOf (exec (.eq 0 1 2) (two (reg [0x61626300#32] 3) (reg [0x61626400#32] 3))) 0 = some 0 ∧
    scalarOf (exec (.eq 0 1 1) (one (reg [0x616263FF#32] 3))) 0 = some 1 := by decide

theorem test_msb : scalarOf (exec (.msb 0 1) (one (reg [0x80000000#32] 1))) 0 = some 1 ∧
    scalarOf (exec (.msb 0 1) (one (reg [0x7FFFFFFF#32] 4))) 0 = some 0 := by decide

theorem test_msb_clauses :
    causeOf (exec (.msb 0 2) (one x10)) = some 3 ∧ causeOf (exec (.msb 0 1) (one (reg [] 0))) = some 9 := by decide

theorem test_cat : bufOf (exec (.cat 0 1 2) (two (reg [0x616263FF#32] 3) (reg [0x646566FF#32] 3))) 0 =
    some (reg [0x61626364#32, 0x65660000#32] 6) := by decide

theorem test_cat_clauses :
    causeOf (exec (.cat 0 1 2) (one x10)) = some 3 ∧
    causeOf (exec (.cat 0 1 2) (two (reg (List.replicate 25 0) 100) (reg (List.replicate 8 0) 29))) = some 10 ∧
    bufOf (exec (.cat 0 1 2) (two (reg (List.replicate 25 0) 100) (reg (List.replicate 7 0) 28))) 0 =
      some (reg (List.replicate 32 0) 128) := by decide +kernel

theorem test_dbl :
    bufOf (exec (.dbl 1) (one (reg [0xFBEED618#32, 0x35713366#32, 0x7C85E08F#32, 0x7236A8DE#32] 16))) 1 =
      some (reg [0xF7DDAC30#32, 0x6AE266CC#32, 0xF90BC11E#32, 0xE46D513B#32] 16) ∧
    bufOf (exec (.dbl 1) (one (reg [0x40000000#32, 0, 0, 0] 16))) 1 = some (reg [0x80000000#32, 0, 0, 0] 16) := by decide

theorem test_dbl_clauses :
    causeOf (exec (.dbl 2) (one x10)) = some 3 ∧ causeOf (exec (.dbl 1) (one (reg [0, 0, 0, 0] 15))) = some 9 ∧
    causeOf (exec (.dbl 1) (one (reg [0, 0, 0, 0, 0] 17))) = some 9 ∧ causeOf (exec (.dbl 1) (one (reg [0, 0] 8))) =
      some 9 := by
  decide

/-! ### The CFB mode, with the spec's test cipher TOY2 (4.4) -/

/-- `TOY2(x) = (rotl128(x, 8) + 0x0123...3210) mod 2^128` (spec/95_test_vectors.md 1.1). -/
def toy2 (x : Block) : Block := x.rotateLeft 8 + 0x0123456789ABCDEFFEDCBA9876543210#128

/-- The IV and the plaintext of 4.4.1. -/
def cfbMem : Memory :=
  [(0x100, 0x00010203#32), (0x101, 0x04050607#32), (0x102, 0x08090A0B#32), (0x103, 0x0C0D0E0F#32),
    (0x200, 0x00112233#32), (0x201, 0x44556677#32), (0x202, 0x8899AABB#32), (0x203, 0xCCDDEEFF#32),
    (0x204, 0xFFEEDDCC#32), (0x205, 0xBBAA9988#32), (0x206, 0x77665544#32), (0x207, 0x33221100#32)]

/-- A session just created from the IV of `cfbMem`. -/
def session (dir : Dir) (seg : BitVec 8) : Session :=
  { valid := true, ivPending := true, dir := dir, seg := seg, iv := 0x000102030405060708090A0B0C0D0E0F#128, prev := 0,
    ct := 0 }

/-- A running machine with that session and memory. -/
def cfb (dir : Dir) (seg : BitVec 8) : State := { State.reset with busy := true, dmem := cfbMem, sess := session dir seg }

theorem test_toy2 : toy2 0x000102030405060708090A0B0C0D0E0F#128 = 0x0225486B8EB1D4F807E6C5A483624110#128 := by decide

theorem test_cfbi : sessOf (exec (.cfbi .decryptor 0x0100 128) { State.reset with dmem := cfbMem }) =
    some (session .decryptor 128) := by decide +kernel

theorem test_cfbi_clauses :
    causeOf (exec (.cfbi .encryptor 0xFFFD 24) State.reset) = some 8 ∧
      causeOf (exec (.cfbi .encryptor 0 255) State.reset) = some 8 ∧
    causeOf (exec (.cfbi .encryptor 0xFFFD 8) State.reset) = some 11 ∧
    causeOf (exec (.cfbi .encryptor 0xFFFC 8) State.reset) = some 0 := by decide +kernel

theorem test_cfbp_seg8_block :
    ((processBlocks toy2 0x200 1 (cfb .encryptor 8)).dmem.blockAt 0x200 = 0x0212263642526E7E8292A6B6C2D2FEFC#128) ∧
    ((processBlocks toy2 0x200 1 (cfb .encryptor 128)).dmem.blockAt 0x200 = 0x02346A58CAE4B28F8F7F6F1F4FBFAFEF#128) := by
  decide +kernel

theorem test_cfbp_clauses :
    causeOf (exec (.cfbp 0xFFFF 255) State.reset) = some 7 ∧ causeOf (exec (.cfbp 0xFFFC 2) (cfb .encryptor 8)) = some 11 ∧
    causeOf (exec (.cfbp 0xFFFC 1) (cfb .encryptor 8)) = some 0 ∧
    sessOf (exec (.cfbp 0x200 0) (cfb .encryptor 8)) = some (session .encryptor 8) := by decide +kernel

/-- The session of the s = 16 row of 4.4.1 after its two blocks, in the decryption direction. -/
def usedSession : Session :=
  { session .decryptor 16 with
    ivPending := false, iv := 0, prev := 0xFEDACAA7C8A9C63BC42DC2AFC0A2DD00#128, ct := 0xCAED#128 }

theorem test_cfbs :
    wordOf (exec (.cfbs 0x300) { State.reset with sess := usedSession }) 0x304 = some 0xCAED0000#32 ∧
    wordOf (exec (.cfbs 0x300) { State.reset with sess := usedSession }) 0x308 = some 0x00001005#32 ∧
    wordOf (exec (.cfbs 0x300) (cfb .encryptor 8)) 0x308 = some 0x00000803#32 := by decide +kernel

theorem test_cfbs_clauses :
    causeOf (exec (.cfbs 0xFFF8) State.reset) = some 7 ∧ causeOf (exec (.cfbs 0xFFF8) (cfb .encryptor 8)) = some 11 ∧
    causeOf (exec (.cfbs 0xFFF7) (cfb .encryptor 8)) = some 0 := by decide +kernel

/-! ### The step, the host and reset -/

/-- A running machine at PC = 0 with one command there. -/
def running (w : Word) : State := { State.reset with busy := true, imem := [(0, w)] }

/-- A running machine past the last command of IMEM. -/
def pastImem : State := { running 0x08000000#32 with pc := 1024 }

/-- The machine after a fault in the run of `running 0xC8020001` (4.6, cause 7). -/
def faulted : State := (running 0xC8020001#32).raise .noSession

/-- What a step came to, projected. -/
def after {α : Type} (f : State → α) (r : Result) : Option α :=
  match r with
  | .next t => some (f t)
  | _ => none

/-- Cause 7 of 4.6: STATUS, FAULT_PC, FAULT_CMD and PC. -/
theorem test_fault_entry :
    after (fun t => (statusWord t, t.faultPc, t.faultCmd, t.pc)) (step (running 0xC8020001#32)) =
      some (0x00000704#32, 0, 0xC8020001#32, 0) := by decide +kernel

/-- FETCH_RANGE and ILLEGAL_COMMAND (4.5, 4.6). -/
theorem test_fetch_and_decode_faults :
    after (fun t => (statusWord t, t.faultPc, t.faultCmd)) (step pastImem) = some (0x00000104#32, 1024, 0) ∧
    after (fun t => (statusWord t, t.faultPc, t.faultCmd)) (step (running 0x38200001#32)) =
      some (0x00000204#32, 0, 0x38200001#32) := by decide +kernel

/-- The first instruction after reset, placed by `withFetchWord`, is the one that runs; also after a fault and past IMEM. -/
theorem test_withFetchWord :
    after (fun t => (t.buf 2, t.pc)) (step (State.reset.withFetchWord 32 0x32000010)) = some (reg [0, 0, 0, 0] 16, 1) ∧
    after (fun t => (t.buf 2, t.fault)) (step (faulted.withFetchWord 32 0x32000010)) = some (reg [0, 0, 0, 0] 16, false) ∧
    after (fun t => t.buf 2) (step (pastImem.withFetchWord 32 0x32000010)) = some (reg [0, 0, 0, 0] 16) := by decide +kernel

/-- H1 of 4.7: PARAMS; and SESSINFO of a new session (4.4.3). -/
theorem test_host_reads :
    (hostRead 0x0014 4 State.reset).hostData = 0x01040820#32 ∧
      (hostRead 0x0018 4 (cfb .encryptor 8)).hostData = 0x00000803#32 ∧
    (hostRead 0x40400 4 { State.reset with dmem := cfbMem }).hostData = 0x00010203#32 := by decide +kernel

/-- GO with IE, then GO again while BUSY: HOSTERR (R254, R256). -/
theorem test_host_go :
    statusWord (hostWrite 0 4 5 State.reset) = 0x00000001#32 ∧ (hostWrite 0 4 5 State.reset).ie = true ∧
    statusWord (hostWrite 0 4 1 (hostWrite 0 4 5 State.reset)) = 0x00000009#32 := by decide +kernel

theorem test_reset_memory_wf : Memory.wf Config.imemWords State.reset.imem ∧
    Memory.wf Config.dmemWords State.reset.dmem := by
  decide

/-! ### Witnesses: for each statement with hypotheses, a state and operands that meet them together -/

theorem witness_DecodeOfEncodeIsTheCommand : Instr.WellFormed (.cfbp 65535 255) = true := by decide

theorem witness_EncodeOfDecodeIsTheWord : decode 0xC8FFFFFF#32 = .ok (.cfbp 65535 255) := by decide

theorem witness_StepRunsTheDecodedCommand :
    (running 0x32000010#32).busy = true ∧ (running 0x32000010#32).pc.toNat < 1024 ∧
    decode ((running 0x32000010#32).imemWord (running 0x32000010#32).pc.toNat) = .ok (.bclr 2 16) ∧
    Instr.WellFormed (.bclr 2 16) = true ∧ (running 0x32000010#32).agenda = [] ∧
    { running 0x32000010#32 with agenda := [.sequencer] }.agenda = .sequencer :: [] := by decide

/-- Each clause, the key's both cases and the sequencer's turn with and without an agenda that names it. -/
theorem witness_OtherTurnsOfAStep :
    { State.reset with agenda := [.host .reset] }.agenda = .host .reset :: [] ∧
    { State.reset with agenda := [.host (.read 0x14 4)] }.agenda = .host (.read 0x14 4) :: [] ∧
    { State.reset with agenda := [.host (.write 0 4 1)] }.agenda = .host (.write 0 4 1) :: [] ∧
    (∀ s ∈ [State.reset, running 0#32], { s with agenda := [.host (.keyCipher 7)] }.agenda = .host (.keyCipher 7) :: []) ∧
    (∀ ag ∈ [[], [Turn.sequencer]],
      ({ State.reset with agenda := ag }.sequencerNext = true ∧ { State.reset with agenda := ag }.busy = false) ∧
      ({ running 0#32 with agenda := ag }.sequencerNext = true ∧ { running 0#32 with agenda := ag }.busy = true ∧
        { running 0#32 with agenda := ag }.pc.toNat < 1024 ∧
        decode ({ running 0#32 with agenda := ag }.imemWord { running 0#32 with agenda := ag }.pc.toNat) =
          .error .reservedOpcode)) := by decide

/-- A write turn of the agenda reaches the host port: GO sets BUSY (R250, R254); a key turn sets the key while idle only
(R258). -/
theorem test_host_turns :
    after (fun t => (t.busy, t.agenda)) (step { State.reset with agenda := [.host (.write 0 4 1), .sequencer] }) =
      some (true, [.sequencer]) ∧
    after (fun t => t.hostData) (step { State.reset with agenda := [.host (.read 0x14 4)] }) = some 0x01040820#32 ∧
    after (fun t => t.cipherKey) (step { State.reset with agenda := [.host (.keyCipher 7)] }) = some 7 ∧
    after (fun t => t.cipherKey) (step { running 0#32 with agenda := [.host (.keyCipher 7)] }) = some 0 := by decide +kernel

theorem witness_FetchPastImemFaults :
    { running 0#32 with pc := 1023 }.pc.toNat < 1024 ∧
    (∀ ag ∈ [[], [Turn.sequencer]], { pastImem with agenda := ag }.sequencerNext = true ∧
      { pastImem with agenda := ag }.busy = true ∧ 1024 ≤ { pastImem with agenda := ag }.pc.toNat) := by decide

theorem witness_FaultsArePrecise :
    let s := { running 0xC8020001#32 with agenda := [.sequencer] }
    s.sequencerNext = true ∧ s.busy = true ∧ s.fault = false ∧ ∃ t, step s = .next t ∧ t.fault = true :=
  ⟨rfl, rfl, rfl, _, rfl, rfl⟩

/-- `BLD b0, 0xFFFF, 200` meets CAPACITY and ADDRESS_RANGE (4.6). -/
theorem witness_LowestCauseCodeWins : (running 0x18FFFFC8#32).sequencerNext = true ∧ (running 0x18FFFFC8#32).busy = true ∧
    StepFaultCondition (running 0x18FFFFC8#32) .capacity ∧ StepFaultCondition (running 0x18FFFFC8#32) .addressRange ∧
    ∀ d, StepFaultCondition (running 0x18FFFFC8#32) d → Cause.capacity.code.toNat ≤ d.code.toNat := by
  have hd : decode ((running 0x18FFFFC8#32).imemWord (running 0x18FFFFC8#32).pc.toNat) = .ok (.bld 0 0xFFFF 200) := by decide
  have hp : (running 0x18FFFFC8#32).pc.toNat < 1024 := by decide
  have hc : 32 < ceil4 200 := by decide
  have ha : PastTop 0xFFFF (ceil4 200) := by decide
  refine ⟨rfl, rfl, ⟨hp, _, hd, hc⟩, ⟨hp, _, hd, ha⟩, ?_⟩
  intro d h
  cases d with
  | capacity => decide
  | addressRange => decide
  | fetchRange => exact absurd hp (Nat.not_lt.mpr h)
  | illegalCommand =>
    obtain ⟨_, e, he⟩ := h
    rw [hd] at he
    cases he
  | unwrittenBuffer | aliased | notImplemented | shiftRange | noSession | badSegment | lengthMismatch =>
    obtain ⟨_, i, hi, hf⟩ := h
    rw [hd] at hi
    cases hi
    exact hf.elim

theorem witness_CommandsCompleteWithinTheirFrame : ∀ c, ¬FaultCondition (.bst 1 0xFFFD) (one x10) c := by
  intro c
  cases c <;> simp only [FaultCondition, not_false_eq_true] <;> decide

theorem witness_FaultsDependOnNothingElse :
    (∀ r, { one x10 with ie := true, dmem := cfbMem, cipherKey := 3 }.buf r = (one x10).buf r) ∧
    { one x10 with ie := true, dmem := cfbMem, cipherKey := 3 }.sess = (one x10).sess := ⟨fun _ => rfl, rfl⟩

theorem witness_SstStoresTheScalar : 65535 < 65536 := by decide

theorem witness_XorIsWordwise : ((two x10 x10clamped).buf 1).sig = ((two x10 x10clamped).buf 2).sig →
    ((two x10 x10clamped).buf 1).len = ((two x10 x10clamped).buf 2).len := by decide

theorem witness_AndIsWordwise : ((one x10).buf 1).sig = ((one x10).buf 2).sig → ((one x10).buf 1).len =
    ((one x10).buf 2).len := by
  decide

theorem witness_SlicesReconstructTheBuffer : ((one x10).buf 1).Ok ∧ ((one x10).buf 1).valid = true ∧
    3 ≤ ((one x10).buf 1).sig ∧
    (2 : BufReg) ≠ 1 ∧ (3 : BufReg) ≠ 1 ∧ (2 : BufReg) ≠ 3 := by decide

theorem witness_XorIsAnInvolution :
    let s := two (reg [0x616263FF#32] 3) (reg [0x01010101#32] 3)
    (s.buf 1).Ok ∧ (s.buf 2).Ok ∧ (s.buf 1).valid = true ∧ (s.buf 2).valid = true ∧ (s.buf 1).sig = (s.buf 2).sig ∧
      (0 : BufReg) ≠ 2 := by decide

theorem witness_EqOfItselfAndOfOtherLengths : ((one x10).buf 1).valid = true ∧
    ((one x10).buf 1).sig ≠ ((one x10).buf 2).sig := by
  decide

/-- Both cases of the top bit. -/
theorem witness_DblAgreesWithShl :
    ∀ w ∈ [[0x7DF76B0C#32, 0x1AB899B3#32, 0x3E42F047#32, 0xB91B546F#32], [0xFBEED618#32, 0x35713366#32, 0x7C85E08F#32,
      0x7236A8DE#32]],
      ((one (reg w 16)).buf 1).valid = true ∧ ((one (reg w 16)).buf 1).len = 4 ∧ ((one (reg w 16)).buf 1).sig = 16 ∧
      (∃ m, exec (.msb 0 1) (one (reg w 16)) = .next m ∧ m.scalar 0 = (w.headD 0) >>> 31) ∧
      (∃ d, exec (.dbl 1) (one (reg w 16)) = .next d) ∧ (∃ h, exec (.shl 1 0 1) (one (reg w 16)) = .next h) := by
  intro w hw
  simp only [List.mem_cons, List.not_mem_nil, or_false] at hw
  rcases hw with rfl | rfl <;> exact ⟨rfl, rfl, rfl, ⟨_, rfl, rfl⟩, ⟨_, rfl⟩, _, rfl⟩

theorem witness_CfbpFollowsTheRecurrence : (cfb .encryptor 8).sess.Ok ∧ (cfb .encryptor 8).sess.valid = true ∧
    ¬PastTop 0xFFFC (4 * 1) ∧ ¬PastTop 0x200 (4 * 2) := by decide

/-- The same address, and for the decryption another one. -/
theorem witness_CfbRoundTrip : ∀ addr' ∈ [0x200, 0x400], ∃ s s' t t' : State, s.sess.Ok ∧ s.sess.valid = true ∧
    s.sess.dir = .encryptor ∧ ¬PastTop 0x200 (4 * 2) ∧ ¬PastTop addr' (4 * 2) ∧ exec (.cfbp 0x200 2) s = .next t ∧
    s'.sess = { s.sess with dir := .decryptor } ∧ s'.cipherKey = s.cipherKey ∧
    (∀ k, k < 4 * 2 → s'.dmemWord (addr' + k) = t.dmemWord (0x200 + k)) ∧ exec (.cfbp addr' 2) s' = .next t' := by
  intro addr' h
  simp only [List.mem_cons, List.not_mem_nil, or_false] at h
  let m := (processBlocks (Config.ciph 0) 0x200 2 (cfb .encryptor 8)).dmem
  refine ⟨cfb .encryptor 8, { cfb .decryptor 8 with dmem := m.setList addr' ((List.range 8).map fun k => m.dmemAt (0x200 + k)) },
    _, _, by decide, rfl, rfl, by decide, by rcases h with rfl | rfl <;> decide, rfl, rfl, rfl, ?_,
    exec_cfbp_completes rfl (by rcases h with rfl | rfl <;> decide)⟩
  intro k hk
  show (m.setList addr' _).dmemAt (addr' + k) = m.dmemAt (0x200 + k)
  simp [dmemAt_setList, hk]

/-- Two states whose block differs in its second segment only, for `m = 1`. -/
theorem witness_CfbOutputPrefix : ∃ s s' t t' : State, s.sess.Ok ∧ s.sess.valid = true ∧ ¬PastTop 0x200 (4 * 1) ∧
    s'.sess = s.sess ∧ s'.cipherKey = s.cipherKey ∧
    (segmentsOf s'.dmem s.sess.seg.toNat 0x200 1).take 1 = (segmentsOf s.dmem s.sess.seg.toNat 0x200 1).take 1 ∧
    s'.dmemWord 0x203 ≠ s.dmemWord 0x203 ∧
    exec (.cfbp 0x200 1) s = .next t ∧ exec (.cfbp 0x200 1) s' = .next t' :=
  ⟨cfb .encryptor 64, { cfb .encryptor 64 with dmem := cfbMem.set 0x203 0#32 }, _, _,
    by decide, rfl, by decide, rfl, rfl, by decide +kernel, by decide +kernel, rfl, rfl⟩

theorem witness_TheIvIsUsedOnce :
    ((cfb .encryptor 8).sess.Ok ∧ (cfb .encryptor 8).sess.valid = true ∧ ¬PastTop 0x200 (4 * 1) ∧ 1 ≤ 1 ∧
      ∃ t, exec (.cfbp 0x200 1) (cfb .encryptor 8) = .next t) ∧
    (State.reset.sess.iv = 0 ∧ State.reset.sess.ivPending = false ∧ (∃ t, exec .nop State.reset = .next t) ∧
      ∀ dir addr seg, Instr.nop ≠ .cfbi dir addr seg) ∧
    ({ session .encryptor 128 with ivPending := false }.ivPending = false ∧
      { session .encryptor 128 with ivPending := false }.seg = 128) :=
  ⟨⟨by decide, rfl, by decide, by decide, _, rfl⟩, ⟨rfl, rfl, ⟨_, rfl⟩, by simp⟩, rfl, rfl⟩

/-- A running state that has the invariant: a program at PC = 0, a written buffer and a session. -/
def sound : State := { one x10 with imem := [(0, 0x32000010#32)], dmem := cfbMem, sess := session .encryptor 8 }

theorem sound_inv : sound.Inv := by constructor <;> decide

theorem witness_EveryStepKeepsTheInvariant : sound.Inv ∧ ∃ t, step sound = .next t := ⟨sound_inv, _, rfl⟩

/-- A run with host turns and a sequencer's turn in its agenda, no RESET among them; and a run that starts past IMEM. -/
theorem witness_EveryRunEnds : sound.busy = true ∧ pastImem.busy = true ∧
    (let s := { sound with agenda := [.host (.read 0x04 4), .sequencer, .host (.write 0x08 4 5)] };
      s.busy = true ∧ ∀ turn ∈ s.agenda, turn ≠ .host .reset ∧ turn ≠ .host .resetDuringStep) := by decide

/-- `HALT` with a host read before it: one sequencer step, which runs the one command of the run (R204). -/
theorem test_run_counts :
    let s := { running 0x10000000#32 with agenda := [.host (.read 0x04 4)] }
    countSteps State.takesStep 2 s = 1 ∧ countSteps State.runsCommand 2 s = 1 ∧
      countSteps State.takesStep 1 pastImem = 1 ∧ countSteps State.runsCommand 1 pastImem = 0 := by decide +kernel

theorem witness_ResetBetweenSteps : { sound with agenda := [.host .reset] }.agenda = .host .reset :: [] := rfl

/-- `CFBS 0xFFFC` cut short by reset: the last existing word of its span is 65535; and each way in which no command runs. -/
theorem witness_ResetDuringAStep :
    (let s := { running 0xD0FFFC00#32 with agenda := [.host .resetDuringStep] };
      s.agenda = .host .resetDuringStep :: [] ∧ s.busy = true ∧ s.pc.toNat < 1024 ∧
      decode (s.imemWord s.pc.toNat) = .ok (.cfbs 0xFFFC) ∧
      (0xFFFB < (commandSpan (.cfbs 0xFFFC) s).1 ∨
        (commandSpan (.cfbs 0xFFFC) s).1 + (commandSpan (.cfbs 0xFFFC) s).2 ≤ 0xFFFB) ∧
      (commandSpan (.cfbs 0xFFFC) s).1 ≤ 65535 ∧
      65535 < (commandSpan (.cfbs 0xFFFC) s).1 + (commandSpan (.cfbs 0xFFFC) s).2 ∧ 65535 < 65536) ∧
    State.reset.busy = false ∧ 1024 ≤ pastImem.pc.toNat ∧
    decode ((running 0#32).imemWord (running 0#32).pc.toNat) = .error .reservedOpcode := by decide

theorem witness_WritesWaitForIdle : (1023 < 1024 ∧ 0x01000 + 4 * 1023 = 0x01FFC) ∧ (65535 < 65536 ∧
    0x40000 + 4 * 65535 = 0x7FFFC) := by
  decide

theorem witness_BadTransactionsAreRefused : (2 ≠ 4 ∨ (0x00000#19).toNat % 4 ≠ 0) ∧
    (4 ≠ 4 ∨ (0x00002#19).toNat % 4 ≠ 0) := by decide

theorem witness_ReadOnlyWritesAreIgnored :
    ∀ k : Fin 2, let off := #v[0x00004#19, 0x00FFC#19][k]
      off.toNat < 0x1000 ∧ off.toNat % 4 = 0 ∧ off.toNat ≠ 0x00 ∧ off.toNat ≠ 0x08 := by decide

theorem witness_HostRegisterReads : ∀ k : Fin 9,
    let off := #v[0x00#19, 0x04#19, 0x08#19, 0x0C#19, 0x10#19, 0x14#19, 0x18#19, 0x1C#19, 0xFFC#19][k]
    off.toNat < 0x1000 ∧ off.toNat % 4 = 0 := by decide

theorem witness_HostMemoryReads : 1023 < 1024 ∧ 65535 < 65536 ∧
    (0x02000 ≤ (0x02000#19).toNat ∧ (0x02000#19).toNat < 0x40000 ∧ (0x02000#19).toNat % 4 = 0) ∧
    (0x02000 ≤ (0x3FFFC#19).toNat ∧ (0x3FFFC#19).toNat < 0x40000 ∧ (0x3FFFC#19).toNat % 4 = 0) := by decide

theorem witness_ClearAndGoResumeAtTheFault :
    sound.Inv ∧ sound.busy = true ∧ (3#32).getLsbD 0 = true ∧ (3#32).getLsbD 1 = true := ⟨sound_inv, rfl, rfl, rfl⟩

end Sys2Proof.Tests
end

section
/-! The scope family: BCLR (R210), CLAMP (R102) and SHL (R104). The arithmetic of the shift stands first: `shlWords` and
`shiftCarry` are the two digits of one number, the buffer's value times `2 ^ n`. -/

namespace Sys2Proof.Machine

/-! ### The meanings as shapes of R14 -/

theorem exec_bclr (rd : BufReg) (n : Nat) (s : State) : exec (.bclr rd n) s = execBclr rd n s := rfl

theorem exec_clamp (rd : BufReg) (s : State) : exec (.clamp rd) s = execClamp rd s := rfl

theorem exec_shl (rd : BufReg) (ra : ScalarReg) (n : Int) (s : State) : exec (.shl rd ra n) s = execShl rd ra n s := rfl

/-! ### BCLR -/

/-- The capacity of 32 words is one of 128 bytes (R8, R9). -/
theorem ceil4_le_bufCapWords_iff {n : Nat} : ceil4 n ≤ Config.bufCapWords ↔ n ≤ 128 := by
  simp only [ceil4, Config.bufCapWords]
  omega

theorem packWord_replicate_zero (n j : Nat) : packWord (List.replicate n 0) j = 0 := by
  have hbyte (k : Nat) : (List.replicate n (0 : Byte)).getD k 0 = 0 := by
    rcases Nat.lt_or_ge k n with h | h <;> simp [List.getD, h]
  simp only [packWord, hbyte]
  rfl

theorem mkBuf_replicate_zero (n : Nat) :
    mkBuf (List.replicate n 0) = { valid := true, w := List.replicate (ceil4 n) 0, sig := n } := by
  have hwords : packWord (List.replicate n 0) = Function.const Nat 0 := funext (packWord_replicate_zero n)
  rw [mkBuf, hwords, List.map_const, List.length_range, List.length_replicate]

/-- Settles O19: CAPACITY is the only fault, and `mk` of `n` zero bytes packs to zero words. -/
theorem bclrMakesZeroBytes : Obligations.BclrMakesZeroBytes := by
  intro s rd n
  rw [exec_bclr, execBclr]
  split
  next hn => exact require_neg (mt ceil4_le_bufCapWords_iff.mp (by omega)) ..
  next hn =>
    rw [require_pos (ceil4_le_bufCapWords_iff.mpr (by omega)), complete_eq]
    exact ⟨_, rfl, completedBut_setBuf .., rfl, by rw [buf_advance, buf_setBuf_self, mkBuf_replicate_zero]⟩

/-! ### CLAMP -/

/-- Settles O21: the clamp of a written buffer is the clamped buffer of its significant bytes. -/
theorem clampZeroesStaleBytes : Obligations.ClampZeroesStaleBytes := by
  intro s rd
  rw [exec_clamp, execClamp]
  split
  next hv => exact withBuffer_neg hv _
  next hv =>
    have hvalid : (s.buf rd).valid = true := by simpa using hv
    rw [withBuffer_pos hvalid, complete_eq]
    refine ⟨_, rfl, completedBut_setBuf .., rfl, ?_⟩
    rw [buf_advance, buf_setBuf_self]
    exact holds_clampv hvalid

/-! ### SHL: the arithmetic of a shifted word list -/

/-- The bits a word sends out are the quotient of the shifted word. -/
theorem toNat_shiftCarry_cons {n : Nat} (hn : n ≤ 32) (x : Word) (xs : List Word) :
    (shiftCarry n (x :: xs)).toNat = x.toNat * 2 ^ n / 2 ^ 32 := by
  have hx := x.isLt
  by_cases h0 : n = 0
  · subst h0
    simp [shiftCarry, Nat.div_eq_of_lt hx]
  · have hpow : 2 ^ 32 = 2 ^ (32 - n) * 2 ^ n := by rw [← pow_add, Nat.sub_add_cancel hn]
    rw [hpow, Nat.mul_div_mul_right _ _ (Nat.two_pow_pos n)]
    simp [shiftCarry, h0, Nat.shiftRight_eq_div_pow]

theorem toNat_shiftCarry_lt {n : Nat} (hn : n ≤ 32) (w : List Word) : (shiftCarry n w).toNat < 2 ^ n := by
  cases w with
  | nil => simp [shiftCarry]
  | cons x xs =>
    rw [toNat_shiftCarry_cons hn, Nat.div_lt_iff_lt_mul (Nat.two_pow_pos 32), Nat.mul_comm]
    exact Nat.mul_lt_mul_of_pos_left x.isLt (Nat.two_pow_pos n)

/-- The carry of the next word lands in the `n` bits the shift has cleared, so the OR is a sum. -/
theorem toNat_shiftLeft_or {n : Nat} (hn : n ≤ 32) (x c : Word) (hc : c.toNat < 2 ^ n) :
    ((x <<< n) ||| c).toNat = x.toNat * 2 ^ n % 2 ^ 32 + c.toNat := by
  have hpow : 2 ^ 32 = 2 ^ (32 - n) * 2 ^ n := by rw [← pow_add, Nat.sub_add_cancel hn]
  rw [BitVec.toNat_or, BitVec.toNat_shiftLeft, Nat.shiftLeft_eq, hpow, Nat.mul_mod_mul_right, Nat.mul_comm _ (2 ^ n),
    Nat.two_pow_add_eq_or_of_lt hc]

/-- The number a word list is, shifted left by `n`: the overflow above the words of the shifted list (R101). -/
theorem wordsValue_mul_two_pow {n : Nat} (hn : n ≤ 32) (w : List Word) :
    wordsValue w * 2 ^ n = (shiftCarry n w).toNat * 2 ^ (32 * w.length) + wordsValue (shlWords n w) := by
  induction w with
  | nil => simp [shiftCarry, shlWords]
  | cons x xs ih =>
    have hword := Nat.div_add_mod (x.toNat * 2 ^ n) (2 ^ 32)
    rw [shlWords, wordsValue_cons, wordsValue_cons, toNat_shiftCarry_cons hn,
      toNat_shiftLeft_or hn _ _ (toNat_shiftCarry_lt hn xs), length_shlWords, List.length_cons, Nat.mul_add 32, pow_add]
    generalize x.toNat * 2 ^ n / 2 ^ 32 = q at *
    generalize x.toNat * 2 ^ n % 2 ^ 32 = r at *
    calc (x.toNat * 2 ^ (32 * xs.length) + wordsValue xs) * 2 ^ n
        = x.toNat * 2 ^ n * 2 ^ (32 * xs.length) + wordsValue xs * 2 ^ n := by ring
      _ = (2 ^ 32 * q + r) * 2 ^ (32 * xs.length)
          + ((shiftCarry n xs).toNat * 2 ^ (32 * xs.length) + wordsValue (shlWords n xs)) := by rw [ih, hword]
      _ = _ := by ring

/-- The shifted words are the shifted number modulo the buffer's size (R101). -/
theorem wordsValue_shlWords {n : Nat} (hn : n ≤ 32) (w : List Word) :
    wordsValue (shlWords n w) = wordsValue w * 2 ^ n % 2 ^ (32 * w.length) := by
  have hlt := length_shlWords n w ▸ wordsValue_lt (shlWords n w)
  rw [wordsValue_mul_two_pow hn, Nat.mul_add_mod', Nat.mod_eq_of_lt hlt]

/-- The overflow is what the shifted number has above the buffer's size (R101). -/
theorem toNat_shiftCarry {n : Nat} (hn : n ≤ 32) (w : List Word) :
    (shiftCarry n w).toNat = wordsValue w * 2 ^ n / 2 ^ (32 * w.length) := by
  have hlt := length_shlWords n w ▸ wordsValue_lt (shlWords n w)
  rw [wordsValue_mul_two_pow hn, Nat.mul_comm _ (2 ^ _), Nat.mul_add_div (Nat.two_pow_pos _), Nat.div_eq_of_lt hlt,
    Nat.add_zero]

/-- Settles O22: the three checks in their order, then the quotient and the remainder of the shifted number. -/
theorem shlShiftsTheWholeBuffer : Obligations.ShlShiftsTheWholeBuffer := by
  intro s rd ra n
  rw [exec_shl, execShl]
  split
  next hv => exact withBuffer_neg hv _
  next hv =>
    rw [withBuffer_pos (by simpa using hv)]
    split
    next hneg => exact require_neg (by omega) ..
    next hneg =>
      rw [require_pos (by omega)]
      split
      next hbig => exact require_neg (by omega) ..
      next hbig =>
        have hn : n.toNat ≤ 32 := by omega
        rw [require_pos (by omega), complete_eq]
        refine ⟨_, rfl, completedBut_setBuf_setScalar .., rfl, ?_⟩
        rw [buf_advance, buf_setScalar, buf_setBuf_self, scalar_advance, scalar_setScalar_self]
        exact ⟨rfl, rfl, length_shlWords .., wordsValue_shlWords hn _, toNat_shiftCarry hn _⟩

end Sys2Proof.Machine
end

section
/-! The state family, the invariant (O47). A turn keeps the invariant because every operation a meaning is built from does:
first the values (buffers, sessions), then the writes of registers and memory, then the shapes of R14, the 24 commands, and
the turns of the sequencer and of the environment. -/

namespace Sys2Proof.Machine

/-! ### Buffer values -/

theorem Buf.Ok.invalid : Buf.invalid.Ok := by decide

/-- A written buffer value is sound when it has the words its `sig` needs and no more than a register holds (R21, R24). -/
theorem Buf.Ok.written {w : List Word} {sig : Nat} (hl : w.length = ceil4 sig) (hc : ceil4 sig ≤ Config.bufCapWords) :
    Buf.Ok { valid := true, w := w, sig := sig } := by
  have hbytes : sig ≤ 4 * ceil4 sig := by
    rw [ceil4]
    omega
  exact ⟨fun _ => ⟨hl.trans_le hc, hbytes.trans_eq (congrArg (4 * ·) hl.symm), hl⟩, nofun⟩

theorem Buf.Ok.mkBuf {l : List Byte} (hc : ceil4 l.length ≤ Config.bufCapWords) : (mkBuf l).Ok :=
  Buf.Ok.written (mkBuf_len l) hc

theorem Buf.Ok.len_eq {b : Buf} (h : b.Ok) (hv : b.valid = true) : b.w.length = ceil4 b.sig := by
  obtain ⟨-, -, hlen⟩ := h.1 hv
  exact hlen

theorem Buf.Ok.ceil4_sig_le {b : Buf} (h : b.Ok) (hv : b.valid = true) : ceil4 b.sig ≤ Config.bufCapWords :=
  h.len_eq hv ▸ (h.1 hv).1

/-- A run of a sound buffer's bytes that is no longer than its `sig` fits a register. -/
theorem Buf.Ok.ceil4_le {b : Buf} (h : b.Ok) (hv : b.valid = true) {n : Nat} (hn : n ≤ b.sig) :
    ceil4 n ≤ Config.bufCapWords := by
  have hcap := h.ceil4_sig_le hv
  rw [ceil4_le_bufCapWords_iff] at hcap ⊢
  omega

theorem Buf.Ok.clampv {b : Buf} (h : b.Ok) (hv : b.valid = true) : b.clampv.Ok := by
  rw [clampv_eq_mkBuf b hv]
  exact .mkBuf (by simpa using h.ceil4_sig_le hv)

/-! ### Session values -/

/-- A keystream segment lies in the low SEG bits (R174). -/
theorem keystream_toNat_lt (ciph : Block → Block) {ss : Session} (hseg : ss.seg.toNat ≤ 128) :
    (ss.keystream ciph).toNat < 2 ^ ss.seg.toNat := by
  refine toNat_lt_of_low fun k hk => ?_
  rw [Session.keystream, BitVec.getLsbD_ushiftRight]
  exact BitVec.getLsbD_of_ge _ _ (by omega)

theorem getSegment_toNat_lt (v : Block) (s j : Nat) : (getSegment v s j).toNat < 2 ^ s :=
  toNat_lt_of_low fun _ hk => getSegment_high hk

/-- A segment step keeps a sound session sound: the newest ciphertext segment is the input or the output, and both lie in the
low SEG bits; the IV is gone (R173 to R176). -/
theorem Session.Ok.segmentStep {ciph : Block → Block} {ss : Session} {x : Block} (h : ss.Ok) (hv : ss.valid = true)
    (hx : x.toNat < 2 ^ ss.seg.toNat) : (segmentStep ciph ss x).1.Ok := by
  obtain ⟨hsession, -, hiv, -⟩ := h
  obtain ⟨hseg, -⟩ := hsession hv
  have hle : ss.seg.toNat ≤ 128 := by
    simp only [Config.segmentSet, List.mem_cons, List.not_mem_nil, or_false] at hseg
    omega
  have hy : (x ^^^ ss.keystream ciph).toNat < 2 ^ ss.seg.toNat := by
    rw [BitVec.toNat_xor]
    exact Nat.xor_lt_two_pow hx (keystream_toNat_lt ciph hle)
  refine ⟨fun _ => ⟨hseg, ?_⟩, nofun, fun _ => ?_, fun hinv => absurd (hv.symm.trans hinv) (by decide)⟩
  · cases hdir : ss.dir with
    | encryptor => simpa [Machine.segmentStep, hdir] using hy
    | decryptor => simpa [Machine.segmentStep, hdir] using hx
  · cases hp : ss.ivPending with
    | true => simp [Machine.segmentStep, hp]
    | false => simpa [Machine.segmentStep, hp] using hiv hp

theorem Session.Ok.segmentLoop {ciph : Block → Block} (n j : Nat) {ss : Session} (v : Block) (h : ss.Ok)
    (hv : ss.valid = true) : (segmentLoop ciph n j ss v).1.Ok := by
  induction n generalizing j ss v with
  | zero => exact h
  | succ n ih => exact ih _ _ (h.segmentStep hv (getSegment_toNat_lt ..)) hv

theorem Session.Ok.blockLoop {ciph : Block → Block} (n a : Nat) {ss : Session} (m : Memory) (h : ss.Ok)
    (hv : ss.valid = true) : (blockLoop ciph n a ss m).1.Ok := by
  induction n generalizing a ss m with
  | zero => exact h
  | succ n ih =>
    have hkeeps := segmentLoop_keeps ciph ss (128 / ss.seg.toNat) 0 (m.blockAt a)
    exact ih _ _ (h.segmentLoop _ _ _ hv) (hkeeps.1.trans hv)

/-- The session CFBI makes is sound: its segment size is legal and survives in eight bits (R171). -/
theorem Session.Ok.created {dir : Dir} {seg : Nat} {iv : Block} (hseg : seg ∈ Config.segmentSet) :
    Session.Ok { valid := true, ivPending := true, dir := dir, seg := BitVec.ofNat 8 seg, iv := iv, prev := 0, ct := 0 } := by
  have hfits : (BitVec.ofNat 8 seg).toNat = seg := by
    simp only [Config.segmentSet, List.mem_cons, List.not_mem_nil, or_false] at hseg
    exact Nat.mod_eq_of_lt (by omega)
  refine ⟨fun _ => ⟨hfits.symm ▸ hseg, Nat.two_pow_pos _⟩, fun _ => ⟨rfl, rfl, rfl⟩, nofun, nofun⟩

section Invariant

variable {s : State}

/-! ### The writes of the state -/

/-- The registers no clause of the invariant speaks of may hold anything. -/
theorem State.Inv.withFree (h : s.Inv) (scalars : Vector Word Config.nscalar) (pc : BitVec 11) (ie hostErr : Bool)
    (agenda : List Turn) (hostData : Word) (draws cipherKey : Nat) :
    State.Inv
      { s with
        scalars := scalars, pc := pc, ie := ie, hostErr := hostErr, agenda := agenda, hostData := hostData,
        draws := draws, cipherKey := cipherKey } :=
  ⟨h.bufs, h.sess, h.status, h.imem, h.dmem⟩

theorem State.Inv.setBuf (h : s.Inv) (r : BufReg) {v : Buf} (hv : v.Ok) : (s.setBuf r v).Inv where
  bufs q := by
    rw [buf_setBuf]
    split
    · exact hv
    · exact h.bufs q
  sess := h.sess
  status := h.status
  imem := h.imem
  dmem := h.dmem

theorem State.Inv.setScalar (h : s.Inv) (q : ScalarReg) (v : Word) : (s.setScalar q v).Inv := h.withFree ..

theorem State.Inv.advance (h : s.Inv) : s.advance.Inv := h.withFree ..

theorem State.Inv.turnTaken (h : s.Inv) : s.turnTaken.Inv := h.withFree ..

theorem State.Inv.setSess (h : s.Inv) {ss : Session} (hss : ss.Ok) : State.Inv { s with sess := ss } :=
  ⟨h.bufs, hss, h.status, h.imem, h.dmem⟩

theorem State.Inv.setImem (h : s.Inv) {m : Memory} (hm : Memory.wf Config.imemWords m) : State.Inv { s with imem := m } :=
  ⟨h.bufs, h.sess, h.status, hm, h.dmem⟩

theorem State.Inv.setDmem (h : s.Inv) {m : Memory} (hm : Memory.wf Config.dmemWords m) : State.Inv { s with dmem := m } :=
  ⟨h.bufs, h.sess, h.status, h.imem, hm⟩

theorem State.Inv.memWrite (h : s.Inv) {a : Nat} {vs : List Word} (hfit : spanFits a vs.length = true) :
    (s.memWrite a vs).Inv :=
  h.setDmem (wf_setList h.dmem ((spanFits_iff.mp hfit).imp_left List.length_eq_zero_iff.mp))

theorem State.Inv.processBlocks (h : s.Inv) (ciph : Block → Block) {a n : Nat} (hv : s.sess.valid = true)
    (hfit : spanFits a (4 * n) = true) : (processBlocks ciph a n s).Inv :=
  have hspan : n = 0 ∨ a + 4 * n ≤ Config.dmemWords := (spanFits_iff.mp hfit).imp_left (by omega)
  (h.setDmem (blockLoop_wf ciph s.sess n a h.dmem hspan)).setSess (h.sess.blockLoop n a s.dmem hv)

theorem State.Inv.applyReset (h : s.Inv) : (applyReset s).Inv where
  bufs r := (buf_reset r).symm ▸ Buf.Ok.invalid
  sess := show Session.empty.Ok by decide
  status := show State.reset.StatusOk by decide
  imem := h.imem
  dmem := h.dmem

/-! ### STATUS -/

theorem Cause.code_range (c : Cause) : 1 ≤ c.code.toNat ∧ c.code.toNat ≤ 11 := by cases c <;> decide

/-- The fault entry of a run in progress: DONE is 0 because BUSY was 1 (R39, R234). -/
theorem State.Inv.raise (h : s.Inv) (hb : s.busy = true) (c : Cause) : (s.raise c).Inv where
  bufs := h.bufs
  sess := h.sess
  status := by
    obtain ⟨hdone, -⟩ := h.status.1 hb
    exact ⟨nofun, fun hd => absurd (hdone.symm.trans hd) (by decide), fun _ => c.code_range, nofun⟩
  imem := h.imem
  dmem := h.dmem

/-- The end of a run in progress by HALT: FAULT is 0 because BUSY was 1 (R39, R206). -/
theorem State.Inv.halted (h : s.Inv) (hb : s.busy = true) : State.Inv { s with busy := false, done := true } where
  bufs := h.bufs
  sess := h.sess
  status := by
    obtain ⟨hrun, -, hfault, hclean⟩ := h.status
    exact ⟨nofun, fun _ => (hrun hb).2, hfault, hclean⟩
  imem := h.imem
  dmem := h.dmem

theorem State.Inv.clear (h : s.Inv) : s.clear.Inv := by
  cases hb : s.busy with
  | true =>
    rw [clear_of_busy hb]
    exact h.withFree ..
  | false =>
    rw [clear_of_idle hb]
    exact ⟨h.bufs, h.sess, ⟨fun hb' => absurd (hb.symm.trans hb') (by decide), nofun, nofun, fun _ => ⟨rfl, rfl, rfl⟩⟩,
      h.imem, h.dmem⟩

theorem State.Inv.go (h : s.Inv) : s.go.Inv := by
  by_cases hgo : s.busy = true ∨ s.fault = true
  · rw [go_refused hgo]
    exact h.withFree ..
  · obtain ⟨hb, hf⟩ : s.busy = false ∧ s.fault = false := by simpa using hgo
    rw [go_accepted hb hf]
    obtain ⟨-, -, hfault⟩ := h.status
    exact ⟨h.bufs, h.sess, ⟨fun _ => ⟨rfl, hf⟩, nofun, hfault⟩, h.imem, h.dmem⟩

/-! ### The shapes of a meaning -/

/-- If this result is a next state, that state has the invariant. -/
def KeepsInv (r : Result) : Prop := ∀ t, r = .next t → t.Inv

theorem keepsInv_next {t : State} (h : t.Inv) : KeepsInv (.next t) := by
  rintro _ ⟨⟩
  exact h

theorem keepsInv_complete (h : s.Inv) : KeepsInv (complete s) := keepsInv_next h.advance

theorem keepsInv_require {p : Prop} [Decidable p] {c : Cause} {k : Result} (h : s.Inv) (hb : s.busy = true)
    (hk : p → KeepsInv k) : KeepsInv (require p c s k) := by
  intro t ht
  rcases require_next.mp ht with ⟨hp, hnext⟩ | ⟨-, rfl⟩
  · exact hk hp t hnext
  · exact h.raise hb c

theorem keepsInv_withBuffer {r : BufReg} {k : Buf → Result} (h : s.Inv) (hb : s.busy = true)
    (hk : (s.buf r).valid = true → KeepsInv (k (s.buf r))) : KeepsInv (withBuffer s r k) := by
  intro t ht
  rcases withBuffer_next.mp ht with ⟨hv, hnext⟩ | ⟨-, rfl⟩
  · exact hk hv t hnext
  · exact h.raise hb _

/-! ### The commands -/

section Commands

variable (h : s.Inv) (hb : s.busy = true)
include h hb

theorem execHalt_keepsInv : KeepsInv (execHalt s) := keepsInv_complete (h.halted hb)

theorem execBld_keepsInv (rd : BufReg) (addr n : Nat) : KeepsInv (execBld rd addr n s) :=
  keepsInv_require h hb fun hcap =>
  keepsInv_require h hb fun _ =>
  keepsInv_complete (h.setBuf rd (.written (length_memRead ..) hcap))

theorem execBst_keepsInv (r : BufReg) (addr : Nat) : KeepsInv (execBst r addr s) :=
  keepsInv_withBuffer h hb fun _ =>
  keepsInv_require h hb fun hfit =>
  keepsInv_complete (h.memWrite hfit)

theorem execSst_keepsInv (r : ScalarReg) (addr : Nat) : KeepsInv (execSst r addr s) :=
  keepsInv_require h hb fun hfit =>
  keepsInv_complete (h.memWrite hfit)

theorem execBclr_keepsInv (rd : BufReg) (n : Nat) : KeepsInv (execBclr rd n s) :=
  keepsInv_require h hb fun hcap =>
  keepsInv_complete (h.setBuf rd (.mkBuf (by simpa using hcap)))

theorem execBmov_keepsInv (rd ra : BufReg) : KeepsInv (execBmov rd ra s) :=
  keepsInv_withBuffer h hb fun _ =>
  keepsInv_complete (h.setBuf rd (h.bufs ra))

theorem execClamp_keepsInv (rd : BufReg) : KeepsInv (execClamp rd s) :=
  keepsInv_withBuffer h hb fun hv =>
  keepsInv_complete (h.setBuf rd ((h.bufs rd).clampv hv))

theorem execShl_keepsInv (rd : BufReg) (ra : ScalarReg) (n : Int) : KeepsInv (execShl rd ra n s) :=
  keepsInv_withBuffer h hb fun hv =>
  keepsInv_require h hb fun _ =>
  keepsInv_require h hb fun _ =>
  have hlen := (length_shlWords ..).trans ((h.bufs rd).len_eq hv)
  keepsInv_complete ((h.setBuf rd (.written hlen ((h.bufs rd).ceil4_sig_le hv))).setScalar ..)

/-- LMW clamps (R110), so it leaves as many words as the significant bytes it keeps need. -/
theorem execLmw_keepsInv (rd ra : BufReg) (n : Nat) : KeepsInv (execLmw rd ra n s) :=
  keepsInv_withBuffer h hb fun hv =>
  keepsInv_require h hb fun _ =>
  keepsInv_complete (h.setBuf rd (.written (clampv_len _) ((h.bufs ra).ceil4_le hv (min_le_left ..))))

theorem execLmb_keepsInv (rd ra : BufReg) (n : Nat) : KeepsInv (execLmb rd ra n s) :=
  keepsInv_withBuffer h hb fun hv =>
  keepsInv_require h hb fun hn =>
  keepsInv_complete (h.setBuf rd (.mkBuf (by simpa using (h.bufs ra).ceil4_le hv hn)))

theorem execRmb_keepsInv (rd ra : BufReg) (n : Nat) : KeepsInv (execRmb rd ra n s) :=
  keepsInv_withBuffer h hb fun hv =>
  keepsInv_require h hb fun hn =>
  keepsInv_complete ((h.setBuf ra ((h.bufs ra).clampv hv)).setBuf rd
    (.mkBuf (by simpa using (h.bufs ra).ceil4_le hv hn)))

/-- POPW splits a word list with no word beyond its `sig` (R24) at a word boundary, so neither part has one. -/
theorem execPopw_keepsInv (rd ra : BufReg) (n : Nat) : KeepsInv (execPopw rd ra n s) :=
  keepsInv_withBuffer h hb fun hv =>
  keepsInv_require h hb fun _ =>
  keepsInv_require h hb fun hn => by
    have hlen := (h.bufs ra).len_eq hv
    have htake : ((s.buf ra).w.take n).length = ceil4 (4 * n) := by
      rw [List.length_take, hlen, ceil4, ceil4]
      omega
    have hdrop : ((s.buf ra).w.drop n).length = ceil4 ((s.buf ra).sig - 4 * n) := by
      rw [List.length_drop, hlen, ceil4, ceil4]
      omega
    exact keepsInv_complete ((h.setBuf rd (.written htake ((h.bufs ra).ceil4_le hv hn))).setBuf ra
      (.written hdrop ((h.bufs ra).ceil4_le hv (Nat.sub_le ..))))

theorem execShob_keepsInv (rd ra : BufReg) (n : Nat) : KeepsInv (execShob rd ra n s) :=
  keepsInv_withBuffer h hb fun hv =>
  keepsInv_require h hb fun _ =>
  keepsInv_require h hb fun _ => by
    have htake : ((s.buf ra).sigBytes.take n).length ≤ (s.buf ra).sig := by simp
    have hdrop : ((s.buf ra).sigBytes.drop n).length ≤ (s.buf ra).sig := by simp
    exact keepsInv_complete ((h.setBuf rd (.mkBuf ((h.bufs ra).ceil4_le hv htake))).setBuf ra
      (.mkBuf ((h.bufs ra).ceil4_le hv hdrop)))

/-- XOR and AND: equal `sig` gives equal lengths (R24), so no word of either source is left out. -/
theorem wordwise_keepsInv (f : Word → Word → Word) (rd ra rb : BufReg) : KeepsInv (wordwise f rd ra rb s) :=
  keepsInv_withBuffer h hb fun hva =>
  keepsInv_withBuffer h hb fun hvb =>
  keepsInv_require h hb fun hsig => by
    have hlen : (List.zipWith f (s.buf ra).w (s.buf rb).w).length = ceil4 (s.buf ra).sig := by
      rw [List.length_zipWith, (h.bufs ra).len_eq hva, (h.bufs rb).len_eq hvb, hsig, Nat.min_self]
    exact keepsInv_complete (h.setBuf rd (.written hlen ((h.bufs ra).ceil4_sig_le hva)))

theorem execXort_keepsInv (rd ra rb : BufReg) : KeepsInv (execXort rd ra rb s) :=
  keepsInv_withBuffer h hb fun hva =>
  keepsInv_withBuffer h hb fun _ =>
  keepsInv_require h hb fun hsig =>
  keepsInv_complete (h.setBuf rd (.mkBuf ((h.bufs ra).ceil4_le hva (by simp [Nat.sub_add_cancel hsig]))))

omit hb in
/-- EQ has no fault (R140), so it needs no run in progress. -/
theorem execEq_keepsInv (rd : ScalarReg) (ra rb : BufReg) : KeepsInv (execEq rd ra rb s) := by
  rw [execEq]
  split
  · exact keepsInv_complete (h.setScalar ..)
  · next hvalid =>
    obtain ⟨hva, hvb⟩ : (s.buf ra).valid = true ∧ (s.buf rb).valid = true := by simpa using hvalid
    split
    · exact keepsInv_complete (h.setScalar ..)
    · exact keepsInv_complete
        (((h.setBuf ra ((h.bufs ra).clampv hva)).setBuf rb ((h.bufs rb).clampv hvb)).setScalar ..)

theorem execMsb_keepsInv (rd : ScalarReg) (ra : BufReg) : KeepsInv (execMsb rd ra s) :=
  keepsInv_withBuffer h hb fun _ =>
  keepsInv_require h hb fun _ =>
  keepsInv_complete (h.setScalar ..)

theorem execCat_keepsInv (rd ra rb : BufReg) : KeepsInv (execCat rd ra rb s) :=
  keepsInv_withBuffer h hb fun _ =>
  keepsInv_withBuffer h hb fun _ =>
  keepsInv_require h hb fun hcap =>
  keepsInv_complete (h.setBuf rd (.mkBuf (by simpa using hcap)))

theorem execDbl_keepsInv (rd : BufReg) : KeepsInv (execDbl rd s) :=
  keepsInv_withBuffer h hb fun _ =>
  keepsInv_require h hb fun hblock =>
  keepsInv_complete (h.setBuf rd (.written (length_doubleWords _ hblock.1) (by decide)))

theorem execCfbi_keepsInv (dir : Dir) (addr seg : Nat) : KeepsInv (execCfbi dir addr seg s) :=
  keepsInv_require h hb fun hseg =>
  keepsInv_require h hb fun _ =>
  keepsInv_complete (h.setSess (.created hseg))

theorem execCfbp_keepsInv (addr nblk : Nat) : KeepsInv (execCfbp addr nblk s) :=
  keepsInv_require h hb fun hv =>
  keepsInv_require h hb fun hfit =>
  keepsInv_complete (h.processBlocks _ hv hfit)

theorem execCfbs_keepsInv (addr : Nat) : KeepsInv (execCfbs addr s) :=
  keepsInv_require h hb fun _ =>
  keepsInv_require h hb fun hfit =>
  keepsInv_complete (h.memWrite hfit)

/-- Every command keeps the invariant of a running state. -/
theorem exec_keepsInv (i : Instr) : KeepsInv (exec i s) := by
  cases i with
  | nop => exact keepsInv_complete h
  | halt => exact execHalt_keepsInv h hb
  | bld rd addr n => exact execBld_keepsInv h hb rd addr n
  | bst r addr => exact execBst_keepsInv h hb r addr
  | sst r addr => exact execSst_keepsInv h hb r addr
  | bclr rd n => exact execBclr_keepsInv h hb rd n
  | bmov rd ra => exact execBmov_keepsInv h hb rd ra
  | clamp rd => exact execClamp_keepsInv h hb rd
  | shl rd ra n => exact execShl_keepsInv h hb rd ra n
  | lmw rd ra n => exact execLmw_keepsInv h hb rd ra n
  | lmb rd ra n => exact execLmb_keepsInv h hb rd ra n
  | rmb rd ra n => exact execRmb_keepsInv h hb rd ra n
  | popw rd ra n => exact execPopw_keepsInv h hb rd ra n
  | shob rd ra n => exact execShob_keepsInv h hb rd ra n
  | xor rd ra rb => exact wordwise_keepsInv h hb _ rd ra rb
  | xort rd ra rb => exact execXort_keepsInv h hb rd ra rb
  | and rd ra rb => exact wordwise_keepsInv h hb _ rd ra rb
  | eq rd ra rb => exact execEq_keepsInv h rd ra rb
  | msb rd ra => exact execMsb_keepsInv h hb rd ra
  | cat rd ra rb => exact execCat_keepsInv h hb rd ra rb
  | dbl rd => exact execDbl_keepsInv h hb rd
  | cfbi dir addr seg => exact execCfbi_keepsInv h hb dir addr seg
  | cfbp addr nblk => exact execCfbp_keepsInv h hb addr nblk
  | cfbs addr => exact execCfbs_keepsInv h hb addr

end Commands

/-! ### The turns -/

theorem sequencerTurn_keepsInv (h : s.Inv) : KeepsInv (sequencerTurn s) := by
  cases hb : s.busy with
  | false =>
    rw [sequencerTurn_idle hb]
    exact keepsInv_next h
  | true =>
    rcases sequencerTurn_cases hb with ⟨-, hturn⟩ | ⟨-, -, hturn⟩ | ⟨-, i, -, hturn⟩ <;> rw [hturn]
    · exact keepsInv_next (h.raise hb _)
    · exact keepsInv_next (h.raise hb _)
    · exact exec_keepsInv h hb i

/-- Every offset of the window names a register, an existing word of one of the memories, or nothing (R55). -/
theorem hostTarget_cases (off : BitVec 19) :
    (∃ r, hostTarget off = .reg r) ∨ (∃ i, i < Config.imemWords ∧ hostTarget off = .imem i) ∨
    (∃ a, a < Config.dmemWords ∧ hostTarget off = .dmem a) ∨ hostTarget off = .nothing := by
  have hoff := off.isLt
  simp only [Config.imemWords, Config.dmemWords]
  by_cases hreg : off.toNat < 0x1000
  · rw [hostTarget_reg hreg]
    have hat := hostRegAt_cases off.toNat
    grind
  by_cases himem : off.toNat < 0x2000
  · exact .inr (.inl ⟨(off.toNat - 0x1000) / 4, by omega, by rw [hostTarget, if_neg hreg, if_pos himem]⟩)
  by_cases hgap : off.toNat < 0x40000
  · exact .inr (.inr (.inr (hostTarget_unmapped (by omega) hgap)))
  · exact .inr (.inr (.inl ⟨(off.toNat - 0x40000) / 4, by omega,
      by rw [hostTarget, if_neg hreg, if_neg himem, if_neg hgap]⟩))

theorem hostMemRead_inv (h : s.Inv) (w : Word) : (hostMemRead w s).Inv := by
  rcases hostMemRead_cases w s with ⟨-, hread⟩ | ⟨-, hread⟩ <;> rw [hread] <;> exact h.withFree ..

theorem hostRead_inv (h : s.Inv) (off : BitVec 19) (size : Nat) : (hostRead off size s).Inv := by
  rw [hostRead]
  split
  · split
    · exact h.withFree ..
    · exact hostMemRead_inv h _
    · exact hostMemRead_inv h _
    · exact h.withFree ..
  · exact h.withFree ..

theorem idleWrite_inv {t : State} (h : s.Inv) (ht : t.Inv) : (idleWrite s t).Inv := by
  rcases idleWrite_cases s t with ⟨-, hwrite⟩ | ⟨-, hwrite⟩ <;> rw [hwrite]
  · exact h.withFree ..
  · exact ht

theorem ctrlWrite_inv (h : s.Inv) (data : Word) : (ctrlWrite data s).Inv := by
  have hie : State.Inv { s with ie := data.getLsbD 2 } := h.withFree ..
  have hclear : (if data.getLsbD 1 then State.clear { s with ie := data.getLsbD 2 }
      else { s with ie := data.getLsbD 2 }).Inv := by
    split
    · exact hie.clear
    · exact hie
  rw [ctrlWrite]
  split
  · exact hclear.go
  · exact hclear

theorem hostRegWrite_inv (h : s.Inv) (r : HostReg) (data : Word) : (hostRegWrite r data s).Inv := by
  cases r with
  | ctrl => exact ctrlWrite_inv h data
  | pc => exact idleWrite_inv h (h.withFree ..)
  | status | faultPc | faultCmd | params | sessInfo => exact h

theorem hostWrite_inv (h : s.Inv) (off : BitVec 19) (size : Nat) (data : Word) : (hostWrite off size data s).Inv := by
  rw [hostWrite]
  split
  · rcases hostTarget_cases off with ⟨r, htarget⟩ | ⟨i, hi, htarget⟩ | ⟨a, ha, htarget⟩ | htarget <;> rw [htarget]
    · exact hostRegWrite_inv h r data
    · exact idleWrite_inv h (h.setImem (wf_set h.imem hi data))
    · exact idleWrite_inv h (h.setDmem (wf_set h.dmem ha data))
    · exact h
  · exact h.withFree ..

theorem keyCipher_inv (h : s.Inv) (k : Nat) : (keyCipher k s).Inv := by
  rw [keyCipher]
  split
  · exact h
  · exact h.withFree ..

/-- A RESET during a step gives free values to existing words only (log 9). -/
theorem applyResetDuringStep_inv (h : s.Inv) : (applyResetDuringStep s).Inv := by
  refine (h.applyReset.setDmem (wf_setList h.dmem ?_)).withFree ..
  rw [← List.length_eq_zero_iff, List.length_map, List.length_range]
  omega

theorem hostTurn_inv (h : s.Inv) (e : HostEvent) : (hostTurn e s).Inv := by
  cases e with
  | read off size => exact hostRead_inv h off size
  | write off size data => exact hostWrite_inv h off size data
  | keyCipher k => exact keyCipher_inv h k
  | reset => exact h.applyReset
  | resetDuringStep => exact applyResetDuringStep_inv h

end Invariant

/-- Settles O47: the turn is the sequencer's or the environment's, and each keeps the invariant. -/
theorem everyStepKeepsTheInvariant : Obligations.EveryStepKeepsTheInvariant := by
  intro s t h hstep
  rcases turn_cases s with hseq | ⟨e, rest, hagenda, -⟩
  · rw [step_of_sequencerNext hseq] at hstep
    exact sequencerTurn_keepsInv h.turnTaken t hstep
  · rw [step_of_host hagenda] at hstep
    exact keepsInv_next (hostTurn_inv (h.withFree ..) e) t hstep

end Sys2Proof.Machine
end

section
/-! The state family, the commands: XOR (R130) and AND (R133) as one word-wise command, and CFBS (R185). -/

namespace Sys2Proof.Machine

/-! ### XOR and AND -/

theorem exec_xor (rd ra rb : BufReg) (s : State) : exec (.xor rd ra rb) s = wordwise (· ^^^ ·) rd ra rb s := rfl

theorem exec_and (rd ra rb : BufReg) (s : State) : exec (.and rd ra rb) s = wordwise (· &&& ·) rd ra rb s := rfl

theorem wordwise_unwritten {f : Word → Word → Word} {s : State} {rd ra rb : BufReg}
    (h : (s.buf ra).valid = false ∨ (s.buf rb).valid = false) :
    wordwise f rd ra rb s = .next (s.raise .unwrittenBuffer) := by
  cases ha : (s.buf ra).valid with
  | false => exact withBuffer_neg ha _
  | true =>
    have hb : (s.buf rb).valid = false := by simpa [ha] using h
    rw [wordwise, withBuffer_pos ha, withBuffer_neg hb]

theorem wordwise_mismatch {f : Word → Word → Word} {s : State} {rd ra rb : BufReg} (ha : (s.buf ra).valid = true)
    (hb : (s.buf rb).valid = true) (h : (s.buf ra).sig ≠ (s.buf rb).sig) :
    wordwise f rd ra rb s = .next (s.raise .lengthMismatch) := by
  rw [wordwise, withBuffer_pos ha, withBuffer_pos hb, require_neg h]

theorem wordwise_completes {f : Word → Word → Word} {s : State} {rd ra rb : BufReg} (ha : (s.buf ra).valid = true)
    (hb : (s.buf rb).valid = true) (h : (s.buf ra).sig = (s.buf rb).sig) :
    wordwise f rd ra rb s = .next
      (s.setBuf rd { valid := true, w := List.zipWith f (s.buf ra).w (s.buf rb).w, sig := (s.buf ra).sig }).advance := by
  rw [wordwise, withBuffer_pos ha, withBuffer_pos hb, require_pos h, complete_eq]

theorem getD_zipWith {f : Word → Word → Word} {v w : List Word} (hl : v.length = w.length) {i : Nat} (hi : i < v.length) :
    (List.zipWith f v w).getD i 0 = f (v.getD i 0) (w.getD i 0) := by
  have hi' : i < w.length := hl ▸ hi
  rw [List.getD_eq_getElem _ _ (by simp [hi, hi']), List.getElem_zipWith, List.getD_eq_getElem _ _ hi,
    List.getD_eq_getElem _ _ hi']

/-- What R130 and R133 say of their command, for any word operation: the two checks in their order, then every word of the two
sources combined. -/
theorem wordwise_spec (f : Word → Word → Word) (s : State) (rd ra rb : BufReg)
    (hlen : (s.buf ra).sig = (s.buf rb).sig → (s.buf ra).len = (s.buf rb).len) :
    if (s.buf ra).valid = false ∨ (s.buf rb).valid = false then
      wordwise f rd ra rb s = .next (s.raise .unwrittenBuffer)
    else if (s.buf ra).sig ≠ (s.buf rb).sig then wordwise f rd ra rb s = .next (s.raise .lengthMismatch)
    else ∃ t, wordwise f rd ra rb s = .next t ∧ CompletedBut s t [rd] [] 0 0 ∧ t.sess = s.sess ∧
      (t.buf rd).valid = true ∧ (t.buf rd).sig = (s.buf ra).sig ∧ (t.buf rd).len = (s.buf ra).len ∧
      ∀ i, i < (s.buf ra).len → (t.buf rd).w.getD i 0 = f ((s.buf ra).w.getD i 0) ((s.buf rb).w.getD i 0) := by
  split
  next hv => exact wordwise_unwritten hv
  next hv =>
    obtain ⟨ha, hb⟩ : (s.buf ra).valid = true ∧ (s.buf rb).valid = true := by simpa using hv
    split
    next hsig => exact wordwise_mismatch ha hb hsig
    next hsig =>
      have heq : (s.buf ra).sig = (s.buf rb).sig := not_not.mp hsig
      have hl : (s.buf ra).w.length = (s.buf rb).w.length := hlen heq
      have hzip : (List.zipWith f (s.buf ra).w (s.buf rb).w).length = (s.buf ra).w.length := by simp [hl]
      refine ⟨_, wordwise_completes ha hb heq, completedBut_setBuf .., rfl, ?_⟩
      rw [buf_advance, buf_setBuf_self]
      exact ⟨rfl, rfl, hzip, fun i hi => getD_zipWith hl hi⟩

/-- Settles O28: the word-wise command of `^^^`. -/
theorem xorIsWordwise : Obligations.XorIsWordwise := by
  intro s rd ra rb hlen
  rw [exec_xor]
  exact wordwise_spec (· ^^^ ·) s rd ra rb hlen

/-- Settles O29: the word-wise command of `&&&`. -/
theorem andIsWordwise : Obligations.AndIsWordwise := by
  intro s rd ra rb hlen
  rw [exec_and]
  exact wordwise_spec (· &&& ·) s rd ra rb hlen

/-! ### CFBS -/

theorem exec_cfbs (addr : Nat) (s : State) : exec (.cfbs addr) s = execCfbs addr s := rfl

@[simp] theorem length_dump (ss : Session) : ss.dump.length = 9 := rfl

theorem toNat_ofBool_eq_ite (b : Bool) : (BitVec.ofBool b).toNat = if b then 1 else 0 := by cases b <;> rfl

/-- SESSINFO as a number: SEG from bit 8 on, DIR, IV_PENDING and SESS_VALID in bits 2 to 0 (R42). -/
theorem toNat_sessionWord (ss : Session) :
    ss.word.toNat = ss.seg.toNat * 2 ^ 8 + (if ss.dir = .decryptor then 4 else 0) + (if ss.ivPending then 2 else 0) +
      (if ss.valid then 1 else 0) := by
  have hdir : (if ss.dirBit then 1 else 0) = if ss.dir = .decryptor then 1 else 0 := by
    cases hd : ss.dir <;> simp [Session.dirBit, hd]
  simp only [Session.word, toNat_append_eq, toNat_ofBool_eq_ite, hdir, BitVec.toNat_ofNat]
  split <;> split <;> split <;> omega

theorem toNat_splitBlock_getD (v : Block) {k : Nat} (hk : k < 4) :
    ((splitBlock v).getD k 0).toNat = v.toNat / 2 ^ (96 - 32 * k) % 2 ^ 32 := by
  rw [List.getD_eq_getElem _ _ hk, toNat_splitBlock v k hk]

theorem toNat_dump_prev (ss : Session) {k : Nat} (hk : k < 4) :
    (ss.dump.getD k 0).toNat = ss.prev.toNat / 2 ^ (96 - 32 * k) % 2 ^ 32 := by
  rw [Session.dump, List.append_assoc, List.getD_append _ _ _ _ hk, toNat_splitBlock_getD _ hk]

/-- CT is stored left-aligned: shifted up so that its SEG bits are the most significant (R185). -/
theorem toNat_dump_ct (ss : Session) {k : Nat} (hk : k < 4) :
    (ss.dump.getD (4 + k) 0).toNat =
      ss.ct.toNat * 2 ^ (128 - ss.seg.toNat) % 2 ^ 128 / 2 ^ (96 - 32 * k) % 2 ^ 32 := by
  have hplace : (splitBlock ss.prev).length ≤ 4 + k := Nat.le_add_right 4 k
  rw [Session.dump, List.append_assoc, List.getD_append_right _ _ _ _ hplace, length_splitBlock,
    Nat.add_sub_cancel_left, List.getD_append _ _ _ _ hk, toNat_splitBlock_getD _ hk, BitVec.toNat_shiftLeft,
    Nat.shiftLeft_eq]

theorem dump_word (ss : Session) : ss.dump.getD 8 0 = ss.word := rfl

/-- Each word of a stored list stands at its place. -/
theorem dmemWord_memWrite_add (s : State) (a : Nat) {vs : List Word} {k : Nat} (hk : k < vs.length) :
    (s.memWrite a vs).dmemWord (a + k) = vs.getD k 0 := by
  rw [dmemWord_memWrite, if_pos (by omega), Nat.add_sub_cancel_left]

/-- Settles O45: NO_SESSION, then ADDRESS_RANGE, then the nine words of the dump at their addresses. -/
theorem cfbsDumpsTheSession : Obligations.CfbsDumpsTheSession := by
  intro s addr
  rw [exec_cfbs, execCfbs]
  have hfits : spanFits addr 9 = true ↔ addr + 9 ≤ 65536 := by
    rw [spanFits_iff]
    simp only [Config.dmemWords]
    omega
  split
  next hv => exact require_neg (by simp [hv]) ..
  next hv =>
    rw [require_pos (by simpa using hv)]
    split
    next hspan => exact require_neg (mt hfits.mp (by omega)) ..
    next hspan =>
      rw [require_pos (hfits.mpr (by omega)), complete_eq]
      refine ⟨_, rfl, completedBut_memWrite .., rfl, fun k hk => ?_, fun k hk => ?_, ?_⟩ <;> rw [dmemWord_advance]
      · rw [dmemWord_memWrite_add _ _ (by rw [length_dump]; omega), toNat_dump_prev _ hk]
      · rw [Nat.add_assoc, dmemWord_memWrite_add _ _ (by rw [length_dump]; omega), toNat_dump_ct _ hk]
      · rw [dmemWord_memWrite_add _ _ (by rw [length_dump]; omega), dump_word, toNat_sessionWord]

end Sys2Proof.Machine
end

section
/-! The state family, RESET (R270, R271) and the host's registers (R38 to R44, R252). -/

namespace Sys2Proof.Machine

/-! ### RESET -/

/-- What both RESETs leave of the unit, whatever becomes of DMEM and of the model's own fields (log 15). -/
theorem resetFrom_applyReset (s : State) (dmem : Memory) (agenda : List Turn) (draws : Nat) :
    ResetFrom s { applyReset s with dmem := dmem, agenda := agenda, draws := draws } where
  bufs := buf_reset
  scalars := scalar_reset
  sess := rfl
  pc := rfl
  ctrl := show ctrlWord State.reset = 0 by decide
  status := show statusWord State.reset = 0 by decide
  faultPc := rfl
  faultCmd := rfl
  irq := rfl
  params := rfl
  sessInfo := show Session.empty.word = 0 by decide
  imem _ := rfl
  cipherKey := rfl
  hostData := rfl

/-- Settles O49. -/
theorem resetBetweenSteps : Obligations.ResetBetweenSteps := by
  intro s rest hagenda
  exact ⟨_, step_of_host hagenda, resetFrom_applyReset s s.dmem rest s.draws, fun _ => rfl, rfl, rfl⟩

/-- The span of R58 does not depend on the turns still to come. -/
theorem commandSpan_agenda (i : Instr) (s : State) (rest : List Turn) :
    commandSpan i { s with agenda := rest } = commandSpan i s := by
  cases i <;> rfl

theorem interruptedSpan_command {s : State} {i : Instr} (hb : s.busy = true) (hp : s.pc.toNat < Config.imemWords)
    (hd : decode (s.imemWord s.pc.toNat) = .ok i) : interruptedSpan s = commandSpan i s := by
  simp [interruptedSpan, hb, fetch_of_lt hp, hd]

theorem interruptedSpan_none {s : State}
    (h : s.busy = false ∨ Config.imemWords ≤ s.pc.toNat ∨ ∃ e, decode (s.imemWord s.pc.toNat) = .error e) :
    interruptedSpan s = (0, 0) := by
  cases hb : s.busy with
  | false => simp [interruptedSpan, hb]
  | true =>
    by_cases hp : Config.imemWords ≤ s.pc.toNat
    · simp [interruptedSpan, hb, fetch_of_ge hp]
    · obtain ⟨e, he⟩ : ∃ e, decode (s.imemWord s.pc.toNat) = .error e := by simpa [hb, hp] using h
      simp [interruptedSpan, hb, fetch_of_lt (Nat.not_le.mp hp), he]

/-- DMEM after a RESET during a step: free values at the existing words of the interrupted span, every other word kept. -/
theorem dmemWord_applyResetDuringStep (s : State) (a : Nat) :
    (applyResetDuringStep s).dmemWord a =
      if (interruptedSpan s).1 ≤ a ∧ a < (interruptedSpan s).1 + (interruptedSpan s).2 ∧ a < 65536 then
        Config.tornWord s.draws a
      else s.dmemWord a := by
  refine (dmemAt_setList ..).trans ?_
  rw [List.length_map, List.length_range]
  simp only [Config.dmemWords]
  split
  next hin =>
    rw [if_pos (by omega), List.getD_eq_getElem _ _ (by simp; omega), List.getElem_map, List.getElem_range,
      Nat.add_sub_cancel' hin.1]
  next hout =>
    rw [if_neg (by omega)]
    rfl

/-- Settles O50: the registers as for any RESET, and DMEM by the span of the interrupted command. -/
theorem resetDuringAStep : Obligations.ResetDuringAStep := by
  intro s rest hagenda
  refine ⟨_, step_of_host hagenda, resetFrom_applyReset s _ rest _, rfl, rfl, fun i hb hp hd => ?_, fun hnone a => ?_⟩
  · have hspan : interruptedSpan { s with agenda := rest } = commandSpan i s :=
      (interruptedSpan_command hb hp hd).trans (commandSpan_agenda i s rest)
    constructor
    · intro a ha
      rw [hostTurn, dmemWord_applyResetDuringStep, hspan, if_neg (by omega)]
      rfl
    · intro a hlo hhi ha
      rw [hostTurn, dmemWord_applyResetDuringStep, hspan, if_pos ⟨hlo, hhi, ha⟩]
  · have hspan : interruptedSpan { s with agenda := rest } = (0, 0) := interruptedSpan_none hnone
    rw [hostTurn, dmemWord_applyResetDuringStep, hspan, if_neg (by omega)]
    rfl

/-! ### The registers of the host window -/

theorem toNat_ctrlWord (s : State) : (ctrlWord s).toNat = if s.ie then 4 else 0 := by
  simp only [ctrlWord, toNat_append_eq, toNat_ofBool_eq_ite, BitVec.toNat_ofNat]
  split <;> rfl

theorem toNat_statusWord (s : State) :
    (statusWord s).toNat = (if s.busy then 1 else 0) + (if s.done then 2 else 0) + (if s.fault then 4 else 0) +
      (if s.hostErr then 8 else 0) + s.cause.toNat * 2 ^ 8 := by
  simp only [statusWord, toNat_append_eq, toNat_ofBool_eq_ite, BitVec.toNat_ofNat]
  split <;> split <;> split <;> split <;> omega

theorem toNat_wordOfPc (p : BitVec 11) : (wordOfPc p).toNat = p.toNat := by
  simp only [wordOfPc, toNat_append_eq, BitVec.toNat_ofNat]
  omega

/-- The writes a register ignores: all but CTRL and PC are read-only (R252). -/
theorem hostRegWrite_readOnly {r : HostReg} (hctrl : r ≠ .ctrl) (hpc : r ≠ .pc) (data : Word) (s : State) :
    hostRegWrite r data s = s := by
  cases r with
  | ctrl => exact absurd rfl hctrl
  | pc => exact absurd rfl hpc
  | status | faultPc | faultCmd | params | sessInfo => rfl

section Transactions

variable {off : BitVec 19} (hal : off.toNat % 4 = 0)
include hal

theorem hostWrite_reg {r : HostReg} (htarget : hostTarget off = .reg r) (data : Word) (s : State) :
    hostWrite off 4 data s = hostRegWrite r data s := by
  simp [hostWrite, hostAccepted_iff.mpr ⟨rfl, hal⟩, htarget]

theorem hostWrite_nothing (htarget : hostTarget off = .nothing) (data : Word) (s : State) :
    hostWrite off 4 data s = s := by
  simp [hostWrite, hostAccepted_iff.mpr ⟨rfl, hal⟩, htarget]

theorem hostRead_reg {r : HostReg} (htarget : hostTarget off = .reg r) (s : State) :
    hostRead off 4 s = { s with hostData := hostRegRead r s } := by
  simp [hostRead, hostAccepted_iff.mpr ⟨rfl, hal⟩, htarget]

theorem hostRead_nothing (htarget : hostTarget off = .nothing) (s : State) :
    hostRead off 4 s = { s with hostData := 0 } := by
  simp [hostRead, hostAccepted_iff.mpr ⟨rfl, hal⟩, htarget]

end Transactions

/-- The register offsets other than those of CTRL and PC name a read-only register or nothing (R39 to R44). -/
theorem hostTarget_readOnly {off : BitVec 19} (hoff : off.toNat < 0x1000) (hctrl : off.toNat ≠ 0x00)
    (hpc : off.toNat ≠ 0x08) :
    (∃ r, r ≠ .ctrl ∧ r ≠ .pc ∧ hostTarget off = .reg r) ∨ hostTarget off = .nothing := by
  rw [hostTarget_reg hoff]
  rcases hostRegAt_cases off.toNat with ⟨h, -⟩ | ⟨-, h⟩ | ⟨h, -⟩ | ⟨-, h⟩ | ⟨-, h⟩ | ⟨-, h⟩ | ⟨-, h⟩ |
    ⟨-, -, -, -, -, -, -, h⟩
  · exact absurd h hctrl
  · exact .inl ⟨.status, by decide, by decide, h⟩
  · exact absurd h hpc
  · exact .inl ⟨.faultPc, by decide, by decide, h⟩
  · exact .inl ⟨.faultCmd, by decide, by decide, h⟩
  · exact .inl ⟨.params, by decide, by decide, h⟩
  · exact .inl ⟨.sessInfo, by decide, by decide, h⟩
  · exact .inr h

/-- Settles O54: such an offset names a register that ignores the write, or nothing. -/
theorem readOnlyWritesAreIgnored : Obligations.ReadOnlyWritesAreIgnored := by
  intro s off data hoff hal hctrl hpc
  rcases hostTarget_readOnly hoff hctrl hpc with ⟨r, hr, hr', htarget⟩ | htarget
  · rw [hostWrite_reg hal htarget, hostRegWrite_readOnly hr hr']
  · exact hostWrite_nothing hal htarget data s

/-- Settles O55: one case for each register, and one for the offsets that hold none. -/
theorem hostRegisterReads : Obligations.HostRegisterReads := by
  intro s off hoff hal
  have htarget := hostTarget_reg hoff
  rcases hostRegAt_cases off.toNat with ⟨ho, hat⟩ | ⟨ho, hat⟩ | ⟨ho, hat⟩ | ⟨ho, hat⟩ | ⟨ho, hat⟩ | ⟨ho, hat⟩ |
    ⟨ho, hat⟩ | ⟨h0, h1, h2, h3, h4, h5, h6, hat⟩ <;> rw [hat] at htarget
  · exact ⟨_, hostRead_reg hal htarget s, by simp [ho, hostRegRead, toNat_ctrlWord]⟩
  · exact ⟨_, hostRead_reg hal htarget s, by simp [ho, hostRegRead, toNat_statusWord]⟩
  · exact ⟨_, hostRead_reg hal htarget s, by simp [ho, hostRegRead, toNat_wordOfPc]⟩
  · exact ⟨_, hostRead_reg hal htarget s, by simp [ho, hostRegRead, toNat_wordOfPc]⟩
  · exact ⟨_, hostRead_reg hal htarget s, by simp [ho, hostRegRead]⟩
  · exact ⟨_, hostRead_reg hal htarget s, by simp [ho, hostRegRead, Config.params]⟩
  · refine ⟨_, hostRead_reg hal htarget s, ?_⟩
    simp only [ho, hostRegRead, toNat_sessionWord, reduceIte, Nat.reduceEqDiff]
    ac_rfl
  · exact ⟨_, hostRead_nothing hal htarget s, by simp [h0, h1, h2, h3, h4, h5, h6]⟩

end Sys2Proof.Machine
end

section
/-! The memory family: BLD, BST and SST (R207 to R209), the host's reads of the memory windows (R252, R257), and the frame of
every command that completes (R75, R58, R170, R201). -/

namespace Sys2Proof.Machine

/-! ### The range check -/

/-- The check of R54 fails exactly where an access of at least one word passes the top of DMEM. -/
theorem spanFits_iff_not_pastTop {addr n : Nat} : spanFits addr n = true ↔ ¬PastTop addr n := by
  rw [spanFits_iff]
  simp only [Config.dmemWords]
  omega

/-! ### BLD, BST and SST -/

theorem exec_bld (rd : BufReg) (addr n : Nat) (s : State) : exec (.bld rd addr n) s = execBld rd addr n s := rfl

theorem exec_bst (r : BufReg) (addr : Nat) (s : State) : exec (.bst r addr) s = execBst r addr s := rfl

theorem exec_sst (r : ScalarReg) (addr : Nat) (s : State) : exec (.sst r addr) s = execSst r addr s := rfl

/-- Settles O16: the two checks in their order, then the words of the span as the buffer's. -/
theorem bldLoadsWholeWords : Obligations.BldLoadsWholeWords := by
  intro s rd addr n
  rw [exec_bld, execBld]
  split
  next hn => exact require_neg (mt ceil4_le_bufCapWords_iff.mp (by omega)) ..
  next hn =>
    rw [require_pos (ceil4_le_bufCapWords_iff.mpr (by omega))]
    split
    next hspan => exact require_neg (mt spanFits_iff_not_pastTop.mp (not_not.mpr hspan)) ..
    next hspan =>
      rw [require_pos (spanFits_iff_not_pastTop.mpr hspan), complete_eq]
      refine ⟨_, rfl, completedBut_setBuf .., rfl, ?_⟩
      rw [buf_advance, buf_setBuf_self]
      refine ⟨rfl, rfl, length_memRead .., fun k hk => ?_⟩
      have hk' : k < (s.memRead addr (ceil4 n)).length := by rwa [length_memRead]
      rw [List.getElem?_eq_getElem hk', getElem_memRead]

/-- Settles O17: the two checks in their order, then every word of the register at its place in the span. -/
theorem bstStoresEveryWord : Obligations.BstStoresEveryWord := by
  intro s r addr
  rw [exec_bst, execBst]
  split
  next hv => exact withBuffer_neg hv _
  next hv =>
    rw [withBuffer_pos (by simpa using hv)]
    split
    next hspan => exact require_neg (mt spanFits_iff_not_pastTop.mp (not_not.mpr hspan)) ..
    next hspan =>
      rw [require_pos (spanFits_iff_not_pastTop.mpr hspan), complete_eq]
      refine ⟨_, rfl, completedBut_memWrite .., rfl, fun k hk => ?_⟩
      rw [dmemWord_advance, dmemWord_memWrite_add _ _ hk, List.getD_eq_getElem _ _ hk]

/-- Settles O18: one word from an existing address on never passes the top of DMEM. -/
theorem sstStoresTheScalar : Obligations.SstStoresTheScalar := by
  intro s r addr haddr
  have hspan : ¬PastTop addr 1 := by
    rintro ⟨-, hpast⟩
    omega
  rw [exec_sst, execSst, require_pos (spanFits_iff_not_pastTop.mpr hspan), complete_eq]
  refine ⟨_, rfl, completedBut_memWrite .., rfl, ?_⟩
  rw [dmemWord_advance]
  exact dmemWord_memWrite_add s addr (k := 0) Nat.one_pos

/-! ### The memory windows of the host -/

/-- The address of word `k` of a window whose base is a multiple of 4 is aligned (R55, R57). -/
theorem windowOffset_aligned {base k : Nat} (hbase : base % 4 = 0) : (BitVec.ofNat 19 (base + 4 * k)).toNat % 4 = 0 := by
  rw [BitVec.toNat_ofNat]
  omega

section MemoryReads

variable {off : BitVec 19} (hal : off.toNat % 4 = 0)
include hal

theorem hostRead_imem {i : Nat} (htarget : hostTarget off = .imem i) (s : State) :
    hostRead off 4 s = hostMemRead (s.imemWord i) s := by
  simp [hostRead, hostAccepted_iff.mpr ⟨rfl, hal⟩, htarget]

theorem hostRead_dmem {a : Nat} (htarget : hostTarget off = .dmem a) (s : State) :
    hostRead off 4 s = hostMemRead (s.dmemWord a) s := by
  simp [hostRead, hostAccepted_iff.mpr ⟨rfl, hal⟩, htarget]

end MemoryReads

/-- Settles O56: the two windows, each as one read of its word, and the unmapped range. -/
theorem hostMemoryReads : Obligations.HostMemoryReads := by
  intro s
  refine ⟨fun i hi => ?_, fun a ha => ?_, fun off hlo hhi hal => ?_⟩
  · rw [hostRead_imem (windowOffset_aligned rfl) (hostTarget_imem hi), hostMemRead]
  · rw [hostRead_dmem (windowOffset_aligned rfl) (hostTarget_dmem ha), hostMemRead]
  · have htarget := hostTarget_unmapped hlo hhi
    exact ⟨hostRead_nothing hal htarget s, fun data => hostWrite_nothing hal htarget data s⟩

/-! ### The frame of a completing command -/

/-- The result is a next state with PC advanced, in which nothing has changed but what `i` may write (R75, R58, R170). -/
def CompletesWithin (i : Instr) (s : State) (r : Result) : Prop :=
  ∃ t, r = .next t ∧ CompletedBut s t (bufDests i) (scalarDests i) (storeSpan i s).1 (storeSpan i s).2 ∧
    (writesSession i = false → t.sess = s.sess)

theorem completesWithin_complete {i : Instr} {s t : State}
    (hframe : CompletedBut s t.advance (bufDests i) (scalarDests i) (storeSpan i s).1 (storeSpan i s).2)
    (hsess : writesSession i = false → t.sess = s.sess) : CompletesWithin i s (complete t) :=
  ⟨t.advance, rfl, hframe, hsess⟩

theorem completesWithin_require {i : Instr} {s : State} {p : Prop} [Decidable p] {c : Cause} {k : Result} (hp : p)
    (hk : CompletesWithin i s k) : CompletesWithin i s (require p c s k) := by
  rwa [require_pos hp]

/-- A checked read goes on where an unwritten register is no fault condition. -/
theorem completesWithin_withBuffer {i : Instr} {s : State} {r : BufReg} {k : Buf → Result}
    (hv : ¬(s.buf r).valid = false) (hk : CompletesWithin i s (k (s.buf r))) : CompletesWithin i s (withBuffer s r k) := by
  rwa [withBuffer_pos (Bool.eq_true_of_not_eq_false hv)]

/-- EQ writes its scalar alone where it compares no bytes, and its two buffers too where it does (R140). -/
theorem execEq_completesWithin (rd : ScalarReg) (ra rb : BufReg) (s : State) :
    CompletesWithin (.eq rd ra rb) s (execEq rd ra rb s) := by
  have hscalar : CompletesWithin (.eq rd ra rb) s (complete (s.setScalar rd 0)) :=
    completesWithin_complete ((completedBut_setScalar ..).mono nofun fun _ hq => hq) fun _ => rfl
  rw [execEq]
  split
  · exact hscalar
  · split
    · exact hscalar
    · exact completesWithin_complete (completedBut_setBuf_setBuf_setScalar ..) fun _ => rfl

/-- CFBI's check of its segment size, as the list of R8 and as the five sizes one by one (R171). -/
theorem mem_segmentSet_iff {seg : Nat} :
    seg ∈ Config.segmentSet ↔ ¬(seg ≠ 8 ∧ seg ≠ 16 ∧ seg ≠ 32 ∧ seg ≠ 64 ∧ seg ≠ 128) := by
  simp only [Config.segmentSet, List.mem_cons, List.not_mem_nil, or_false]
  omega

/-- Every command but HALT, which ends the run, passes its checks when none of its fault conditions holds, and then stays
within its frame. -/
theorem exec_completesWithin {i : Instr} {s : State} (hi : i ≠ .halt) (h : ∀ c, ¬FaultCondition i s c) :
    CompletesWithin i s (exec i s) := by
  unfold exec
  cases i with
  | nop => exact completesWithin_complete (completedBut_advance s) fun _ => rfl
  | halt => exact absurd rfl hi
  | bld rd addr n =>
    refine completesWithin_require (Nat.not_lt.mp (h .capacity)) ?_
    refine completesWithin_require (spanFits_iff_not_pastTop.mpr (h .addressRange)) ?_
    exact completesWithin_complete (completedBut_setBuf ..) fun _ => rfl
  | bst r addr =>
    refine completesWithin_withBuffer (h .unwrittenBuffer) ?_
    refine completesWithin_require (spanFits_iff_not_pastTop.mpr (h .addressRange)) ?_
    exact completesWithin_complete (completedBut_memWrite ..) fun _ => rfl
  | sst r addr =>
    refine completesWithin_require (spanFits_iff_not_pastTop.mpr (h .addressRange)) ?_
    exact completesWithin_complete (completedBut_memWrite ..) fun _ => rfl
  | bclr rd n =>
    refine completesWithin_require (Nat.not_lt.mp (h .capacity)) ?_
    exact completesWithin_complete (completedBut_setBuf ..) fun _ => rfl
  | bmov rd ra | clamp rd =>
    refine completesWithin_withBuffer (h .unwrittenBuffer) ?_
    exact completesWithin_complete (completedBut_setBuf ..) fun _ => rfl
  | shl rd ra n =>
    refine completesWithin_withBuffer (h .unwrittenBuffer) ?_
    refine completesWithin_require (Int.not_lt.mp (h .notImplemented)) ?_
    refine completesWithin_require (Int.not_le.mp (h .shiftRange)) ?_
    exact completesWithin_complete (completedBut_setBuf_setScalar ..) fun _ => rfl
  | lmw rd ra n | lmb rd ra n =>
    refine completesWithin_withBuffer (h .unwrittenBuffer) ?_
    refine completesWithin_require (Nat.not_lt.mp (h .lengthMismatch)) ?_
    exact completesWithin_complete (completedBut_setBuf ..) fun _ => rfl
  | rmb rd ra n =>
    refine completesWithin_withBuffer (h .unwrittenBuffer) ?_
    refine completesWithin_require (Nat.not_lt.mp (h .lengthMismatch)) ?_
    exact completesWithin_complete (completedBut_setBuf_setBuf _ _ _ (by simp [bufDests]) (by simp [bufDests])) fun _ => rfl
  | popw rd ra n | shob rd ra n =>
    refine completesWithin_withBuffer (h .unwrittenBuffer) ?_
    refine completesWithin_require (p := rd ≠ ra) (h .aliased) ?_
    refine completesWithin_require (Nat.not_lt.mp (h .lengthMismatch)) ?_
    exact completesWithin_complete (completedBut_setBuf_setBuf _ _ _ (by simp [bufDests]) (by simp [bufDests])) fun _ => rfl
  | xor rd ra rb | and rd ra rb =>
    obtain ⟨ha, hb⟩ := not_or.mp (h .unwrittenBuffer)
    have hsig : (s.buf ra).sig = (s.buf rb).sig := not_not.mp (h .lengthMismatch)
    exact ⟨_, wordwise_completes (Bool.eq_true_of_not_eq_false ha) (Bool.eq_true_of_not_eq_false hb) hsig,
      completedBut_setBuf .., fun _ => rfl⟩
  | xort rd ra rb =>
    obtain ⟨ha, hb⟩ := not_or.mp (h .unwrittenBuffer)
    refine completesWithin_withBuffer ha ?_
    refine completesWithin_withBuffer hb ?_
    refine completesWithin_require (Nat.not_lt.mp (h .lengthMismatch)) ?_
    exact completesWithin_complete (completedBut_setBuf ..) fun _ => rfl
  | eq rd ra rb => exact execEq_completesWithin rd ra rb s
  | msb rd ra =>
    refine completesWithin_withBuffer (h .unwrittenBuffer) ?_
    refine completesWithin_require (Nat.one_le_iff_ne_zero.mpr (h .lengthMismatch)) ?_
    exact completesWithin_complete (completedBut_setScalar ..) fun _ => rfl
  | cat rd ra rb =>
    obtain ⟨ha, hb⟩ := not_or.mp (h .unwrittenBuffer)
    refine completesWithin_withBuffer ha ?_
    refine completesWithin_withBuffer hb ?_
    refine completesWithin_require (Nat.not_lt.mp (h .capacity)) ?_
    exact completesWithin_complete (completedBut_setBuf ..) fun _ => rfl
  | dbl rd =>
    obtain ⟨hlen, hsig⟩ := not_or.mp (h .lengthMismatch)
    refine completesWithin_withBuffer (h .unwrittenBuffer) ?_
    refine completesWithin_require ⟨not_not.mp hlen, not_not.mp hsig⟩ ?_
    exact completesWithin_complete (completedBut_setBuf ..) fun _ => rfl
  | cfbi dir addr seg =>
    refine completesWithin_require (mem_segmentSet_iff.mpr (h .badSegment)) ?_
    refine completesWithin_require (spanFits_iff_not_pastTop.mpr (h .addressRange)) ?_
    exact completesWithin_complete (completedBut_session ..) nofun
  | cfbp addr nblk =>
    refine completesWithin_require (Bool.eq_true_of_not_eq_false (h .noSession)) ?_
    refine completesWithin_require (spanFits_iff_not_pastTop.mpr (h .addressRange)) ?_
    exact completesWithin_complete (completedBut_processBlocks ..) nofun
  | cfbs addr =>
    refine completesWithin_require (Bool.eq_true_of_not_eq_false (h .noSession)) ?_
    refine completesWithin_require (spanFits_iff_not_pastTop.mpr (h .addressRange)) ?_
    exact completesWithin_complete (completedBut_memWrite ..) fun _ => rfl

/-- Settles O11: HALT has no check to fail and leaves the session and FAULT; every other command stays within its frame. -/
theorem commandsCompleteWithinTheirFrame : Obligations.CommandsCompleteWithinTheirFrame := by
  intro i s h
  by_cases hi : i = .halt
  · subst hi
    exact ⟨_, rfl, fun hne => absurd rfl hne, fun _ => rfl, rfl, rfl⟩
  · obtain ⟨t, hnext, hframe, hsess⟩ := exec_completesWithin hi h
    exact ⟨t, hnext, fun _ => hframe, hsess, hframe.pc, hframe.host.fault⟩

end Sys2Proof.Machine
end

section
/-! The encoding family: decoding an encoded command (O1), encoding a decoded word (O2), the words that spell no command (O3)
and the worked encodings (O4). A word is made of its fields in each format, and a row's mask covers exactly the fields its
command does not use, so a word that matches a row is the encoding of the command the row reads from it. -/

namespace Sys2Proof

/-! ### The decoder -/

theorem decode_of_no_row {w : Word} (hrow : opRow (fieldOp w).toNat = none) : decode w = .error .reservedOpcode := by
  simp [decode, hrow]

theorem decode_of_match {w : Word} {row : OpRow} (hrow : opRow (fieldOp w).toNat = some row)
    (hbits : w &&& row.mask = row.pattern) : decode w = .ok (row.build w) := by
  simp [decode, hrow, hbits]

theorem decode_of_mismatch {w : Word} {row : OpRow} (hrow : opRow (fieldOp w).toNat = some row)
    (hbits : w &&& row.mask ≠ row.pattern) : decode w = .error .mustBeZero := by
  simp [decode, hrow, hbits]

/-- A word decodes only by the row of its opcode, which it matches. -/
theorem row_of_decode {w : Word} {i : Instr} (h : decode w = .ok i) :
    ∃ row, opRow (fieldOp w).toNat = some row ∧ w &&& row.mask = row.pattern ∧ row.build w = i := by
  cases hrow : opRow (fieldOp w).toNat with
  | none => simp [decode_of_no_row hrow] at h
  | some row =>
    by_cases hbits : w &&& row.mask = row.pattern
    · exact ⟨row, rfl, hbits, by simpa [decode_of_match hrow hbits] using h⟩
    · simp [decode_of_mismatch hrow hbits] at h

/-! ### The operand fields of an encoded word -/

section Fields

variable (op : BitVec 5) (rd ra rb : Fin 8) (imm8 : BitVec 8) (addr n : Nat) (d : Dir)

@[simp] theorem fieldImm8_encodeR : fieldImm8 (encodeR op rd ra rb imm8) = imm8.toNat := by
  rw [fieldImm8, imm8_encodeR]

@[simp] theorem fieldImm8_encodeM : fieldImm8 (encodeM op rd addr n) = n % 2 ^ 8 := by
  rw [fieldImm8, imm8_encodeM, BitVec.toNat_ofNat]

@[simp] theorem fieldImm8_encodeC : fieldImm8 (encodeC op d addr n) = n % 2 ^ 8 := by
  rw [fieldImm8, imm8_encodeC, BitVec.toNat_ofNat]

@[simp] theorem fieldShift_encodeR : fieldShift (encodeR op rd ra rb imm8) = imm8.toInt := by
  rw [fieldShift, imm8_encodeR]

end Fields

/-- The shift amount of SHL is its eight bits read with their sign (R76). -/
theorem toInt_ofInt_of_shiftFits {n : Int} (h : shiftFits n) : (BitVec.ofInt 8 n).toInt = n :=
  BitVec.toInt_ofInt_eq_self (by decide) h.1 (Int.lt_add_one_of_le h.2)

/-! ### Decoding an encoded command -/

/-- An encoded command falls in a row of R77 and has that row's fixed bits, whatever its operands. -/
theorem encode_matches_row (i : Instr) : Laws.EncodeMatchesRow.Statement i := by
  cases i with
  | nop => exact Laws.EncodeMatchesRow.nop
  | halt => exact Laws.EncodeMatchesRow.halt
  | bld => exact Laws.EncodeMatchesRow.bld ..
  | bst => exact Laws.EncodeMatchesRow.bst ..
  | sst => exact Laws.EncodeMatchesRow.sst ..
  | bclr => exact Laws.EncodeMatchesRow.bclr ..
  | bmov => exact Laws.EncodeMatchesRow.bmov ..
  | clamp => exact Laws.EncodeMatchesRow.clamp ..
  | shl => exact Laws.EncodeMatchesRow.shl ..
  | lmw => exact Laws.EncodeMatchesRow.lmw ..
  | lmb => exact Laws.EncodeMatchesRow.lmb ..
  | rmb => exact Laws.EncodeMatchesRow.rmb ..
  | popw => exact Laws.EncodeMatchesRow.popw ..
  | shob => exact Laws.EncodeMatchesRow.shob ..
  | xor => exact Laws.EncodeMatchesRow.xor ..
  | xort => exact Laws.EncodeMatchesRow.xort ..
  | and => exact Laws.EncodeMatchesRow.and ..
  | eq => exact Laws.EncodeMatchesRow.eq ..
  | msb => exact Laws.EncodeMatchesRow.msb ..
  | cat => exact Laws.EncodeMatchesRow.cat ..
  | dbl => exact Laws.EncodeMatchesRow.dbl ..
  | cfbi => exact Laws.EncodeMatchesRow.cfbi ..
  | cfbp => exact Laws.EncodeMatchesRow.cfbp ..
  | cfbs => exact Laws.EncodeMatchesRow.cfbs ..

/-- The row of an encoded command reads the command's operands back, where its fields hold them. -/
theorem build_encode {i : Instr} (hwf : i.WellFormed = true) {row : OpRow}
    (hrow : opRow (fieldOp (encode i)).toNat = some row) : row.build (encode i) = i := by
  cases i with
  | nop | halt | bmov | clamp | xor | xort | and | eq | msb | cat | dbl =>
    obtain rfl : _ = row := by simpa [encode, opRow] using hrow
    simp [encode]
  | bst _ addr | sst _ addr | cfbs addr =>
    have haddr : addrFits addr := of_decide_eq_true hwf
    obtain rfl : _ = row := by simpa [encode, opRow] using hrow
    simpa [encode] using haddr
  | bclr _ n | lmw _ _ n | lmb _ _ n | rmb _ _ n | popw _ _ n | shob _ _ n =>
    have hn : imm8Fits n := of_decide_eq_true hwf
    obtain rfl : _ = row := by simpa [encode, opRow] using hrow
    simpa [encode] using hn
  | bld _ addr n | cfbi _ addr n | cfbp addr n =>
    have hfit : addrFits addr ∧ imm8Fits n := of_decide_eq_true hwf
    obtain rfl : _ = row := by simpa [encode, opRow] using hrow
    simpa [encode] using hfit
  | shl _ _ n =>
    have hshift : shiftFits n := of_decide_eq_true hwf
    obtain rfl : _ = row := by simpa [encode, opRow] using hrow
    simp only [encode, fieldRd_encodeR, fieldRa_encodeR, fieldShift_encodeR, toInt_ofInt_of_shiftFits hshift]

/-- Settles O1: an encoded command matches its row of R77, and the row reads its operands back. -/
theorem decodeOfEncodeIsTheCommand : Obligations.DecodeOfEncodeIsTheCommand := by
  intro i hwf
  obtain ⟨row, hrow, hbits⟩ := encode_matches_row i
  exact (decode_of_match hrow hbits).trans (congrArg _ (build_encode hwf hrow))

/-! ### A word is made of its fields -/

section Fields

variable (w : Word)

theorem ofNat_fieldRd : BitVec.ofNat 3 (fieldRd w).val = w.extractLsb' 24 3 := BitVec.ofNat_finVal _

theorem ofNat_fieldRa : BitVec.ofNat 3 (fieldRa w).val = w.extractLsb' 21 3 := BitVec.ofNat_finVal _

theorem ofNat_fieldRb : BitVec.ofNat 3 (fieldRb w).val = w.extractLsb' 18 3 := BitVec.ofNat_finVal _

theorem ofNat_fieldImm8 : BitVec.ofNat 8 (fieldImm8 w) = w.extractLsb' 0 8 := BitVec.ofNat_finVal _

theorem ofInt_fieldShift : BitVec.ofInt 8 (fieldShift w) = w.extractLsb' 0 8 := BitVec.ofInt_toInt

theorem ofNat_fieldAddr : BitVec.ofNat 16 (fieldAddr w) = w.extractLsb' 8 16 := BitVec.ofNat_finVal _

theorem dirBit_fieldDir : dirBit (fieldDir w) = w.extractLsb' 26 1 := by
  have hbit : dirBit (fieldDir w) = BitVec.ofBool (w.getLsbD 26) := by
    rw [fieldDir]
    cases w.getLsbD 26 <;> rfl
  rw [hbit]
  apply BitVec.eq_of_getLsbD_eq
  intro k hk
  obtain rfl : k = 0 := by omega
  simp

end Fields

/-- A word whose zero field of format R is zero is made of its fields (R72). -/
theorem encodeR_fields {w : Word} (hz : w.extractLsb' 8 10 = 0#10) :
    encodeR (fieldOp w) (fieldRd w) (fieldRa w) (fieldRb w) (w.extractLsb' 0 8) = w := by
  apply BitVec.eq_of_getLsbD_eq
  intro k hk
  have hzk := congrArg (fun x => x.getLsbD (k - 8)) hz
  simp only [getLsbD_encodeR, fieldOp, ofNat_fieldRd, ofNat_fieldRa, ofNat_fieldRb, BitVec.getLsbD_extractLsb',
    BitVec.getLsbD_zero] at hzk ⊢
  grind

/-- Every word is made of its fields of format M (R73). -/
theorem encodeM_fields (w : Word) : encodeM (fieldOp w) (fieldRd w) (fieldAddr w) (fieldImm8 w) = w := by
  apply BitVec.eq_of_getLsbD_eq
  intro k hk
  simp only [getLsbD_encodeM, fieldOp, ofNat_fieldRd, ofNat_fieldAddr, ofNat_fieldImm8, BitVec.getLsbD_extractLsb']
  grind

/-- A word whose zero field of format C is zero is made of its fields (R74). -/
theorem encodeC_fields {w : Word} (hz : w.extractLsb' 24 2 = 0#2) :
    encodeC (fieldOp w) (fieldDir w) (fieldAddr w) (fieldImm8 w) = w := by
  apply BitVec.eq_of_getLsbD_eq
  intro k hk
  have hzk := congrArg (fun x => x.getLsbD (k - 24)) hz
  simp only [getLsbD_encodeC, fieldOp, dirBit_fieldDir, ofNat_fieldAddr, ofNat_fieldImm8, BitVec.getLsbD_extractLsb',
    BitVec.getLsbD_zero] at hzk ⊢
  grind

/-! ### The fields a row fixes -/

section Masked

variable {w mask : Word} {op : BitVec 5}

/-- A field that a row's mask covers has the value the row's pattern gives it (R77). -/
theorem extractLsb'_of_masked (h : w &&& mask = encodeS op) {start len : Nat}
    (hmask : mask.extractLsb' start len = BitVec.allOnes len) :
    w.extractLsb' start len = (encodeS op).extractLsb' start len := by
  rw [← h, BitVec.extractLsb'_and, hmask, BitVec.and_allOnes]

theorem fieldOp_of_masked (h : w &&& mask = encodeS op) (hmask : mask.extractLsb' 27 5 = BitVec.allOnes 5) :
    fieldOp w = op :=
  (extractLsb'_of_masked h hmask).trans (fieldOp_encodeS op)

/-- A field below the opcode that a row's mask covers is zero (R75). -/
theorem field_eq_zero_of_masked (h : w &&& mask = encodeS op) {start len : Nat} (hlow : start + len ≤ 27)
    (hmask : mask.extractLsb' start len = BitVec.allOnes len) : w.extractLsb' start len = 0#len := by
  rw [extractLsb'_of_masked h hmask]
  apply BitVec.eq_of_getLsbD_eq
  intro k hk
  simp [getLsbD_encodeS, show start + k < 27 by omega]

theorem reg_eq_zero_of_masked (h : w &&& mask = encodeS op) {start : Nat} (hlow : start + 3 ≤ 27)
    (hmask : mask.extractLsb' start 3 = BitVec.allOnes 3) : (w.extractLsb' start 3).toFin = (0 : Fin 8) :=
  congrArg BitVec.toFin (field_eq_zero_of_masked h hlow hmask)

/-- A word of a format R row is the encoding of its fields. -/
theorem encodeR_of_masked {rd ra rb : Fin 8} {imm8 : BitVec 8} (h : w &&& mask = encodeS op)
    (hop : mask.extractLsb' 27 5 = BitVec.allOnes 5) (hzero : mask.extractLsb' 8 10 = BitVec.allOnes 10)
    (hrd : fieldRd w = rd) (hra : fieldRa w = ra) (hrb : fieldRb w = rb) (himm8 : w.extractLsb' 0 8 = imm8) :
    encodeR op rd ra rb imm8 = w := by
  rw [← fieldOp_of_masked h hop, ← hrd, ← hra, ← hrb, ← himm8]
  exact encodeR_fields (field_eq_zero_of_masked h (by decide) hzero)

/-- A word of a format M row is the encoding of its fields. -/
theorem encodeM_of_masked {r : Fin 8} {n : Nat} (h : w &&& mask = encodeS op)
    (hop : mask.extractLsb' 27 5 = BitVec.allOnes 5) (hr : fieldRd w = r) (hn : fieldImm8 w = n) :
    encodeM op r (fieldAddr w) n = w := by
  rw [← fieldOp_of_masked h hop, ← hr, ← hn]
  exact encodeM_fields w

end Masked

/-! ### The shapes of the masks of R77: the fields each leaves free are the word's own, the others are zero -/

section Shapes

variable {w : Word} {op : BitVec 5} {imm8 : BitVec 8}

theorem encodeR_rd_ra_rb (h : w &&& 0xF803FFFF#32 = encodeS op) :
    encodeR op (fieldRd w) (fieldRa w) (fieldRb w) 0#8 = w :=
  encodeR_of_masked h rfl rfl rfl rfl rfl (field_eq_zero_of_masked h (by decide) rfl)

theorem encodeR_rd_ra_imm8 (h : w &&& 0xF81FFF00#32 = encodeS op) (himm8 : imm8 = w.extractLsb' 0 8) :
    encodeR op (fieldRd w) (fieldRa w) 0 imm8 = w :=
  encodeR_of_masked h rfl rfl rfl rfl (reg_eq_zero_of_masked h (by decide) rfl) himm8.symm

theorem encodeR_rd_ra (h : w &&& 0xF81FFFFF#32 = encodeS op) : encodeR op (fieldRd w) (fieldRa w) 0 0#8 = w :=
  encodeR_of_masked h rfl rfl rfl rfl (reg_eq_zero_of_masked h (by decide) rfl)
    (field_eq_zero_of_masked h (by decide) rfl)

theorem encodeR_rd_imm8 (h : w &&& 0xF8FFFF00#32 = encodeS op) (himm8 : imm8 = w.extractLsb' 0 8) :
    encodeR op (fieldRd w) 0 0 imm8 = w :=
  encodeR_of_masked h rfl rfl rfl (reg_eq_zero_of_masked h (by decide) rfl)
    (reg_eq_zero_of_masked h (by decide) rfl) himm8.symm

theorem encodeR_rd (h : w &&& 0xF8FFFFFF#32 = encodeS op) : encodeR op (fieldRd w) 0 0 0#8 = w :=
  encodeR_of_masked h rfl rfl rfl (reg_eq_zero_of_masked h (by decide) rfl)
    (reg_eq_zero_of_masked h (by decide) rfl) (field_eq_zero_of_masked h (by decide) rfl)

theorem encodeM_r_addr (h : w &&& 0xF80000FF#32 = encodeS op) : encodeM op (fieldRd w) (fieldAddr w) 0 = w :=
  encodeM_of_masked h rfl rfl (congrArg BitVec.toNat (field_eq_zero_of_masked h (by decide) rfl))

theorem encodeM_addr_n (h : w &&& 0xFF000000#32 = encodeS op) : encodeM op 0 (fieldAddr w) (fieldImm8 w) = w :=
  encodeM_of_masked h rfl (reg_eq_zero_of_masked h (by decide) rfl) rfl

theorem encodeM_addr (h : w &&& 0xFF0000FF#32 = encodeS op) : encodeM op 0 (fieldAddr w) 0 = w :=
  encodeM_of_masked h rfl (reg_eq_zero_of_masked h (by decide) rfl)
    (congrArg BitVec.toNat (field_eq_zero_of_masked h (by decide) rfl))

theorem encodeM_r_addr_n (h : w &&& 0xF8000000#32 = encodeS op) :
    encodeM op (fieldRd w) (fieldAddr w) (fieldImm8 w) = w :=
  encodeM_of_masked h rfl rfl rfl

theorem encodeC_dir_addr_seg (h : w &&& 0xFB000000#32 = encodeS op) :
    encodeC op (fieldDir w) (fieldAddr w) (fieldImm8 w) = w := by
  rw [← fieldOp_of_masked h rfl]
  exact encodeC_fields (field_eq_zero_of_masked h (by decide) rfl)

theorem encodeS_eq (h : w &&& 0xFFFFFFFF#32 = encodeS op) : encodeS op = w :=
  h.symm.trans BitVec.and_allOnes

end Shapes

/-! ### The rows of R77 -/

/-- Every operand a row reads lies in its field's range (R76). -/
theorem build_wellFormed {op : Nat} {row : OpRow} (hrow : opRow op = some row) (w : Word) :
    (row.build w).WellFormed = true := by
  have haddr : addrFits (fieldAddr w) := BitVec.isLt _
  have himm8 : imm8Fits (fieldImm8 w) := BitVec.isLt _
  have hshift : shiftFits (fieldShift w) := ⟨BitVec.le_toInt _, Int.le_of_lt_add_one BitVec.toInt_lt⟩
  unfold opRow at hrow
  split at hrow <;> cases hrow <;> simp [Instr.WellFormed, haddr, himm8, hshift]

/-- A word that matches a row is the encoding of the command the row reads from it. The opcodes
stand in the order of R77, those whose masks have one shape together. -/
theorem encode_build {op : Nat} {row : OpRow} (hrow : opRow op = some row) {w : Word}
    (hbits : w &&& row.mask = row.pattern) : encode (row.build w) = w := by
  match op, hrow with
  | 0x01, rfl | 0x02, rfl => exact encodeS_eq hbits
  | 0x03, rfl => exact encodeM_r_addr_n hbits
  | 0x04, rfl | 0x05, rfl => exact encodeM_r_addr hbits
  | 0x06, rfl => exact encodeR_rd_imm8 hbits (ofNat_fieldImm8 w)
  | 0x07, rfl | 0x13, rfl => exact encodeR_rd_ra hbits
  | 0x08, rfl | 0x15, rfl => exact encodeR_rd hbits
  | 0x09, rfl => exact encodeR_rd_ra_imm8 hbits (ofInt_fieldShift w)
  | 0x0A, rfl | 0x0B, rfl | 0x0C, rfl | 0x0D, rfl | 0x0E, rfl => exact encodeR_rd_ra_imm8 hbits (ofNat_fieldImm8 w)
  | 0x0F, rfl | 0x10, rfl | 0x11, rfl | 0x12, rfl | 0x14, rfl => exact encodeR_rd_ra_rb hbits
  | 0x18, rfl => exact encodeC_dir_addr_seg hbits
  | 0x19, rfl => exact encodeM_addr_n hbits
  | 0x1A, rfl => exact encodeM_addr hbits

/-- Settles O2: the word matches the row it decodes by, whose fields make the command. -/
theorem encodeOfDecodeIsTheWord : Obligations.EncodeOfDecodeIsTheWord := by
  intro w i hdecode
  obtain ⟨row, hrow, hbits, rfl⟩ := row_of_decode hdecode
  exact ⟨build_wellFormed hrow w, encode_build hrow hbits⟩

/-! ### The words that spell no command -/

/-- The must-be-zero bits below the opcode: those the mask of the opcode's row covers (R75, R77); none for a reserved
opcode. -/
def mustBeZeroBits (op : Nat) : BitVec 27 :=
  match opRow op with
  | some row => row.mask.extractLsb' 0 27
  | none => 0#27

/-- The mask of a row covers the opcode and the must-be-zero bits; the pattern is the opcode over zeros (R77). -/
theorem opRow_bits : ∀ op : BitVec 5, ∀ row ∈ opRow op.toNat,
    row.mask = 0x1F#5 ++ mustBeZeroBits op.toNat ∧ row.pattern = op ++ 0#27 := by
  decide

theorem fieldOp_append_low (w : Word) : fieldOp w ++ w.extractLsb' 0 27 = w :=
  (BitVec.extractLsb'_append_extractLsb'_eq_extractLsb' rfl).trans BitVec.extractLsb'_eq_self

theorem toNat_fieldOp (w : Word) : (fieldOp w).toNat = w.toNat / 2 ^ 27 := by
  have hw := w.isLt
  rw [fieldOp, BitVec.extractLsb'_toNat, Nat.shiftRight_eq_div_pow]
  omega

/-- A word matches the row of its opcode exactly when it has no nonzero must-be-zero bit. -/
theorem matches_row_iff {w : Word} {row : OpRow} (hrow : opRow (fieldOp w).toNat = some row) :
    w &&& row.mask = row.pattern ↔ w &&& (0#5 ++ mustBeZeroBits (fieldOp w).toNat : Word) = 0#32 := by
  obtain ⟨hmask, hpattern⟩ := opRow_bits (fieldOp w) row hrow
  rw [hmask, hpattern]
  generalize mustBeZeroBits (fieldOp w).toNat = z
  have hand (x : BitVec 5) : w &&& (x ++ z : Word) = (fieldOp w &&& x) ++ (w.extractLsb' 0 27 &&& z) := by
    conv_lhs => rw [← fieldOp_append_low w]
    exact BitVec.and_append
  rw [hand, hand, show fieldOp w &&& 0x1F#5 = fieldOp w from BitVec.and_allOnes, BitVec.and_zero,
    BitVec.append_right_inj]
  exact (BitVec.append_right_inj 0#5).symm

theorem decode_eq_reservedOpcode_iff {w : Word} :
    decode w = .error .reservedOpcode ↔ opRow (fieldOp w).toNat = none := by
  cases hrow : opRow (fieldOp w).toNat with
  | none => simp [decode_of_no_row hrow]
  | some row =>
    by_cases hbits : w &&& row.mask = row.pattern
    · simp [decode_of_match hrow hbits]
    · simp [decode_of_mismatch hrow hbits]

theorem decode_eq_mustBeZero_iff {w : Word} :
    decode w = .error .mustBeZero ↔ w &&& (0#5 ++ mustBeZeroBits (fieldOp w).toNat : Word) ≠ 0#32 := by
  cases hrow : opRow (fieldOp w).toNat with
  | none => simp [decode_of_no_row hrow, mustBeZeroBits, hrow]
  | some row =>
    rw [Ne, ← matches_row_iff hrow]
    by_cases hbits : w &&& row.mask = row.pattern
    · simp [decode_of_match hrow hbits, hbits]
    · simp [decode_of_mismatch hrow hbits, hbits]

/-- Settles O3: both clauses are facts about the opcode alone, the opcodes with no row and the must-be-zero bits of the
others, read off the table for the 32 opcodes. -/
theorem exactlyTheIllegalWordsDoNotDecode : Obligations.ExactlyTheIllegalWordsDoNotDecode := by
  intro w
  have hlt := (fieldOp w).isLt
  rw [decode_eq_reservedOpcode_iff, decode_eq_mustBeZero_iff, ← toNat_fieldOp]
  generalize (fieldOp w).toNat = op at hlt
  dsimp only
  constructor
  · rw [← Option.isNone_iff_eq_none]
    revert op
    decide
  · refine iff_of_eq (congrArg (w &&& · ≠ 0#32) ?_)
    revert op
    decide

/-- Settles O4, by running the decoder and the encoder on the ten pairs. -/
theorem workedEncodings : Obligations.WorkedEncodings := by
  unfold Obligations.WorkedEncodings
  decide

end Sys2Proof
end

section
/-! The encoding family, the step: what a turn does when it runs a command (O5) and when it runs none (O6), and that every
step answers a next state (O12). -/

namespace Sys2Proof.Machine

/-! ### The turns of a step -/

/-- Settles O5: the sequencer's turn at a word that decodes, with the turn taken off the agenda. -/
theorem stepRunsTheDecodedCommand : Obligations.StepRunsTheDecodedCommand := by
  intro s i hbusy hpc hdecode _
  exact ⟨fun hagenda => (step_of_no_agenda hagenda).trans (sequencerTurn_command hbusy hpc hdecode),
    fun rest hagenda => (step_of_sequencer hagenda).trans (sequencerTurn_command hbusy hpc hdecode)⟩

/-- Settles O6: the environment's turns, and the two turns in which the sequencer runs no command. -/
theorem otherTurnsOfAStep : Obligations.OtherTurnsOfAStep := by
  refine ⟨fun _ _ _ => step_of_host, fun _ _ _ _ => step_of_host, fun _ _ _ _ _ => step_of_host,
    fun s k rest hagenda => ?key, fun s hseq hbusy => ?idle, fun s e hseq hbusy hpc hdecode => ?illegal⟩
  case key => exact step_of_host hagenda
  case idle => exact (step_of_sequencerNext hseq).trans (sequencerTurn_idle hbusy)
  case illegal => exact (step_of_sequencerNext hseq).trans (sequencerTurn_illegal hbusy hpc hdecode)

/-! ### Every step answers a next state -/

/-- The result is a next state. -/
def AnswersNext (r : Result) : Prop := ∃ t, r = .next t

theorem answersNext_complete (s : State) : AnswersNext (complete s) := ⟨_, complete_eq s⟩

/-- A check that fails takes the fault entry, which is a next state too (R234). -/
theorem answersNext_require {p : Prop} [Decidable p] {c : Cause} {s : State} {k : Result} (hk : AnswersNext k) :
    AnswersNext (require p c s k) := by
  by_cases hp : p
  · rwa [require_pos hp]
  · exact ⟨_, require_neg hp ..⟩

theorem answersNext_withBuffer {s : State} {r : BufReg} {k : Buf → Result} (hk : ∀ b, AnswersNext (k b)) :
    AnswersNext (withBuffer s r k) := by
  cases hv : (s.buf r).valid with
  | true => rw [withBuffer_pos hv]; exact hk _
  | false => exact ⟨_, withBuffer_neg hv k⟩

theorem answersNext_wordwise (f : Word → Word → Word) (rd ra rb : BufReg) (s : State) :
    AnswersNext (wordwise f rd ra rb s) :=
  answersNext_withBuffer fun _ =>
  answersNext_withBuffer fun _ =>
  answersNext_require (answersNext_complete _)

theorem answersNext_execEq (rd : ScalarReg) (ra rb : BufReg) (s : State) : AnswersNext (execEq rd ra rb s) := by
  rw [execEq]
  split
  · exact answersNext_complete _
  · split <;> exact answersNext_complete _

/-- Every command is built from checked reads, checked conditions and a completion (R14), so it always has an effect. -/
theorem exec_answersNext (i : Instr) (s : State) : AnswersNext (exec i s) := by
  unfold exec
  cases i with
  | nop | halt => exact answersNext_complete _
  | sst | bclr =>
    refine answersNext_require ?_
    exact answersNext_complete _
  | bld | cfbi | cfbp | cfbs =>
    refine answersNext_require ?_
    refine answersNext_require ?_
    exact answersNext_complete _
  | bmov | clamp =>
    refine answersNext_withBuffer fun _ => ?_
    exact answersNext_complete _
  | bst | lmw | lmb | rmb | msb | dbl =>
    refine answersNext_withBuffer fun _ => ?_
    refine answersNext_require ?_
    exact answersNext_complete _
  | shl | popw | shob =>
    refine answersNext_withBuffer fun _ => ?_
    refine answersNext_require ?_
    refine answersNext_require ?_
    exact answersNext_complete _
  | xor rd ra rb | and rd ra rb => exact answersNext_wordwise _ rd ra rb s
  | xort | cat =>
    refine answersNext_withBuffer fun _ => ?_
    refine answersNext_withBuffer fun _ => ?_
    refine answersNext_require ?_
    exact answersNext_complete _
  | eq rd ra rb => exact answersNext_execEq rd ra rb s

theorem sequencerTurn_answersNext (s : State) : AnswersNext (sequencerTurn s) := by
  cases hbusy : s.busy with
  | false => exact ⟨s, sequencerTurn_idle hbusy⟩
  | true =>
    rcases sequencerTurn_cases hbusy with ⟨-, hturn⟩ | ⟨-, -, hturn⟩ | ⟨-, i, -, hturn⟩
    · exact ⟨_, hturn⟩
    · exact ⟨_, hturn⟩
    · exact hturn ▸ exec_answersNext i s

/-- Settles O12: the turn is the sequencer's or the environment's, and each answers a next state. -/
theorem everyStepAnswersANextState : Obligations.EveryStepAnswersANextState := by
  intro s
  rcases turn_cases s with hseq | ⟨e, rest, hagenda, -⟩
  · exact step_of_sequencerNext hseq ▸ sequencerTurn_answersNext s.turnTaken
  · exact ⟨_, step_of_host hagenda⟩

end Sys2Proof.Machine
end

section
/-! The kernel family: the slices (R103, R110 to R113), the moves (R120, R121), XORT (R132), EQ (R140, R141), MSB (R145) and
CAT (R150). First the bytes each meaning computes, as parts of `sigBytes`; then the three orders of checks the commands have;
then one equation for each command that completes, from which the statements about one command and about sequences follow. -/

namespace Sys2Proof.Machine

/-! ### The meanings as shapes of R14 -/

theorem exec_bmov (rd ra : BufReg) (s : State) : exec (.bmov rd ra) s = execBmov rd ra s := rfl

theorem exec_lmw (rd ra : BufReg) (n : Nat) (s : State) : exec (.lmw rd ra n) s = execLmw rd ra n s := rfl

theorem exec_lmb (rd ra : BufReg) (n : Nat) (s : State) : exec (.lmb rd ra n) s = execLmb rd ra n s := rfl

theorem exec_rmb (rd ra : BufReg) (n : Nat) (s : State) : exec (.rmb rd ra n) s = execRmb rd ra n s := rfl

theorem exec_popw (rd ra : BufReg) (n : Nat) (s : State) : exec (.popw rd ra n) s = execPopw rd ra n s := rfl

theorem exec_shob (rd ra : BufReg) (n : Nat) (s : State) : exec (.shob rd ra n) s = execShob rd ra n s := rfl

theorem exec_xort (rd ra rb : BufReg) (s : State) : exec (.xort rd ra rb) s = execXort rd ra rb s := rfl

theorem exec_eq (rd : ScalarReg) (ra rb : BufReg) (s : State) : exec (.eq rd ra rb) s = execEq rd ra rb s := rfl

theorem exec_msb (rd : ScalarReg) (ra : BufReg) (s : State) : exec (.msb rd ra) s = execMsb rd ra s := rfl

theorem exec_cat (rd ra rb : BufReg) (s : State) : exec (.cat rd ra rb) s = execCat rd ra rb s := rfl

/-! ### The bytes of parts of a buffer -/

theorem take_sigBytes (b : Buf) {n : Nat} (hn : n ≤ b.sig) : b.sigBytes.take n = (List.range n).map b.byteAt := by
  rw [Buf.sigBytes, ← List.map_take, List.take_range, Nat.min_eq_left hn]

theorem drop_sigBytes (b : Buf) (n : Nat) :
    b.sigBytes.drop n = (List.range (b.sig - n)).map fun k => b.byteAt (n + k) :=
  List.ext_getElem (by simp) fun k _ _ => by simp

/-- A byte of the first `n` words is the buffer's own byte. -/
theorem byteOfWords_take {w : List Word} {n k : Nat} (hk : k < 4 * n) : byteOfWords (w.take n) k = byteOfWords w k := by
  have hword : k / 4 < n := by omega
  simp [byteOfWords, List.getD, List.getElem?_take_of_lt hword]

/-- The leading words hold the leading bytes, four each (R110). -/
theorem sigBytes_takeWords (b : Buf) (n : Nat) :
    Buf.sigBytes { valid := true, w := b.w.take n, sig := min b.sig (4 * n) } = b.sigBytes.take (4 * n) := by
  refine List.ext_getElem (by simp [Nat.min_comm]) fun k hk _ => ?_
  have hk' : k < 4 * n := lt_of_lt_of_le (by simpa using hk) (Nat.min_le_right b.sig (4 * n))
  rw [getElem_sigBytes, List.getElem_take, getElem_sigBytes]
  exact byteOfWords_take hk'

@[simp] theorem sigBytes_clampv (b : Buf) : b.clampv.sigBytes = b.sigBytes := by
  refine List.ext_getElem (by simp) fun k _ hk => ?_
  have hk' : k < b.sig := by simpa using hk
  simp [hk']

/-- The last `n` bytes, which the clamp has kept (R112). -/
theorem trailingBytes_eq_drop (b : Buf) {n : Nat} (hn : n ≤ b.sig) :
    ((List.range n).map fun k => b.clampv.byteAt (b.sig - n + k)) = b.sigBytes.drop (b.sig - n) := by
  have hdrop := drop_sigBytes b.clampv (b.sig - n)
  rw [sigBytes_clampv, clampv_sig, Nat.sub_sub_self hn] at hdrop
  exact hdrop.symm

/-- The bytes XORT combines: as many from the end of `a` as `b` has (R132). -/
theorem xoredTail_eq_zipWith (a b : Buf) (h : b.sig ≤ a.sig) :
    ((List.range b.sig).map fun k => a.byteAt (a.sig - b.sig + k) ^^^ b.byteAt k) =
      List.zipWith (fun x y => x ^^^ y) (a.sigBytes.drop (a.sig - b.sig)) b.sigBytes := by
  rw [drop_sigBytes, Nat.sub_sub_self h, Buf.sigBytes, List.zipWith_map, List.zipWith_self]

/-- Comparing the words of two clamped buffers of one `sig` compares their significant bytes (R140). -/
theorem clampv_words_eq_iff {a b : Buf} (ha : a.valid = true) (hb : b.valid = true) (hsig : a.sig = b.sig) :
    a.clampv.w = b.clampv.w ↔ a.sigBytes = b.sigBytes := by
  constructor
  · intro hw
    have hbyte : a.clampv.byteAt = b.clampv.byteAt := congrArg byteOfWords hw
    rw [← sigBytes_clampv a, ← sigBytes_clampv b, Buf.sigBytes, Buf.sigBytes, hbyte, clampv_sig, clampv_sig, hsig]
  · intro hbytes
    rw [clampv_eq_mkBuf a ha, clampv_eq_mkBuf b hb, hbytes]

/-- A word shifted right by 31 is its top bit (R145). -/
theorem ushiftRight_31 (x : Word) : x >>> 31 = if x.getLsbD 31 then 1 else 0 := by
  have hx := x.isLt
  have hbit : x.getLsbD 31 = decide (2 ^ 31 ≤ x.toNat) := BitVec.msb_eq_getLsbD_last x ▸ BitVec.msb_eq_decide x
  apply BitVec.eq_of_toNat_eq
  rw [BitVec.toNat_ushiftRight, Nat.shiftRight_eq_div_pow, hbit]
  by_cases h : 2 ^ 31 ≤ x.toNat
  · rw [if_pos (decide_eq_true h)]
    show x.toNat / 2 ^ 31 = 1
    omega
  · rw [if_neg (by simpa using h)]
    show x.toNat / 2 ^ 31 = 0
    omega

/-! ### The orders of checks -/

/-- One source and one condition: UNWRITTEN_BUFFER, then the condition's fault, else what the two checks let through. -/
theorem oneSource_cases {s : State} {ra : BufReg} {c : Cause} {good : Buf → Prop} [∀ a, Decidable (good a)]
    {k : Buf → Result} {r : Result} {bad P : Prop} [Decidable bad]
    (hr : r = withBuffer s ra fun a => require (good a) c s (k a)) (hbad : bad ↔ ¬good (s.buf ra))
    (hP : (s.buf ra).valid = true → good (s.buf ra) → P) :
    if (s.buf ra).valid = false then r = .next (s.raise .unwrittenBuffer)
    else if bad then r = .next (s.raise c)
    else P := by
  subst hr
  split
  next hv => exact withBuffer_neg hv _
  next hv =>
    have hv' := Bool.eq_true_of_not_eq_false hv
    split
    next hb => rw [withBuffer_pos hv', require_neg (hbad.mp hb)]
    next hb => exact hP hv' (not_not.mp (mt hbad.mpr hb))

/-- One source moved to another register (R120, R121): UNWRITTEN_BUFFER, then the fault for one register
named twice, then LENGTH_MISMATCH. -/
theorem moveSource_cases {s : State} {rd ra : BufReg} {good : Buf → Prop} [∀ a, Decidable (good a)] {k : Buf → Result}
    {r : Result} {bad P : Prop} [Decidable bad]
    (hr : r = withBuffer s ra fun a => require (rd ≠ ra) .aliased s (require (good a) .lengthMismatch s (k a)))
    (hbad : bad ↔ ¬good (s.buf ra)) (hP : (s.buf ra).valid = true → rd ≠ ra → good (s.buf ra) → P) :
    if (s.buf ra).valid = false then r = .next (s.raise .unwrittenBuffer)
    else if rd = ra then r = .next (s.raise .aliased)
    else if bad then r = .next (s.raise .lengthMismatch)
    else P := by
  subst hr
  split
  next hv => exact withBuffer_neg hv _
  next hv =>
    have hv' := Bool.eq_true_of_not_eq_false hv
    split
    next hsame => rw [withBuffer_pos hv', require_neg (not_not.mpr hsame)]
    next hsame =>
      split
      next hb => rw [withBuffer_pos hv', require_pos hsame, require_neg (hbad.mp hb)]
      next hb => exact hP hv' hsame (not_not.mp (mt hbad.mpr hb))

/-- Two sources and one condition: UNWRITTEN_BUFFER for either source, then the condition's fault. -/
theorem twoSources_cases {s : State} {ra rb : BufReg} {c : Cause} {good : Buf → Buf → Prop}
    [∀ a b, Decidable (good a b)] {k : Buf → Buf → Result} {r : Result} {bad P : Prop} [Decidable bad]
    (hr : r = withBuffer s ra fun a => withBuffer s rb fun b => require (good a b) c s (k a b))
    (hbad : bad ↔ ¬good (s.buf ra) (s.buf rb))
    (hP : (s.buf ra).valid = true → (s.buf rb).valid = true → good (s.buf ra) (s.buf rb) → P) :
    if (s.buf ra).valid = false ∨ (s.buf rb).valid = false then r = .next (s.raise .unwrittenBuffer)
    else if bad then r = .next (s.raise c)
    else P := by
  subst hr
  split
  next hv =>
    cases ha : (s.buf ra).valid with
    | false => exact withBuffer_neg ha _
    | true =>
      have hb : (s.buf rb).valid = false := by simpa [ha] using hv
      rw [withBuffer_pos ha, withBuffer_neg hb]
  next hv =>
    obtain ⟨ha, hb⟩ : (s.buf ra).valid = true ∧ (s.buf rb).valid = true := by simpa using hv
    split
    next hc => rw [withBuffer_pos ha, withBuffer_pos hb, require_neg (hbad.mp hc)]
    next hc => exact hP ha hb (not_not.mp (mt hbad.mpr hc))

/-- A command that completes with a clamped buffer in its destination, and nothing else. -/
theorem completes_mkBuf {r : Result} {s : State} {rd : BufReg} {l : List Byte}
    (h : r = .next (s.setBuf rd (mkBuf l)).advance) :
    ∃ t, r = .next t ∧ CompletedBut s t [rd] [] 0 0 ∧ t.sess = s.sess ∧ (t.buf rd).Holds l := by
  refine ⟨_, h, completedBut_setBuf .., rfl, ?_⟩
  rw [buf_advance, buf_setBuf_self]
  exact holds_mkBuf l

/-! ### Each command that completes, as one next state -/

section Completions

variable {s : State} {rd ra rb : BufReg} {n : Nat}

theorem exec_bmov_completes (ha : (s.buf ra).valid = true) :
    exec (.bmov rd ra) s = .next (s.setBuf rd (s.buf ra)).advance :=
  (exec_bmov ..).trans (withBuffer_pos ha _)

theorem exec_lmw_completes (ha : (s.buf ra).valid = true) (hn : n ≤ (s.buf ra).len) :
    exec (.lmw rd ra n) s = .next (s.setBuf rd (mkBuf ((s.buf ra).sigBytes.take (4 * n)))).advance := by
  rw [exec_lmw, execLmw, withBuffer_pos ha, require_pos hn, complete_eq, clampv_eq_mkBuf _ rfl, sigBytes_takeWords]

theorem exec_lmb_completes (ha : (s.buf ra).valid = true) (hn : n ≤ (s.buf ra).sig) :
    exec (.lmb rd ra n) s = .next (s.setBuf rd (mkBuf ((s.buf ra).sigBytes.take n))).advance := by
  rw [exec_lmb, execLmb, withBuffer_pos ha, require_pos hn, complete_eq, take_sigBytes _ hn]

theorem exec_rmb_completes (ha : (s.buf ra).valid = true) (hn : n ≤ (s.buf ra).sig) :
    exec (.rmb rd ra n) s = .next ((s.setBuf ra (s.buf ra).clampv).setBuf rd
      (mkBuf ((s.buf ra).sigBytes.drop ((s.buf ra).sig - n)))).advance := by
  rw [exec_rmb, execRmb, withBuffer_pos ha, require_pos hn, complete_eq, trailingBytes_eq_drop _ hn]

theorem exec_popw_completes (ha : (s.buf ra).valid = true) (hne : rd ≠ ra) (hn : 4 * n ≤ (s.buf ra).sig) :
    exec (.popw rd ra n) s = .next ((s.setBuf rd { valid := true, w := (s.buf ra).w.take n, sig := 4 * n }).setBuf ra
      { valid := true, w := (s.buf ra).w.drop n, sig := (s.buf ra).sig - 4 * n }).advance := by
  rw [exec_popw, execPopw, withBuffer_pos ha, require_pos hne, require_pos hn, complete_eq]

theorem exec_shob_completes (ha : (s.buf ra).valid = true) (hne : rd ≠ ra) (hn : n ≤ (s.buf ra).sig) :
    exec (.shob rd ra n) s = .next ((s.setBuf rd (mkBuf ((s.buf ra).sigBytes.take n))).setBuf ra
      (mkBuf ((s.buf ra).sigBytes.drop n))).advance := by
  rw [exec_shob, execShob, withBuffer_pos ha, require_pos hne, require_pos hn, complete_eq]

theorem exec_xort_completes (ha : (s.buf ra).valid = true) (hb : (s.buf rb).valid = true)
    (hsig : (s.buf rb).sig ≤ (s.buf ra).sig) :
    exec (.xort rd ra rb) s = .next (s.setBuf rd (mkBuf
      ((s.buf ra).sigBytes.take ((s.buf ra).sig - (s.buf rb).sig) ++ List.zipWith (fun x y => x ^^^ y)
        ((s.buf ra).sigBytes.drop ((s.buf ra).sig - (s.buf rb).sig)) (s.buf rb).sigBytes))).advance := by
  rw [exec_xort, execXort, withBuffer_pos ha, withBuffer_pos hb, require_pos hsig, complete_eq,
    take_sigBytes _ (Nat.sub_le ..), xoredTail_eq_zipWith _ _ hsig]

theorem exec_cat_completes (ha : (s.buf ra).valid = true) (hb : (s.buf rb).valid = true)
    (hcap : (s.buf ra).sig + (s.buf rb).sig ≤ 128) :
    exec (.cat rd ra rb) s = .next (s.setBuf rd (mkBuf ((s.buf ra).sigBytes ++ (s.buf rb).sigBytes))).advance := by
  rw [exec_cat, execCat, withBuffer_pos ha, withBuffer_pos hb, require_pos (ceil4_le_bufCapWords_iff.mpr hcap), complete_eq]

variable {q : ScalarReg}

theorem exec_msb_completes (ha : (s.buf ra).valid = true) (hlen : 1 ≤ (s.buf ra).len) :
    exec (.msb q ra) s =
      .next (s.setScalar q (if ((s.buf ra).w.getD 0 0).getLsbD 31 then 1 else 0)).advance := by
  rw [exec_msb, execMsb, withBuffer_pos ha, require_pos hlen, complete_eq, ushiftRight_31, List.headD_eq_getD]

theorem exec_eq_incomparable
    (h : (s.buf ra).valid = false ∨ (s.buf rb).valid = false ∨ (s.buf ra).sig ≠ (s.buf rb).sig) :
    exec (.eq q ra rb) s = .next (s.setScalar q 0).advance := by
  rw [exec_eq, execEq]
  split
  · rfl
  · next hvalid =>
    obtain ⟨ha, hb⟩ : (s.buf ra).valid = true ∧ (s.buf rb).valid = true := by simpa using hvalid
    have hsig : (s.buf ra).sig ≠ (s.buf rb).sig := by simpa [ha, hb] using h
    rw [if_pos hsig, complete_eq]

theorem exec_eq_compares (ha : (s.buf ra).valid = true) (hb : (s.buf rb).valid = true)
    (hsig : (s.buf ra).sig = (s.buf rb).sig) :
    exec (.eq q ra rb) s = .next (((s.setBuf ra (s.buf ra).clampv).setBuf rb (s.buf rb).clampv).setScalar q
      (if (s.buf ra).sigBytes = (s.buf rb).sigBytes then 1 else 0)).advance := by
  simp only [exec_eq, execEq, ha, hb, hsig, Bool.not_true, Bool.or_self, Bool.false_eq_true, ne_eq, not_true_eq_false,
    if_false, complete_eq, clampv_words_eq_iff ha hb hsig]

/-- EQ yields 1 for two written registers with the same significant bytes. -/
theorem exec_eq_sameBytes (ha : (s.buf ra).valid = true) (hb : (s.buf rb).valid = true)
    (hbytes : (s.buf ra).sigBytes = (s.buf rb).sigBytes) : ∃ t, exec (.eq q ra rb) s = .next t ∧ t.scalar q = 1 := by
  have hsig : (s.buf ra).sig = (s.buf rb).sig := by simpa using congrArg List.length hbytes
  refine ⟨_, exec_eq_compares ha hb hsig, ?_⟩
  rw [scalar_advance, scalar_setScalar_self, if_pos hbytes]

end Completions

/-! ### The slices -/

/-- Settles O20: the checked read, then the source's value in the destination. -/
theorem bmovCopiesExactly : Obligations.BmovCopiesExactly := by
  intro s rd ra
  split
  next hv => exact (exec_bmov ..).trans (withBuffer_neg hv _)
  next hv =>
    refine ⟨_, exec_bmov_completes (Bool.eq_true_of_not_eq_false hv), completedBut_setBuf .., rfl, ?_⟩
    rw [buf_advance, buf_setBuf_self]

/-- Settles O23: the leading words, clamped, are the buffer of the bytes they hold. -/
theorem lmwTakesLeadingWords : Obligations.LmwTakesLeadingWords := fun _ _ _ _ =>
  oneSource_cases (exec_lmw ..) Nat.not_le.symm fun hv hn => completes_mkBuf (exec_lmw_completes hv hn)

/-- Settles O24: the bytes LMB reads are the first significant ones. -/
theorem lmbTakesLeadingBytes : Obligations.LmbTakesLeadingBytes := fun _ _ _ _ =>
  oneSource_cases (exec_lmb ..) Nat.not_le.symm fun hv hn => completes_mkBuf (exec_lmb_completes hv hn)

/-- Settles O25: the result is written last, so it stands in the destination even when that is the source. -/
theorem rmbTakesTrailingBytes : Obligations.RmbTakesTrailingBytes := by
  intro s rd ra n
  refine oneSource_cases (exec_rmb ..) Nat.not_le.symm fun hv hn => ?_
  refine ⟨_, exec_rmb_completes hv hn, completedBut_setBuf_setBuf _ _ _ (by simp) (by simp), rfl, ?_, fun hne => ?_⟩
  · rw [buf_advance, buf_setBuf_self]
    exact holds_mkBuf _
  · rw [buf_advance, buf_setBuf_ne _ hne, buf_setBuf_self]
    exact holds_clampv hv

/-! ### The moves -/

/-- Settles O26: the three checks in their order, then the two parts of the word list. -/
theorem popwMovesLeadingWords : Obligations.PopwMovesLeadingWords := by
  intro s rd ra n
  refine moveSource_cases (exec_popw ..) Nat.not_le.symm fun hv hne hn => ?_
  refine ⟨_, exec_popw_completes hv hne hn, completedBut_setBuf_setBuf _ _ _ (by simp) (by simp), rfl, ?_, ?_⟩
  · rw [buf_advance, buf_setBuf_ne _ hne.symm, buf_setBuf_self]
  · rw [buf_advance, buf_setBuf_self]

/-- Settles O27: the three checks in their order, then the two parts of the significant bytes. -/
theorem shobMovesLeadingBytes : Obligations.ShobMovesLeadingBytes := by
  intro s rd ra n
  refine moveSource_cases (exec_shob ..) Nat.not_le.symm fun hv hne hn => ?_
  refine ⟨_, exec_shob_completes hv hne hn, completedBut_setBuf_setBuf _ _ _ (by simp) (by simp), rfl, ?_, ?_⟩
  · rw [buf_advance, buf_setBuf_ne _ hne.symm, buf_setBuf_self]
    exact holds_mkBuf _
  · rw [buf_advance, buf_setBuf_self]
    exact holds_mkBuf _

/-! ### XORT, CAT and MSB -/

/-- Settles O30: the checks of the two sources, then the leading bytes and the combined ones. -/
theorem xortXorsTheTail : Obligations.XortXorsTheTail := fun _ _ _ _ =>
  twoSources_cases (exec_xort ..) Nat.not_le.symm fun ha hb hsig => completes_mkBuf (exec_xort_completes ha hb hsig)

/-- Settles O33: a capacity of 32 words is one of 128 bytes. -/
theorem catJoinsTheBytes : Obligations.CatJoinsTheBytes := fun _ _ _ _ =>
  twoSources_cases (exec_cat ..) (Nat.not_le.symm.trans (not_congr ceil4_le_bufCapWords_iff.symm)) fun ha hb hcap =>
    completes_mkBuf (exec_cat_completes ha hb (ceil4_le_bufCapWords_iff.mp hcap))

/-- Settles O32: the shift of the first word leaves its top bit. -/
theorem msbReadsBit31 : Obligations.MsbReadsBit31 := by
  intro s rd ra
  refine oneSource_cases (exec_msb ..) (by omega) fun hv hlen => ?_
  refine ⟨_, exec_msb_completes hv hlen, completedBut_setScalar .., rfl, ?_⟩
  rw [scalar_advance, scalar_setScalar_self]

/-! ### EQ -/

/-- Settles O31: the two cases of R140; with one register named twice both clamps write the same value. -/
theorem eqComparesAndClamps : Obligations.EqComparesAndClamps := by
  intro s rd ra rb
  by_cases h : (s.buf ra).valid = false ∨ (s.buf rb).valid = false ∨ (s.buf ra).sig ≠ (s.buf rb).sig
  · refine ⟨_, exec_eq_incomparable h, (completedBut_setScalar ..).mono nofun fun _ hq => hq, rfl, ?_⟩
    rw [if_pos h]
    exact ⟨scalar_setScalar_self .., rfl, rfl⟩
  · obtain ⟨ha, hb, hsig⟩ : (s.buf ra).valid = true ∧ (s.buf rb).valid = true ∧ (s.buf ra).sig = (s.buf rb).sig := by
      simpa using h
    refine ⟨_, exec_eq_compares ha hb hsig, completedBut_setBuf_setBuf_setScalar .., rfl, ?_⟩
    rw [if_neg h, scalar_advance, scalar_setScalar_self, buf_advance, buf_setScalar, buf_advance, buf_setScalar,
      buf_setBuf_self]
    refine ⟨ite_eq_or_eq .., Ne.ite_eq_left_iff (by decide), ?_, holds_clampv hb⟩
    by_cases hr : rb = ra
    · subst hr
      rw [buf_setBuf_self]
      exact holds_clampv hb
    · rw [buf_setBuf_ne _ hr, buf_setBuf_self]
      exact holds_clampv ha

/-- Settles O36: a register has its own bytes; registers of two lengths are not compared. -/
theorem eqOfItselfAndOfOtherLengths : Obligations.EqOfItselfAndOfOtherLengths := by
  refine ⟨fun s q x hv => exec_eq_sameBytes hv hv rfl, fun s q x y hsig => ?_⟩
  exact ⟨_, exec_eq_incomparable (.inr (.inr hsig)), scalar_setScalar_self ..⟩

/-! ### Sequences of commands -/

/-- Settles O34: RMB and LMB leave `drop` and `take` at one point, CAT joins them to the whole, and the source stays clamped
until EQ compares the two. -/
theorem slicesReconstructTheBuffer : Obligations.SlicesReconstructTheBuffer := by
  intro s x r1 r2 r3 q n hok hv hn h1x h2x h12
  obtain ⟨t1, hrmb, hx1, htail1⟩ : ∃ t1, exec (.rmb r1 x n) s = .next t1 ∧ t1.buf x = (s.buf x).clampv ∧
      t1.buf r1 = mkBuf ((s.buf x).sigBytes.drop ((s.buf x).sig - n)) :=
    ⟨_, exec_rmb_completes hv hn, by simp [buf_setBuf_ne _ h1x], by simp⟩
  obtain ⟨t2, hlmb, hx2, htail2, hhead2⟩ : ∃ t2, exec (.lmb r2 x ((s.buf x).sig - n)) t1 = .next t2 ∧
      t2.buf x = (s.buf x).clampv ∧ t2.buf r1 = mkBuf ((s.buf x).sigBytes.drop ((s.buf x).sig - n)) ∧
      t2.buf r2 = mkBuf ((s.buf x).sigBytes.take ((s.buf x).sig - n)) :=
    ⟨_, exec_lmb_completes (by simp [hx1, hv]) (by simp [hx1]), by simp [buf_setBuf_ne _ h2x, hx1],
      by simp [buf_setBuf_ne _ h12.symm, htail1], by simp [hx1]⟩
  have hcap : (t2.buf r2).sig + (t2.buf r1).sig ≤ 128 := by
    have hsig := ceil4_le_bufCapWords_iff.mp (hok.ceil4_sig_le hv)
    simp only [hhead2, htail2, mkBuf_sig, List.length_take, List.length_drop, length_sigBytes]
    omega
  obtain ⟨t3, hcat, hx3, hjoin⟩ : ∃ t3, exec (.cat r3 r2 r1) t2 = .next t3 ∧ t3.buf x = (s.buf x).clampv ∧
      t3.buf r3 = (s.buf x).clampv := by
    have hbytes : mkBuf ((t2.buf r2).sigBytes ++ (t2.buf r1).sigBytes) = (s.buf x).clampv := by
      rw [hhead2, htail2, mkBuf_sigBytes, mkBuf_sigBytes, List.take_append_drop, clampv_eq_mkBuf _ hv]
    refine ⟨_, exec_cat_completes (by rw [hhead2, mkBuf_valid]) (by rw [htail2, mkBuf_valid]) hcap, ?_, ?_⟩
    · rw [buf_advance, buf_setBuf, hbytes, hx2, ite_self]
    · rw [buf_advance, buf_setBuf_self, hbytes]
  obtain ⟨t4, heq, hone⟩ := exec_eq_sameBytes (s := t3) (ra := r3) (rb := x) (q := q) (by simp [hjoin, hv])
    (by simp [hx3, hv]) (by rw [hjoin, hx3])
  exact ⟨t1, t2, t3, t4, hrmb, hlmb, hcat, hjoin, heq, hone⟩

/-- XORing the words of `w` on twice gives the first words back. -/
theorem zipWith_xor_cancel {v w : List Word} (hl : v.length = w.length) :
    List.zipWith (· ^^^ ·) (List.zipWith (· ^^^ ·) v w) w = v := by
  refine List.ext_getElem (by simp [hl]) fun i _ _ => ?_
  rw [List.getElem_zipWith, List.getElem_zipWith, BitVec.xor_assoc, BitVec.xor_self, BitVec.xor_zero]

/-- XOR in place, as a buffer value: the register takes the combined words and keeps its `sig`; no other register changes. -/
theorem exec_xor_inPlace {s : State} {r b : BufReg} (hr : (s.buf r).valid = true) (hb : (s.buf b).valid = true)
    (hsig : (s.buf r).sig = (s.buf b).sig) :
    ∃ t, exec (.xor r r b) s = .next t ∧
      t.buf r = { valid := true, w := List.zipWith (· ^^^ ·) (s.buf r).w (s.buf b).w, sig := (s.buf r).sig } ∧
      ∀ p, r ≠ p → t.buf p = s.buf p :=
  ⟨_, (exec_xor ..).trans (wordwise_completes hr hb hsig), by rw [buf_advance, buf_setBuf_self],
    fun p hp => by rw [buf_advance, buf_setBuf_ne _ hp]⟩

/-- Settles O35: sound buffers of one `sig` have one length, so XOR leaves out no word, and XORing twice cancels. -/
theorem xorIsAnInvolution : Obligations.XorIsAnInvolution := by
  intro s a b r q hoka hokb hva hvb hsig hrb
  have hlen : (s.buf a).w.length = (s.buf b).w.length := by rw [hoka.len_eq hva, hokb.len_eq hvb, hsig]
  obtain ⟨t1, hmov, hr1, hkeep1⟩ : ∃ t1, exec (.bmov r a) s = .next t1 ∧ t1.buf r = s.buf a ∧
      ∀ p, r ≠ p → t1.buf p = s.buf p :=
    ⟨_, exec_bmov_completes hva, by simp, fun p hp => by simp [buf_setBuf_ne _ hp]⟩
  have hb1 : t1.buf b = s.buf b := hkeep1 b hrb
  obtain ⟨t2, hxor, hr2, hkeep2⟩ := exec_xor_inPlace (s := t1) (r := r) (b := b) (by rw [hr1, hva]) (by rw [hb1, hvb])
    (by rw [hr1, hb1, hsig])
  have hb2 : t2.buf b = s.buf b := (hkeep2 b hrb).trans hb1
  obtain ⟨t3, hxor', hr3, hkeep3⟩ := exec_xor_inPlace (s := t2) (r := r) (b := b) (by rw [hr2]) (by rw [hb2, hvb])
    (by rw [hr2, hr1, hb2, hsig])
  have hback : t3.buf r = s.buf a := by
    rw [hr3, hr2, hb2, hr1, hb1, zipWith_xor_cancel hlen, ← hva]
  have ha3 : t3.buf a = s.buf a := by
    by_cases hra : r = a
    · exact hra ▸ hback
    · rw [hkeep3 a hra, hkeep2 a hra, hkeep1 a hra]
  obtain ⟨t4, heq, hone⟩ := exec_eq_sameBytes (s := t3) (ra := r) (rb := a) (q := q) (by rw [hback, hva])
    (by rw [ha3, hva]) (by rw [hback, ha3])
  exact ⟨t1, t2, t3, t4, hmov, hxor, hxor', hback, heq, hone⟩

end Sys2Proof.Machine
end

section
/-! The doubling family: DBL (R160, R161) and its agreement with MSB and SHL (R162). The constant RB touches the last word
only, so XORing it word by word is XORing 0x87 into the buffer's value, and the bit that decides it is the one SHL by 1 sends
out. -/

namespace Sys2Proof.Machine

/-! ### The top bit -/

/-- The bit a shift by one sends out is the one MSB reads (R145, R162). -/
theorem shiftCarry_one (w : List Word) : shiftCarry 1 w = if (w.headD 0).getLsbD 31 then 1 else 0 := by
  cases w with
  | nil => rfl
  | cons x xs => exact ushiftRight_31 x

/-- The top bit of four words is bit 127 of the number they are (R160). -/
theorem topBit_iff_le_wordsValue {w : List Word} (hlen : w.length = 4) :
    (w.headD 0).getLsbD 31 = true ↔ 2 ^ 127 ≤ wordsValue w := by
  have hcarry := toNat_shiftCarry (n := 1) (by omega) w
  have hlt := wordsValue_lt w
  rw [shiftCarry_one, hlen] at hcarry
  rw [hlen] at hlt
  split at hcarry
  · next htop =>
    have hone : 1 = wordsValue w * 2 ^ 1 / 2 ^ (32 * 4) := hcarry
    exact iff_of_true htop (by omega)
  · next htop =>
    have hzero : 0 = wordsValue w * 2 ^ 1 / 2 ^ (32 * 4) := hcarry
    exact iff_of_false htop (by omega)

/-! ### The constant RB -/

theorem wordsValue_concat (w : List Word) (x : Word) : wordsValue (w ++ [x]) = wordsValue w * 2 ^ 32 + x.toNat := by
  simp [wordsValue]

/-- XORing a word into the last word XORs its value into the number. -/
theorem wordsValue_concat_xor (w : List Word) (x c : Word) :
    wordsValue (w ++ [x ^^^ c]) = wordsValue (w ++ [x]) ^^^ c.toNat := by
  have hx := x.isLt
  have hc := c.isLt
  rw [wordsValue_concat, wordsValue_concat, BitVec.toNat_xor]
  have hdiv := Nat.xor_div_two_pow (a := wordsValue w * 2 ^ 32 + x.toNat) (b := c.toNat) (n := 32)
  have hmod := Nat.xor_mod_two_pow (a := wordsValue w * 2 ^ 32 + x.toNat) (b := c.toNat) (n := 32)
  have hhigh : (wordsValue w * 2 ^ 32 + x.toNat) / 2 ^ 32 = wordsValue w := by omega
  rw [hhigh, Nat.div_eq_of_lt hc, Nat.xor_zero] at hdiv
  rw [Nat.mul_add_mod', Nat.mod_eq_of_lt hx, Nat.mod_eq_of_lt hc] at hmod
  have hsplit := Nat.div_add_mod' ((wordsValue w * 2 ^ 32 + x.toNat) ^^^ c.toNat) (2 ^ 32)
  rwa [hdiv, hmod] at hsplit

theorem take_three_concat {w : List Word} (hlen : w.length = 4) : w.take 3 ++ [w.getD 3 0] = w := by
  match w, hlen with
  | [_, _, _, _], _ => rfl

/-- RB changes the last of four words only (R161). -/
theorem zipWith_xor_rbWords {w : List Word} (hlen : w.length = 4) :
    List.zipWith (fun x y => x ^^^ y) w Config.rbWords = w.take 3 ++ [w.getD 3 0 ^^^ 0x00000087#32] := by
  match w, hlen with
  | [a, b, c, d], _ => simp [Config.rbWords]

/-! ### The doubled words -/

theorem doubleWords_of_topBit {w : List Word} (hlen : w.length = 4) (htop : (w.headD 0).getLsbD 31 = true) :
    doubleWords w = (shlWords 1 w).take 3 ++ [(shlWords 1 w).getD 3 0 ^^^ 0x00000087#32] := by
  rw [doubleWords, if_pos htop, zipWith_xor_rbWords ((length_shlWords ..).trans hlen)]

theorem doubleWords_of_not_topBit {w : List Word} (htop : ¬(w.headD 0).getLsbD 31 = true) :
    doubleWords w = shlWords 1 w := if_neg htop

/-- The doubled words as a 128-bit number (R160). -/
theorem wordsValue_doubleWords {w : List Word} (hlen : w.length = 4) :
    wordsValue (doubleWords w) = (wordsValue w * 2 % 2 ^ 128) ^^^ (if 2 ^ 127 ≤ wordsValue w then 0x87 else 0) := by
  have hshift : wordsValue (shlWords 1 w) = wordsValue w * 2 % 2 ^ 128 := by
    rw [wordsValue_shlWords (by omega), hlen, pow_one]
  by_cases htop : (w.headD 0).getLsbD 31 = true
  · rw [if_pos ((topBit_iff_le_wordsValue hlen).mp htop), doubleWords_of_topBit hlen htop, wordsValue_concat_xor,
      take_three_concat ((length_shlWords ..).trans hlen), hshift]
    rfl
  · rw [if_neg (mt (topBit_iff_le_wordsValue hlen).mpr htop), doubleWords_of_not_topBit htop, hshift, Nat.xor_zero]

/-! ### DBL, and SHL by 1 -/

theorem exec_dbl (rd : BufReg) (s : State) : exec (.dbl rd) s = execDbl rd s := rfl

section Completions

variable {s : State} {r : BufReg}

theorem exec_dbl_completes (hv : (s.buf r).valid = true) (hlen : (s.buf r).len = 4) (hsig : (s.buf r).sig = 16) :
    exec (.dbl r) s = .next (s.setBuf r { valid := true, w := doubleWords (s.buf r).w, sig := 16 }).advance := by
  rw [exec_dbl, execDbl, withBuffer_pos hv, require_pos ⟨hlen, hsig⟩, complete_eq]

theorem exec_shl_one_completes {q : ScalarReg} (hv : (s.buf r).valid = true) :
    exec (.shl r q 1) s = .next ((s.setBuf r { valid := true, w := shlWords 1 (s.buf r).w, sig := (s.buf r).sig }).setScalar q
      (shiftCarry 1 (s.buf r).w)).advance := by
  rw [exec_shl, execShl, withBuffer_pos hv, require_pos (by decide), require_pos (by decide), complete_eq]
  rfl

end Completions

/-- Settles O37: the checks in their order, then the value of the doubled words. -/
theorem dblDoublesTheBlock : Obligations.DblDoublesTheBlock := by
  intro s rd
  refine oneSource_cases (exec_dbl ..) not_and_or.symm fun hv hgood => ?_
  obtain ⟨hlen, hsig⟩ := hgood
  refine ⟨_, exec_dbl_completes hv hlen hsig, completedBut_setBuf .., rfl, ?_⟩
  rw [buf_advance, buf_setBuf_self]
  exact ⟨rfl, rfl, length_doubleWords _ hlen, wordsValue_doubleWords hlen⟩

/-- Settles O38: MSB reads the bit by which DBL chooses between SHL's words and those with RB in the last. -/
theorem dblAgreesWithShl : Obligations.DblAgreesWithShl := by
  intro s r q m d h hv hlen hsig hm hd hh
  obtain rfl := Host.Outcome.next.inj ((exec_msb_completes hv (by omega)).symm.trans hm)
  obtain rfl := Host.Outcome.next.inj ((exec_dbl_completes hv hlen hsig).symm.trans hd)
  obtain rfl := Host.Outcome.next.inj ((exec_shl_one_completes hv).symm.trans hh)
  simp only [scalar_advance, scalar_setScalar_self, buf_advance, buf_setScalar, buf_setBuf_self, ← List.headD_eq_getD]
  refine ⟨fun hzero => doubleWords_of_not_topBit fun htop => ?_, fun hone => doubleWords_of_topBit hlen ?_, hsig.symm,
    (length_doubleWords _ hlen).trans hlen.symm⟩
  · rw [if_pos htop] at hzero
    exact absurd hzero (by decide)
  · by_contra htop
    rw [if_neg htop] at hone
    exact absurd hone (by decide)

end Sys2Proof.Machine
end

section
/-! The CFB family (spec/43_cfb.md): CFBI (R171), the checks of CFBP (R177), its agreement with the CFB-s recurrence (R178),
the round trip (R179), the first outputs (R180) and the one-time IV (R183). A CFBP is one run of segment steps over the
segments of its blocks read in order, `segmentRun`; the loops over segments and blocks compute it, and the three derived
properties are inductions over the list of segments. -/

namespace Sys2Proof.Machine

/-! ### The meanings as shapes of R14 -/

theorem exec_cfbi (dir : Dir) (addr seg : Nat) (s : State) : exec (.cfbi dir addr seg) s = execCfbi dir addr seg s := rfl

theorem exec_cfbp (addr nblk : Nat) (s : State) : exec (.cfbp addr nblk) s = execCfbp addr nblk s := rfl

/-! ### CFBI, and the checks of CFBP -/

/-- Settles O39: BAD_SEGMENT, then ADDRESS_RANGE, then the session's registers, with the IV as the number its words are. -/
theorem cfbiCreatesTheSession : Obligations.CfbiCreatesTheSession := by
  intro s dir addr seg
  rw [exec_cfbi, execCfbi]
  split
  next hseg => exact require_neg (mt mem_segmentSet_iff.mp (not_not.mpr hseg)) ..
  next hseg =>
    rw [require_pos (mem_segmentSet_iff.mpr hseg)]
    split
    next hspan => exact require_neg (mt spanFits_iff_not_pastTop.mp (by omega)) ..
    next hspan =>
      rw [require_pos (spanFits_iff_not_pastTop.mpr (by omega)), complete_eq]
      have hbyte : (BitVec.ofNat 8 seg).toNat = seg := Nat.mod_eq_of_lt (by omega)
      exact ⟨_, rfl, completedBut_session .., rfl, rfl, rfl, hbyte, rfl, rfl, toNat_joinBlock ..⟩

/-- Settles O40: NO_SESSION, then ADDRESS_RANGE, then the frame of a CFBP whose checks passed. -/
theorem cfbpIsAllOrNothing : Obligations.CfbpIsAllOrNothing := by
  intro s addr nblk
  split
  next hv => exact (exec_cfbp ..).trans (require_neg (by simp [hv]) ..)
  next hv =>
    have hv' := Bool.eq_true_of_not_eq_false hv
    split
    next hspan =>
      rw [exec_cfbp, execCfbp, require_pos hv', require_neg (mt spanFits_iff_not_pastTop.mp (not_not.mpr hspan))]
    next hspan =>
      refine ⟨_, exec_cfbp_completes hv' hspan, completedBut_processBlocks .., ?_⟩
      rintro rfl
      rfl

/-! ### Runs of segment steps -/

/-- The segment steps on a list of input segments (R173 to R176): the session after the last one, and the output segments. -/
def segmentRun (ciph : Block → Block) (ss : Session) (xs : List Block) : Session × List Block :=
  match xs with
  | [] => (ss, [])
  | x :: rest =>
    let r := segmentStep ciph ss x
    let q := segmentRun ciph r.1 rest
    (q.1, r.2 :: q.2)

section Runs

variable (ciph : Block → Block)

@[simp] theorem segmentRun_nil (ss : Session) : segmentRun ciph ss [] = (ss, []) := rfl

theorem segmentRun_cons (ss : Session) (x : Block) (xs : List Block) :
    segmentRun ciph ss (x :: xs) =
      ((segmentRun ciph (segmentStep ciph ss x).1 xs).1,
        (segmentStep ciph ss x).2 :: (segmentRun ciph (segmentStep ciph ss x).1 xs).2) := rfl

/-- A run goes on where the run before it ended. -/
theorem segmentRun_append (ss : Session) (xs ys : List Block) :
    segmentRun ciph ss (xs ++ ys) =
      ((segmentRun ciph (segmentRun ciph ss xs).1 ys).1,
        (segmentRun ciph ss xs).2 ++ (segmentRun ciph (segmentRun ciph ss xs).1 ys).2) := by
  induction xs generalizing ss with
  | nil => rfl
  | cons x xs ih => simp only [List.cons_append, segmentRun_cons, ih]

theorem segmentRun_keeps (ss : Session) (xs : List Block) :
    (segmentRun ciph ss xs).1.valid = ss.valid ∧ (segmentRun ciph ss xs).1.seg = ss.seg ∧
      (segmentRun ciph ss xs).1.dir = ss.dir := by
  induction xs generalizing ss with
  | nil => exact ⟨rfl, rfl, rfl⟩
  | cons x xs ih => exact ih (segmentStep ciph ss x).1

/-- The first output segments are those of the first input segments (R180). -/
theorem take_segmentRun (ss : Session) (xs : List Block) (m : Nat) :
    (segmentRun ciph ss xs).2.take m = (segmentRun ciph ss (xs.take m)).2 := by
  induction xs generalizing ss m with
  | nil => simp
  | cons x xs ih =>
    cases m with
    | zero => rfl
    | succ m => rw [segmentRun_cons, List.take_succ_cons, List.take_succ_cons, segmentRun_cons, ih]

/-- Both directions compute the same cipher inputs from the same ciphertext and XOR the same keystream, so a Decryptor session
takes an Encryptor's output segments back to its input (R179). -/
theorem segmentRun_decrypt_encrypt {ss : Session} (hdir : ss.dir = .encryptor) (xs : List Block) :
    segmentRun ciph { ss with dir := .decryptor } (segmentRun ciph ss xs).2 =
      ({ (segmentRun ciph ss xs).1 with dir := .decryptor }, xs) := by
  induction xs generalizing ss with
  | nil => rfl
  | cons x xs ih =>
    have hstep : segmentStep ciph { ss with dir := .decryptor } (segmentStep ciph ss x).2 =
        ({ (segmentStep ciph ss x).1 with dir := .decryptor }, x) := by
      have hback : x ^^^ ss.keystream ciph ^^^ ss.keystream ciph = x := by
        rw [BitVec.xor_assoc, BitVec.xor_self, BitVec.xor_zero]
      simp only [segmentStep, hdir]
      exact Prod.ext rfl hback
    rw [segmentRun_cons, segmentRun_cons, hstep, ih (ss := (segmentStep ciph ss x).1) hdir]

/-! ### The recurrence -/

/-- A step of the recurrence is a segment step, and the session it leaves has the next `I_t` as its cipher input (R173 to
R176). -/
theorem cfbRecurrence_cons_segmentStep (ss : Session) (x : Block) (xs : List Block) :
    cfbRecurrence ciph ss.seg.toNat ss.dir ss.cipherInput (x :: xs) =
      { i := ss.cipherInput, x := x, y := (segmentStep ciph ss x).2, c := (segmentStep ciph ss x).1.ct } ::
        cfbRecurrence ciph (segmentStep ciph ss x).1.seg.toNat (segmentStep ciph ss x).1.dir
          (segmentStep ciph ss x).1.cipherInput xs := rfl

/-- A run's output segments are the `Y_t` of the recurrence from the session's cipher input on (R178). -/
theorem segmentRun_output (ss : Session) (xs : List Block) :
    (segmentRun ciph ss xs).2 =
      (cfbRecurrence ciph ss.seg.toNat ss.dir ss.cipherInput xs).map CfbStep.y := by
  induction xs generalizing ss with
  | nil => rfl
  | cons x xs ih =>
    rw [cfbRecurrence_cons_segmentStep, List.map_cons, segmentRun_cons, ih]

/-- A run leaves PREV and CT at the last `I_t` and `C_t` of the recurrence (R176, R178). -/
theorem segmentRun_last (ss : Session) (xs : List Block) {last : CfbStep}
    (h : (cfbRecurrence ciph ss.seg.toNat ss.dir ss.cipherInput xs).getLast? = some last) :
    (segmentRun ciph ss xs).1.prev = last.i ∧ (segmentRun ciph ss xs).1.ct = last.c := by
  induction xs generalizing ss with
  | nil => simp at h
  | cons x xs ih =>
    cases xs with
    | nil =>
      obtain rfl : _ = last := Option.some.inj h
      exact ⟨rfl, rfl⟩
    | cons x' xs =>
      rw [cfbRecurrence_cons_segmentStep, cfbRecurrence_cons_segmentStep, List.getLast?_cons_cons,
        ← cfbRecurrence_cons_segmentStep] at h
      exact ih (segmentStep ciph ss x).1 h

end Runs

/-! ### Words, blocks and segments -/

/-- A block determines its four words, and they it (R172). -/
theorem blockAt_eq_iff {m m' : Memory} {a a' : Nat} :
    m.blockAt a = m'.blockAt a' ↔ ∀ k, k < 4 → m.dmemAt (a + k) = m'.dmemAt (a' + k) := by
  constructor
  · intro h k hk
    have hval := congrArg BitVec.toNat h
    rw [Memory.blockAt, Memory.blockAt, toNat_joinBlock, toNat_joinBlock] at hval
    apply BitVec.eq_of_toNat_eq
    interval_cases k
    · rw [Nat.add_zero, Nat.add_zero]
      omega
    all_goals omega
  · intro h
    have h0 := h 0 (by omega)
    simp only [Nat.add_zero] at h0
    rw [Memory.blockAt, Memory.blockAt, h0, h 1 (by omega), h 2 (by omega), h 3 (by omega)]

/-- Equal words give equal segments. -/
theorem segmentsOf_congr {m m' : Memory} {s a a' n : Nat}
    (h : ∀ k, k < 4 * n → m.dmemAt (a + k) = m'.dmemAt (a' + k)) : segmentsOf m s a n = segmentsOf m' s a' n := by
  rw [segmentsOf, segmentsOf]
  refine List.flatMap_congr fun k hk => ?_
  have hkn := List.mem_range.mp hk
  have hblock : m.blockAt (a + 4 * k) = m'.blockAt (a' + 4 * k) := blockAt_eq_iff.mpr fun i hi => by
    rw [Nat.add_assoc, Nat.add_assoc]
    exact h (4 * k + i) (by omega)
  rw [hblock]

/-- Equal segments are equal words, for a segment size that divides the block. -/
theorem dmemAt_eq_of_segmentsOf {s : Nat} (hfill : 128 / s * s = 128) {m m' : Memory} {a a' n : Nat}
    (h : segmentsOf m s a n = segmentsOf m' s a' n) {k : Nat} (hk : k < 4 * n) :
    m.dmemAt (a + k) = m'.dmemAt (a' + k) := by
  induction n generalizing a a' k with
  | zero => omega
  | succ n ih =>
    rw [segmentsOf_succ, segmentsOf_succ] at h
    obtain ⟨hfirst, hrest⟩ := List.append_inj h (by simp)
    by_cases hk4 : k < 4
    · have hblock : m.blockAt a = m'.blockAt a' := block_ext_segments hfill fun j hj =>
        List.map_inj_left.mp hfirst j (List.mem_range.mpr hj)
      exact blockAt_eq_iff.mp hblock k hk4
    · have hword := ih hrest (k := k - 4) (by omega)
      rwa [Nat.add_assoc, Nat.add_assoc, Nat.add_sub_cancel' (by omega)] at hword

/-! ### The loops are runs of segment steps -/

/-- A segment size that divides the block into whole segments, as the legal ones do (R8, R172). -/
theorem Session.Ok.segments_fill_block {ss : Session} (h : ss.Ok) (hv : ss.valid = true) :
    128 / ss.seg.toNat * ss.seg.toNat = 128 := by
  obtain ⟨hseg, -⟩ := h.1 hv
  simp only [Config.segmentSet, List.mem_cons, List.not_mem_nil, or_false] at hseg
  rcases hseg with hs | hs | hs | hs | hs <;> rw [hs]

/-- The output segment of an input segment lies in the low SEG bits (R174, R175). -/
theorem segmentStep_output_high (ciph : Block → Block) {ss : Session} (hle : ss.seg.toNat ≤ 128) (v : Block) (j : Nat)
    {k : Nat} (hk : ss.seg.toNat ≤ k) :
    (segmentStep ciph ss (getSegment v ss.seg.toNat j)).2.getLsbD k = false := by
  have hkey : (ss.keystream ciph).getLsbD k = false := by
    rw [Session.keystream, BitVec.getLsbD_ushiftRight]
    exact BitVec.getLsbD_of_ge _ _ (by omega)
  rw [segmentStep_output, BitVec.getLsbD_xor, getSegment_high hk, hkey, Bool.xor_false]

/-- Putting a segment leaves the segments after it alone. -/
theorem map_getSegment_putSegment_after {s j n : Nat} (hfit : (j + 1 + n) * s ≤ 128) (v y : Block) :
    (List.range' (j + 1) n).map (getSegment (putSegment v s j y) s) = (List.range' (j + 1) n).map (getSegment v s) := by
  refine List.map_congr_left fun i hi => ?_
  obtain ⟨hlo, hhi⟩ := List.mem_range'_1.mp hi
  have hmono : ∀ k, k ≤ j + 1 + n → k * s ≤ 128 := fun k hk => le_trans (Nat.mul_le_mul_right s hk) hfit
  exact getSegment_putSegment_ne (hmono _ (by omega)) (hmono _ (by omega)) (by omega)

section Loops

variable (ciph : Block → Block)

/-- The loop over segments leaves alone the segments before the one it starts at. -/
theorem getSegment_segmentLoop_before {i j : Nat} (hij : i < j) (n : Nat) (ss : Session) (v : Block)
    (hfit : (j + n) * ss.seg.toNat ≤ 128) :
    getSegment (segmentLoop ciph n j ss v).2 ss.seg.toNat i = getSegment v ss.seg.toNat i := by
  induction n generalizing j ss v with
  | zero => rfl
  | succ n ih =>
    have hj : (j + 1) * ss.seg.toNat ≤ 128 := le_trans (Nat.mul_le_mul_right _ (by omega)) hfit
    have hi : (i + 1) * ss.seg.toNat ≤ 128 := le_trans (Nat.mul_le_mul_right _ (by omega)) hj
    have hrest : (j + 1 + n) * (segmentStep ciph ss (getSegment v ss.seg.toNat j)).1.seg.toNat ≤ 128 := by
      rwa [segmentStep_seg, Nat.add_assoc, Nat.add_comm 1]
    exact (ih (Nat.lt_succ_of_lt hij) _ _ hrest).trans (getSegment_putSegment_ne hi hj (Nat.ne_of_lt hij))

/-- The loop over `n` segments from segment `j` on is a run over them, in place. -/
theorem segmentLoop_eq_run (n j : Nat) (ss : Session) (v : Block) (hfit : (j + n) * ss.seg.toNat ≤ 128) :
    ((segmentLoop ciph n j ss v).1, (List.range' j n).map (getSegment (segmentLoop ciph n j ss v).2 ss.seg.toNat)) =
      segmentRun ciph ss ((List.range' j n).map (getSegment v ss.seg.toNat)) := by
  induction n generalizing j ss v with
  | zero => rfl
  | succ n ih =>
    have hj : (j + 1) * ss.seg.toNat ≤ 128 := le_trans (Nat.mul_le_mul_right _ (by omega)) hfit
    have hle : ss.seg.toNat ≤ 128 := le_trans (Nat.le_mul_of_pos_left _ (Nat.succ_pos j)) hj
    have hrest : (j + 1 + n) * ss.seg.toNat ≤ 128 := by rwa [Nat.add_assoc, Nat.add_comm 1]
    obtain ⟨r, hr⟩ : ∃ r, r = segmentStep ciph ss (getSegment v ss.seg.toNat j) := ⟨_, rfl⟩
    have hseg : r.1.seg = ss.seg := by rw [hr, segmentStep_seg]
    have hput : getSegment (putSegment v ss.seg.toNat j r.2) ss.seg.toNat j = r.2 :=
      getSegment_putSegment_self hj fun k hk => hr ▸ segmentStep_output_high ciph hle v j hk
    have hkept := getSegment_segmentLoop_before ciph (Nat.lt_succ_self j) n r.1 (putSegment v ss.seg.toNat j r.2)
      (hseg ▸ hrest)
    have hrun := ih (j + 1) r.1 (putSegment v ss.seg.toNat j r.2) (hseg ▸ hrest)
    rw [hseg] at hkept hrun
    rw [map_getSegment_putSegment_after hrest] at hrun
    rw [List.range'_succ, List.map_cons, List.map_cons, segmentRun_cons, segmentLoop, ← hr, ← hrun, hkept, hput]

/-- A block step is a run over the segments of the block (R172, R177). -/
theorem blockStep_eq_run {ss : Session} (hfill : 128 / ss.seg.toNat * ss.seg.toNat = 128) (v : Block) :
    ((blockStep ciph ss v).1, (List.range (128 / ss.seg.toNat)).map (getSegment (blockStep ciph ss v).2 ss.seg.toNat)) =
      segmentRun ciph ss ((List.range (128 / ss.seg.toNat)).map (getSegment v ss.seg.toNat)) := by
  rw [List.range_eq_range', blockStep]
  exact segmentLoop_eq_run ciph _ 0 ss v (by rw [Nat.zero_add, hfill])

/-- The segments of blocks away from a store are unchanged. -/
theorem segmentsOf_setList_above (m : Memory) (s a n : Nat) {b : Nat} {vs : List Word} (hb : b + vs.length ≤ a) :
    segmentsOf (m.setList b vs) s a n = segmentsOf m s a n := by
  simp only [segmentsOf, blockAt_setList_outside (m := m) (vs := vs) (.inr (hb.trans (Nat.le_add_right a _)))]

/-- The loop over blocks is a run over the segments of all its blocks, in place (R177). -/
theorem blockLoop_eq_run (n a : Nat) {ss : Session} (m : Memory) (hfill : 128 / ss.seg.toNat * ss.seg.toNat = 128) :
    ((blockLoop ciph n a ss m).1, segmentsOf (blockLoop ciph n a ss m).2 ss.seg.toNat a n) =
      segmentRun ciph ss (segmentsOf m ss.seg.toNat a n) := by
  induction n generalizing a ss m with
  | zero => rfl
  | succ n ih =>
    obtain ⟨r, hr⟩ : ∃ r, r = blockStep ciph ss (m.blockAt a) := ⟨_, rfl⟩
    have hseg : r.1.seg = ss.seg := hr ▸ (segmentLoop_keeps ciph ss _ 0 _).2.1
    have hblock := blockStep_eq_run ciph hfill (m.blockAt a)
    have hrun := ih (a + 4) (m.setList a (splitBlock r.2)) (hseg.symm ▸ hfill)
    have hfirst : (blockLoop ciph n (a + 4) r.1 (m.setList a (splitBlock r.2))).2.blockAt a = r.2 :=
      (blockAt_eq_iff.mpr fun k hk => blockLoop_outside ciph r.1 n (a + 4) _ (.inl (by omega))).trans
        (blockAt_setList_splitBlock m a r.2)
    rw [hseg, segmentsOf_setList_above m _ _ n (by rw [length_splitBlock])] at hrun
    rw [segmentsOf_succ, segmentsOf_succ, segmentRun_append, ← hblock, ← hr, ← hrun, blockLoop, ← hr, hfirst]

/-- What every segment step keeps of the session, the loop over a block's segments keeps. -/
theorem segmentLoop_invariant {P : Session → Prop} (hstep : ∀ ss x, P ss → P (segmentStep ciph ss x).1) (n j : Nat)
    {ss : Session} (v : Block) (h : P ss) : P (segmentLoop ciph n j ss v).1 := by
  induction n generalizing j ss v with
  | zero => exact h
  | succ n ih => exact ih (j + 1) _ (hstep ss _ h)

/-- What every segment step keeps of the session, the loop over blocks keeps. -/
theorem blockLoop_invariant {P : Session → Prop} (hstep : ∀ ss x, P ss → P (segmentStep ciph ss x).1) (n a : Nat)
    {ss : Session} (m : Memory) (h : P ss) : P (blockLoop ciph n a ss m).1 := by
  induction n generalizing a ss m with
  | zero => exact h
  | succ n ih => exact ih (a + 4) _ (segmentLoop_invariant ciph hstep _ 0 _ h)

end Loops

/-! ### CFBP as a run -/

/-- A CFBP whose checks pass is a run over the segments of its blocks, read in order (R172, R177). -/
theorem exec_cfbp_eq_run {s t : State} {addr nblk : Nat} (hok : s.sess.Ok) (hv : s.sess.valid = true)
    (hspan : ¬PastTop addr (4 * nblk)) (h : exec (.cfbp addr nblk) s = .next t) :
    t.sess = (segmentRun (Config.ciph s.cipherKey) s.sess (segmentsOf s.dmem s.sess.seg.toNat addr nblk)).1 ∧
      segmentsOf t.dmem s.sess.seg.toNat addr nblk =
        (segmentRun (Config.ciph s.cipherKey) s.sess (segmentsOf s.dmem s.sess.seg.toNat addr nblk)).2 := by
  obtain rfl := Host.Outcome.next.inj ((exec_cfbp_completes hv hspan).symm.trans h)
  exact Prod.ext_iff.mp (blockLoop_eq_run _ nblk addr s.dmem (hok.segments_fill_block hv))

/-- Settles O41: CFBP is a run over its segments, and a run computes the recurrence. -/
theorem cfbpFollowsTheRecurrence : Obligations.CfbpFollowsTheRecurrence := by
  intro s addr nblk hok hv hspan
  have hnext := exec_cfbp_completes hv hspan
  obtain ⟨hsess, hout⟩ := exec_cfbp_eq_run hok hv hspan hnext
  obtain ⟨hvalid, hseg, hdir⟩ := segmentRun_keeps (Config.ciph s.cipherKey) s.sess
    (segmentsOf s.dmem s.sess.seg.toNat addr nblk)
  rw [← hsess] at hvalid hseg hdir
  refine ⟨_, hnext, hout.trans (segmentRun_output ..), fun last hlast => ?_, hvalid.trans hv, hseg, hdir⟩
  rw [hsess]
  exact segmentRun_last _ _ _ hlast

/-- A session's direction is free: no other register's soundness depends on it (R35). -/
theorem Session.Ok.withDir {ss : Session} (h : ss.Ok) (hv : ss.valid = true) (dir : Dir) :
    Session.Ok { ss with dir := dir } := by
  obtain ⟨hlegal, hpending, hused, -⟩ := h
  exact ⟨hlegal, hpending, hused, fun hinv => absurd (hv.symm.trans hinv) (by decide)⟩

/-- Settles O42: the Decryptor's run over the Encryptor's output segments gives the input segments, so the input words. -/
theorem cfbRoundTrip : Obligations.CfbRoundTrip := by
  intro s s' t t' addr addr' nblk hok hv hdir hspan hspan' ht hsess hkey hcopy ht'
  have hok' : s'.sess.Ok := hsess ▸ hok.withDir hv .decryptor
  have hv' : s'.sess.valid = true := by rw [hsess, hv]
  have hseg : s'.sess.seg = s.sess.seg := by rw [hsess]
  obtain ⟨henc, hcipher⟩ := exec_cfbp_eq_run hok hv hspan ht
  obtain ⟨hdec, hplain⟩ := exec_cfbp_eq_run hok' hv' hspan' ht'
  rw [hseg, segmentsOf_congr hcopy, hcipher, hkey, hsess, segmentRun_decrypt_encrypt _ hdir] at hdec hplain
  refine ⟨fun k hk => dmemAt_eq_of_segmentsOf (hok.segments_fill_block hv) hplain hk, ?_⟩
  rw [hdec, henc]

/-- Settles O43: the first outputs of a run are the run over the first inputs. -/
theorem cfbOutputPrefix : Obligations.CfbOutputPrefix := by
  intro s s' t t' addr nblk m hok hv hspan hsess hkey hinput ht ht'
  obtain ⟨-, hout⟩ := exec_cfbp_eq_run hok hv hspan ht
  obtain ⟨-, hout'⟩ := exec_cfbp_eq_run (hsess ▸ hok) (hsess ▸ hv) hspan ht'
  rw [hsess, hkey] at hout'
  rw [hout, hout', take_segmentRun, take_segmentRun, hinput]

/-! ### The one-time IV -/

/-- The IV has been consumed (R34, R183). -/
def Session.IvConsumed (ss : Session) : Prop := ss.iv = 0 ∧ ss.ivPending = false

/-- A segment step consumes a pending IV and leaves a consumed one so (R173). -/
theorem segmentStep_ivConsumed (ciph : Block → Block) {ss : Session} (h : ss.ivPending = false → ss.iv = 0) (x : Block) :
    (segmentStep ciph ss x).1.IvConsumed := by
  refine ⟨?_, rfl⟩
  cases hp : ss.ivPending with
  | true => simp [segmentStep, hp]
  | false => simpa [segmentStep, hp] using h hp

theorem Session.IvConsumed.segmentStep {ss : Session} (h : ss.IvConsumed) (ciph : Block → Block) (x : Block) :
    (segmentStep ciph ss x).1.IvConsumed :=
  segmentStep_ivConsumed ciph (fun _ => h.1) x

theorem blockLoop_ivConsumed (ciph : Block → Block) {ss : Session} (h : ss.IvConsumed) (n a : Nat) (m : Memory) :
    (blockLoop ciph n a ss m).1.IvConsumed :=
  blockLoop_invariant ciph (fun _ _ hss => hss.segmentStep ciph _) n a m h

/-- A block has at least one segment, whose step consumes the IV (R173). -/
theorem blockStep_ivConsumed (ciph : Block → Block) {ss : Session} (hok : ss.Ok) (hv : ss.valid = true) (v : Block) :
    (blockStep ciph ss v).1.IvConsumed := by
  obtain ⟨q, hq⟩ : ∃ q, 128 / ss.seg.toNat = q + 1 := by
    refine Nat.exists_eq_succ_of_ne_zero fun h0 => ?_
    have hfill := hok.segments_fill_block hv
    simp [h0] at hfill
  rw [blockStep, hq, segmentLoop]
  obtain ⟨-, -, hused, -⟩ := hok
  exact segmentLoop_invariant ciph (fun _ _ hss => hss.segmentStep ciph _) q 1 _ (segmentStep_ivConsumed ciph hused _)

/-- If this result is a next state, its session is that of `s`. -/
def KeepsSession (s : State) (r : Result) : Prop := ∀ t, r = .next t → t.sess = s.sess

theorem keepsSession_complete {s t : State} (h : t.sess = s.sess) : KeepsSession s (complete t) := by
  rintro _ ⟨⟩
  exact h

theorem keepsSession_require {p : Prop} [Decidable p] {c : Cause} {s : State} {k : Result} (hk : KeepsSession s k) :
    KeepsSession s (require p c s k) := by
  intro t ht
  rcases require_next.mp ht with ⟨-, hnext⟩ | ⟨-, rfl⟩
  · exact hk t hnext
  · rfl

theorem keepsSession_withBuffer {s : State} {r : BufReg} {k : Buf → Result} (hk : ∀ b, KeepsSession s (k b)) :
    KeepsSession s (withBuffer s r k) := by
  intro t ht
  rcases withBuffer_next.mp ht with ⟨-, hnext⟩ | ⟨-, rfl⟩
  · exact hk _ t hnext
  · rfl

theorem keepsSession_wordwise (f : Word → Word → Word) (rd ra rb : BufReg) (s : State) :
    KeepsSession s (wordwise f rd ra rb s) :=
  keepsSession_withBuffer fun _ =>
  keepsSession_withBuffer fun _ =>
  keepsSession_require (keepsSession_complete rfl)

theorem keepsSession_execEq (rd : ScalarReg) (ra rb : BufReg) (s : State) : KeepsSession s (execEq rd ra rb s) := by
  rw [execEq]
  split
  · exact keepsSession_complete rfl
  · split <;> exact keepsSession_complete rfl

/-- Only CFBI and CFBP write the session registers, whether the command completes or faults (R170, R233). -/
theorem exec_keepsSession {i : Instr} (hi : writesSession i = false) (s : State) : KeepsSession s (exec i s) := by
  unfold exec
  cases i with
  | cfbi | cfbp => simp [writesSession] at hi
  | nop | halt => exact keepsSession_complete rfl
  | sst | bclr =>
    refine keepsSession_require ?_
    exact keepsSession_complete rfl
  | bld | cfbs =>
    refine keepsSession_require ?_
    refine keepsSession_require ?_
    exact keepsSession_complete rfl
  | bmov | clamp =>
    refine keepsSession_withBuffer fun _ => ?_
    exact keepsSession_complete rfl
  | bst | lmw | lmb | rmb | msb | dbl =>
    refine keepsSession_withBuffer fun _ => ?_
    refine keepsSession_require ?_
    exact keepsSession_complete rfl
  | shl | popw | shob =>
    refine keepsSession_withBuffer fun _ => ?_
    refine keepsSession_require ?_
    refine keepsSession_require ?_
    exact keepsSession_complete rfl
  | xor rd ra rb | and rd ra rb => exact keepsSession_wordwise _ rd ra rb s
  | xort | cat =>
    refine keepsSession_withBuffer fun _ => ?_
    refine keepsSession_withBuffer fun _ => ?_
    refine keepsSession_require ?_
    exact keepsSession_complete rfl
  | eq rd ra rb => exact keepsSession_execEq rd ra rb s

/-- CFBP leaves a consumed IV so, whether it completes or faults (R183). -/
theorem exec_cfbp_ivConsumed {s t : State} {addr nblk : Nat} (h : s.sess.IvConsumed)
    (ht : exec (.cfbp addr nblk) s = .next t) : t.sess.IvConsumed := by
  rw [exec_cfbp, execCfbp] at ht
  rcases require_next.mp ht with ⟨-, hrest⟩ | ⟨-, rfl⟩
  · rcases require_next.mp hrest with ⟨-, hnext⟩ | ⟨-, rfl⟩
    · obtain rfl := Host.Outcome.next.inj hnext
      exact blockLoop_ivConsumed _ h ..
    · exact h
  · exact h

/-- Settles O44: the first block's first step consumes the IV, every later step and every command but CFBI leaves it consumed,
and the cipher input is then built from PREV and CT. -/
theorem theIvIsUsedOnce : Obligations.TheIvIsUsedOnce := by
  refine ⟨fun s t addr nblk hok hv hspan hn ht => ?_, fun i s t hiv hpending ht hi => ?_, fun ss hpending => ?_,
    fun ss hpending hseg => ?_⟩
  · obtain rfl := Host.Outcome.next.inj ((exec_cfbp_completes hv hspan).symm.trans ht)
    obtain ⟨n, rfl⟩ := Nat.exists_eq_add_of_le' hn
    exact blockLoop_ivConsumed _ (blockStep_ivConsumed _ hok hv _) ..
  · cases hw : writesSession i with
    | false =>
      rw [exec_keepsSession hw s t ht]
      exact ⟨hiv, hpending⟩
    | true =>
      cases i with
      | cfbi dir addr seg => exact absurd rfl (hi dir addr seg)
      | cfbp addr nblk => exact exec_cfbp_ivConsumed ⟨hiv, hpending⟩ ht
      | _ => simp [writesSession] at hw
  · simp [Session.cipherInput, hpending]
  · simp [Session.cipherInput, hpending, hseg]

end Sys2Proof.Machine
end

section
/-! The sequencer family: NOP and HALT (R205, R206), the fetch past IMEM (R202), and the end of every run (R204). -/

namespace Sys2Proof.Machine

/-! ### NOP, HALT and the fetch -/

theorem exec_nop (s : State) : exec .nop s = complete s := rfl

theorem exec_halt (s : State) : exec .halt s = complete { s with busy := false, done := true } := rfl

/-- Settles O14. -/
theorem nopOnlyAdvances : Obligations.NopOnlyAdvances := fun s => (exec_nop s).trans (complete_eq s)

/-- Settles O15: with DONE = 1 the IRQ level is IE (R240). -/
theorem haltEndsTheRun : Obligations.HaltEndsTheRun := by
  intro s
  refine ⟨_, (exec_halt s).trans (complete_eq _), rfl, ?_⟩
  simp [State.irq]

/-- The fault entry of a fetch past IMEM, where no word was fetched (R202, R234). -/
theorem raise_fetchRange {s : State} (hpc : Config.imemWords ≤ s.pc.toNat) :
    s.raise .fetchRange = { s with busy := false, fault := true, cause := 1, faultPc := s.pc, faultCmd := 0 } := by
  rw [State.raise, fetchedWord_of_ge hpc]
  rfl

/-- Settles O7: the two branches of the fetch, the second taken by the sequencer's turn. -/
theorem fetchPastImemFaults : Obligations.FetchPastImemFaults := by
  refine fun s => ⟨fetch_of_lt, fun hseq hbusy hpc => ?_⟩
  calc step s = sequencerTurn s.turnTaken := step_of_sequencerNext hseq
    _ = .next (s.turnTaken.raise .fetchRange) := sequencerTurn_pastImem hbusy hpc
    _ = _ := congrArg _ (raise_fetchRange hpc)

/-! ### What a command does to the run -/

/-- The result is a fault entry, or a completion that leaves the run and the environment's turns as they were (R201, R231). -/
def FaultsOrAdvances (s : State) (r : Result) : Prop :=
  (∃ c, r = .next (s.raise c)) ∨ ∃ t, r = .next t ∧ t.pc = s.pc + 1 ∧ t.busy = s.busy ∧ t.agenda = s.agenda

theorem faultsOrAdvances_complete {s t : State} (hpc : t.pc = s.pc) (hbusy : t.busy = s.busy)
    (hagenda : t.agenda = s.agenda) : FaultsOrAdvances s (complete t) :=
  .inr ⟨t.advance, complete_eq t, congrArg (· + 1) hpc, hbusy, hagenda⟩

theorem faultsOrAdvances_require {p : Prop} [Decidable p] {c : Cause} {s : State} {k : Result}
    (hk : FaultsOrAdvances s k) : FaultsOrAdvances s (require p c s k) := by
  by_cases hp : p
  · rwa [require_pos hp]
  · exact .inl ⟨c, require_neg hp ..⟩

theorem faultsOrAdvances_withBuffer {s : State} {r : BufReg} {k : Buf → Result} (hk : ∀ b, FaultsOrAdvances s (k b)) :
    FaultsOrAdvances s (withBuffer s r k) := by
  cases hv : (s.buf r).valid with
  | true => rw [withBuffer_pos hv]; exact hk _
  | false => exact .inl ⟨_, withBuffer_neg hv k⟩

theorem faultsOrAdvances_wordwise (f : Word → Word → Word) (rd ra rb : BufReg) (s : State) :
    FaultsOrAdvances s (wordwise f rd ra rb s) :=
  faultsOrAdvances_withBuffer fun _ =>
  faultsOrAdvances_withBuffer fun _ =>
  faultsOrAdvances_require (faultsOrAdvances_complete rfl rfl rfl)

theorem faultsOrAdvances_execEq (rd : ScalarReg) (ra rb : BufReg) (s : State) :
    FaultsOrAdvances s (execEq rd ra rb s) := by
  rw [execEq]
  split
  · exact faultsOrAdvances_complete rfl rfl rfl
  · split <;> exact faultsOrAdvances_complete rfl rfl rfl

/-- HALT alone ends a run without a fault (R206). -/
theorem exec_faultsOrAdvances {i : Instr} (hi : i ≠ .halt) (s : State) : FaultsOrAdvances s (exec i s) := by
  unfold exec
  cases i with
  | halt => exact absurd rfl hi
  | nop => exact faultsOrAdvances_complete rfl rfl rfl
  | sst | bclr =>
    refine faultsOrAdvances_require ?_
    exact faultsOrAdvances_complete rfl rfl rfl
  | bld | cfbi | cfbp | cfbs =>
    refine faultsOrAdvances_require ?_
    refine faultsOrAdvances_require ?_
    exact faultsOrAdvances_complete rfl rfl rfl
  | bmov | clamp =>
    refine faultsOrAdvances_withBuffer fun _ => ?_
    exact faultsOrAdvances_complete rfl rfl rfl
  | bst | lmw | lmb | rmb | msb | dbl =>
    refine faultsOrAdvances_withBuffer fun _ => ?_
    refine faultsOrAdvances_require ?_
    exact faultsOrAdvances_complete rfl rfl rfl
  | shl | popw | shob =>
    refine faultsOrAdvances_withBuffer fun _ => ?_
    refine faultsOrAdvances_require ?_
    refine faultsOrAdvances_require ?_
    exact faultsOrAdvances_complete rfl rfl rfl
  | xor rd ra rb | and rd ra rb => exact faultsOrAdvances_wordwise _ rd ra rb s
  | xort | cat =>
    refine faultsOrAdvances_withBuffer fun _ => ?_
    refine faultsOrAdvances_withBuffer fun _ => ?_
    refine faultsOrAdvances_require ?_
    exact faultsOrAdvances_complete rfl rfl rfl
  | eq rd ra rb => exact faultsOrAdvances_execEq rd ra rb s

theorem toNat_pc_succ {p : BitVec 11} (hp : p.toNat < Config.imemWords) : (p + 1).toNat = p.toNat + 1 := by
  simp only [Config.imemWords] at hp
  bv_omega

/-- Everything a running sequencer's turn can do to the run: end it by HALT or a fault, with PC not lowered, or go on to the
next command. -/
theorem sequencerTurn_endsOrAdvances {s : State} (hbusy : s.busy = true) :
    ∃ t, sequencerTurn s = .next t ∧
      ((t.busy = false ∧ (t.done = true ∨ t.fault = true) ∧ s.pc.toNat ≤ t.pc.toNat) ∨
        (t.busy = true ∧ s.pc.toNat < Config.imemWords ∧ t.pc.toNat = s.pc.toNat + 1 ∧ t.agenda = s.agenda)) := by
  rcases sequencerTurn_cases hbusy with ⟨-, hturn⟩ | ⟨-, -, hturn⟩ | ⟨hpc, i, -, hturn⟩
  · exact ⟨_, hturn, .inl ⟨rfl, .inr rfl, le_rfl⟩⟩
  · exact ⟨_, hturn, .inl ⟨rfl, .inr rfl, le_rfl⟩⟩
  by_cases hi : i = .halt
  · subst hi
    exact ⟨_, hturn, .inl ⟨rfl, .inl rfl, (Nat.le_succ _).trans_eq (toNat_pc_succ hpc).symm⟩⟩
  rcases exec_faultsOrAdvances hi s with ⟨c, hraise⟩ | ⟨t, hnext, hadvance, hrunning, hagenda⟩
  · exact ⟨_, hturn.trans hraise, .inl ⟨rfl, .inr rfl, le_rfl⟩⟩
  · exact ⟨t, hturn.trans hnext, .inr ⟨hrunning.trans hbusy, hpc, hadvance ▸ toNat_pc_succ hpc, hagenda⟩⟩

/-! ### The steps of a run -/

/-- No turn of the environment is a RESET (R270). -/
def NoReset (agenda : List Turn) : Prop := ∀ turn ∈ agenda, turn ≠ .host .reset ∧ turn ≠ .host .resetDuringStep

/-- The commands a run from here can still execute (R202, R204). -/
def State.commandBudget (s : State) : Nat := 1024 - s.pc.toNat

/-- The steps the sequencer can still take: one for each command, and the one that faults past IMEM (R202, R204). -/
def State.stepBudget (s : State) : Nat := max 1 (1025 - s.pc.toNat)

/-- The turns a run from here can still take (logs 6, 16). -/
def State.turnBudget (s : State) : Nat := s.agenda.length + s.stepBudget

theorem runsCommand_imp {s : State} (h : s.runsCommand = true) : s.takesStep = true ∧ s.pc.toNat < 1024 := by
  simp only [State.runsCommand, Bool.and_eq_true, decide_eq_true_eq] at h
  exact h.1

theorem takesStep_of_host {s : State} (hseq : s.sequencerNext = false) : s.takesStep = false := by
  simp [State.takesStep, hseq]

/-- The step from `s` to `t` ends the run: with DONE or FAULT and PC not lowered, unless a RESET may have done it. -/
structure LastStep (s t : State) : Prop where
  next : step s = .next t
  idle : t.busy = false
  reports : NoReset s.agenda → (t.done = true ∨ t.fault = true) ∧ s.pc.toNat ≤ t.pc.toNat

/-- The step from `s` to `t` goes on with the run: it takes one turn, and what it spends is off the budgets. -/
structure RunStep (s t : State) : Prop where
  next : step s = .next t
  running : t.busy = true
  pc : s.pc.toNat ≤ t.pc.toNat
  agenda : t.agenda ⊆ s.agenda
  turns : t.turnBudget + 1 ≤ s.turnBudget
  steps : (if s.takesStep then 1 else 0) + t.stepBudget ≤ s.stepBudget
  commands : (if s.runsCommand then 1 else 0) + t.commandBudget ≤ s.commandBudget

/-- What one step adds to a count. -/
theorem stepCount_le_one (b : Bool) : (if b then 1 else 0) ≤ 1 := by
  cases b <;> decide

/-- A command that completes inside IMEM: one step and at most one command spent. -/
theorem RunStep.ofCommand {s t : State} (hnext : step s = .next t) (hrunning : t.busy = true)
    (hpc : s.pc.toNat < Config.imemWords) (hadvance : t.pc.toNat = s.pc.toNat + 1) (hagenda : t.agenda = s.agenda.tail) :
    RunStep s t := by
  simp only [Config.imemWords] at hpc
  have hstep := stepCount_le_one s.takesStep
  have hcommand := stepCount_le_one s.runsCommand
  have hlength : t.agenda.length ≤ s.agenda.length := by simp [hagenda]
  refine ⟨hnext, hrunning, by omega, hagenda ▸ List.tail_subset _, ?_, ?_, ?_⟩ <;>
    simp only [State.turnBudget, State.stepBudget, State.commandBudget] <;> omega

/-- A turn of the environment other than RESET: one turn spent, no step and no command. -/
theorem RunStep.ofHost {s t : State} (hnext : step s = .next t) (hrunning : t.busy = true) (hseq : s.sequencerNext = false)
    (hpc : t.pc = s.pc) {turn : Turn} (hagenda : s.agenda = turn :: t.agenda) : RunStep s t := by
  have hstep := takesStep_of_host hseq
  have hcommand : s.runsCommand = false := Bool.eq_false_iff.mpr fun hruns => by
    obtain ⟨htakes, -⟩ := runsCommand_imp hruns
    exact absurd htakes (Bool.eq_false_iff.mp hstep)
  refine ⟨hnext, hrunning, by rw [hpc], hagenda ▸ List.subset_cons_self .., ?_, ?_, ?_⟩
  · simp only [State.turnBudget, State.stepBudget, hagenda, hpc, List.length_cons]
    omega
  · simp [State.stepBudget, hstep, hpc]
  · simp [State.commandBudget, hcommand, hpc]

/-- Everything a step of a run in progress can be. -/
theorem step_of_busy {s : State} (hbusy : s.busy = true) : ∃ t, LastStep s t ∨ RunStep s t := by
  rcases turn_cases s with hseq | ⟨e, rest, hagenda, hseq⟩
  · have hstep := step_of_sequencerNext hseq
    obtain ⟨t, hturn, ⟨hidle, hreports, hpc⟩ | ⟨hrunning, hpc, hadvance, hagenda⟩⟩ :=
      sequencerTurn_endsOrAdvances (s := s.turnTaken) hbusy
    · exact ⟨t, .inl ⟨hstep.trans hturn, hidle, fun _ => ⟨hreports, hpc⟩⟩⟩
    · exact ⟨t, .inr (.ofCommand (hstep.trans hturn) hrunning hpc hadvance hagenda)⟩
  · have hstep := step_of_host hagenda
    refine ⟨hostTurn e { s with agenda := rest }, ?_⟩
    rcases hostTurn_of_busy (s := { s with agenda := rest }) e hbusy with ⟨hreset, hidle⟩ | ⟨-, -, hrunning, hpc, -, hrest⟩
    · refine .inl ⟨hstep, hidle, fun hno => ?_⟩
      obtain ⟨hbetween, hduring⟩ := hno (.host e) (by simp [hagenda])
      rcases hreset with rfl | rfl
      · exact absurd rfl hbetween
      · exact absurd rfl hduring
    · exact .inr (.ofHost hstep hrunning hseq hpc (hagenda.trans (congrArg _ hrest.symm)))

/-! ### The end of a run -/

theorem run_zero (s : State) : Host.Core.run Sys2Proof.core 0 s = .next s := rfl

theorem run_succ {s t : State} (h : step s = .next t) (k : Nat) :
    Host.Core.run Sys2Proof.core (k + 1) s = Host.Core.run Sys2Proof.core k t := by
  have hcore : Sys2Proof.core.step s = .next t := h
  simp only [Host.Core.run, hcore]

theorem run_one {s t : State} (h : step s = .next t) : Host.Core.run Sys2Proof.core 1 s = .next t :=
  (run_succ h 0).trans (run_zero t)

/-- The run from `s` goes on for `k` steps and ends in `t`, within its budgets (R204). -/
structure EndsAfter (s : State) (k : Nat) (t : State) : Prop where
  turns : k ≤ s.turnBudget
  final : Host.Core.run Sys2Proof.core k s = .next t
  idle : t.busy = false
  running : ∀ j, j < k → ∃ u : State, Host.Core.run Sys2Proof.core j s = .next u ∧ u.busy = true
  commands : countSteps State.runsCommand k s ≤ s.commandBudget
  steps : countSteps State.takesStep k s ≤ s.stepBudget
  reports : NoReset s.agenda → t.done = true ∨ t.fault = true
  pc : NoReset s.agenda → ∀ (j : Nat) (u v : State), j < k → Host.Core.run Sys2Proof.core j s = .next u →
    Host.Core.run Sys2Proof.core (j + 1) s = .next v → u.pc.toNat ≤ v.pc.toNat

theorem LastStep.endsAfter {s t : State} (h : LastStep s t) (hbusy : s.busy = true) : EndsAfter s 1 t where
  turns := by simp only [State.turnBudget, State.stepBudget]; omega
  final := run_one h.next
  idle := h.idle
  running j hj := by
    obtain rfl := Nat.lt_one_iff.mp hj
    exact ⟨s, run_zero s, hbusy⟩
  commands := by
    rw [countSteps_succ h.next, State.commandBudget]
    cases hc : s.runsCommand with
    | false => exact Nat.zero_le _
    | true =>
      obtain ⟨-, hpc⟩ := runsCommand_imp hc
      simp only [if_true, countSteps_zero]
      omega
  steps := by
    rw [countSteps_succ h.next]
    exact (stepCount_le_one _).trans (le_max_left ..)
  reports hno := (h.reports hno).1
  pc hno j u v hj hu hv := by
    obtain rfl := Nat.lt_one_iff.mp hj
    obtain rfl := Host.Outcome.next.inj hu
    obtain rfl := Host.Outcome.next.inj ((run_one h.next).symm.trans hv)
    exact (h.reports hno).2

theorem RunStep.endsAfter {s u t : State} {k : Nat} (h : RunStep s u) (hbusy : s.busy = true) (hu : EndsAfter u k t) :
    EndsAfter s (k + 1) t where
  turns := (Nat.succ_le_succ hu.turns).trans h.turns
  final := (run_succ h.next k).trans hu.final
  idle := hu.idle
  running j hj := by
    cases j with
    | zero => exact ⟨s, run_zero s, hbusy⟩
    | succ j =>
      rw [run_succ h.next]
      exact hu.running j (Nat.lt_of_succ_lt_succ hj)
  commands := by
    rw [countSteps_succ h.next]
    exact (Nat.add_le_add_left hu.commands _).trans h.commands
  steps := by
    rw [countSteps_succ h.next]
    exact (Nat.add_le_add_left hu.steps _).trans h.steps
  reports hno := hu.reports fun turn hturn => hno turn (h.agenda hturn)
  pc hno j v w hj hv hw := by
    rw [run_succ h.next] at hw
    cases j with
    | zero =>
      obtain rfl := Host.Outcome.next.inj hv
      obtain rfl := Host.Outcome.next.inj hw
      exact h.pc
    | succ j =>
      rw [run_succ h.next] at hv
      exact hu.pc (fun turn hturn => hno turn (h.agenda hturn)) j v w (Nat.lt_of_succ_lt_succ hj) hv hw

/-- Every run ends: a step that does not end it leaves a smaller turn budget. -/
theorem exists_endsAfter {s : State} (hbusy : s.busy = true) : ∃ k t, EndsAfter s k t := by
  induction hn : s.turnBudget using Nat.strong_induction_on generalizing s with
  | _ n ih =>
    obtain ⟨u, hlast | hstep⟩ := step_of_busy hbusy
    · exact ⟨1, u, hlast.endsAfter hbusy⟩
    · obtain ⟨k, t, hu⟩ := ih u.turnBudget (hn ▸ hstep.turns) hstep.running rfl
      exact ⟨k + 1, t, hstep.endsAfter hbusy hu⟩

/-- Settles O48: the run's end, by induction on its turn budget. -/
theorem everyRunEnds : Obligations.EveryRunEnds := by
  intro s hbusy
  obtain ⟨k, t, h⟩ := exists_endsAfter hbusy
  exact ⟨k, t, h.turns, h.final, h.idle, h.running, h.commands, h.steps, fun hno => ⟨h.reports hno, h.pc hno⟩⟩

end Sys2Proof.Machine
end

section
/-! The exception family: the causes as numbers, the checks of every command in their order, and from them which fault a
command raises (R232, R235), what a step that faults leaves alone (R233, R234), and on what a fault depends. -/

namespace Sys2Proof.Machine

/-! ### The fault entry -/

/-- The codes of R232 count the causes from 1, in the order of their table. -/
theorem Cause.toNat_code (c : Cause) : c.code.toNat = c.ctorIdx + 1 := by cases c <;> rfl

theorem Cause.eq_of_toNat_code_eq {c d : Cause} (h : c.code.toNat = d.code.toNat) : c = d := by
  rw [Cause.toNat_code, Cause.toNat_code, Nat.succ_inj] at h
  rw [← Cause.ofNat_ctorIdx c, h, Cause.ofNat_ctorIdx]

/-- A fault entry tells its cause. -/
theorem raise_inj {s : State} {c d : Cause} : s.raise c = s.raise d ↔ c = d :=
  ⟨fun h => Cause.eq_of_toNat_code_eq (congrArg (fun t : State => t.cause.toNat) h), congrArg _⟩

/-- FAULT_CMD records the word at PC, or 0 where no word was fetched (R234). -/
theorem fetchedWord_eq_ite (s : State) : s.fetchedWord = if s.pc.toNat < 1024 then s.imemWord s.pc.toNat else 0 := by
  split
  next hpc => exact fetchedWord_of_lt hpc
  next hpc => exact fetchedWord_of_ge (Nat.not_lt.mp hpc)

/-- Settles O8: the entry's FAULT_CMD by cases of the fetch, its CAUSE by cases of the cause. -/
theorem faultEntryRecordsTheFault : Obligations.FaultEntryRecordsTheFault := by
  intro s c
  refine ⟨?_, by simp [State.irq]⟩
  rw [trap_eq, State.raise, fetchedWord_eq_ite]
  cases c <;> rfl

/-! ### The checks of a command -/

/-- The causes each command can raise, in the order in which it checks for them (R235). -/
def faultCauses (i : Instr) : List Cause :=
  match i with
  | .nop | .halt | .eq _ _ _ => []
  | .bld _ _ _ => [.capacity, .addressRange]
  | .bst _ _ => [.unwrittenBuffer, .addressRange]
  | .sst _ _ => [.addressRange]
  | .bclr _ _ => [.capacity]
  | .bmov _ _ | .clamp _ => [.unwrittenBuffer]
  | .shl _ _ _ => [.unwrittenBuffer, .notImplemented, .shiftRange]
  | .popw _ _ _ | .shob _ _ _ => [.unwrittenBuffer, .aliased, .lengthMismatch]
  | .lmw _ _ _ | .lmb _ _ _ | .rmb _ _ _ | .xor _ _ _ | .xort _ _ _ | .and _ _ _ | .msb _ _ | .dbl _ =>
    [.unwrittenBuffer, .lengthMismatch]
  | .cat _ _ _ => [.unwrittenBuffer, .capacity]
  | .cfbi _ _ _ => [.badSegment, .addressRange]
  | .cfbp _ _ | .cfbs _ => [.noSession, .addressRange]

/-- A command checks in the order of the codes, so the first check that fails has the lowest (R235). -/
theorem faultCauses_sorted (i : Instr) : (faultCauses i).Pairwise fun c d => c.code.toNat ≤ d.code.toNat := by
  cases i <;> simp [faultCauses, Cause.code]

/-- A command checks for every cause its rule lists. -/
theorem mem_faultCauses {i : Instr} {s : State} {c : Cause} (h : FaultCondition i s c) : c ∈ faultCauses i := by
  cases i with
  | nop | halt | eq => exact False.elim h
  | _ =>
    simp only [FaultCondition] at h
    split at h <;> simp_all [faultCauses]

/-- What a command checks, it reads from the buffer registers and the session. -/
theorem faultCondition_congr {s s' : State} (hbufs : ∀ r, s'.buf r = s.buf r) (hsess : s'.sess = s.sess) (i : Instr) :
    FaultCondition i s' = FaultCondition i s := by
  funext c
  cases i <;> simp only [FaultCondition, hbufs, hsess]

/-- The result is the fault entry of the first of the causes whose condition holds, if one does. -/
def RaisesFirst (cond : Cause → Prop) (s : State) (cs : List Cause) (r : Result) : Prop :=
  match cs with
  | [] => True
  | c :: cs => (cond c → r = .next (s.raise c)) ∧ (¬cond c → RaisesFirst cond s cs r)

section Shapes

variable {cond : Cause → Prop} {s : State} {cs : List Cause}

theorem raisesFirst_require {p : Prop} [Decidable p] {c : Cause} {r : Result} (hp : p ↔ ¬cond c)
    (hr : RaisesFirst cond s cs r) : RaisesFirst cond s (c :: cs) (require p c s r) :=
  ⟨fun hc => require_neg (fun h => hp.mp h hc) .., fun hc => by rwa [require_pos (hp.mpr hc)]⟩

/-- The range check of R54. -/
theorem raisesFirst_spanFits {addr n : Nat} {r : Result} (hspan : cond .addressRange ↔ PastTop addr n)
    (hr : RaisesFirst cond s cs r) :
    RaisesFirst cond s (.addressRange :: cs) (require (spanFits addr n) .addressRange s r) :=
  raisesFirst_require (spanFits_iff_not_pastTop.trans (not_congr hspan.symm)) hr

/-- The check for a session (R177, R185). -/
theorem raisesFirst_session {r : Result} (hv : cond .noSession ↔ s.sess.valid = false) (hr : RaisesFirst cond s cs r) :
    RaisesFirst cond s (.noSession :: cs) (require s.sess.valid .noSession s r) :=
  raisesFirst_require (by simp [hv]) hr

theorem raisesFirst_withBuffer {r : BufReg} {k : Buf → Result}
    (hv : cond .unwrittenBuffer ↔ (s.buf r).valid = false) (hk : RaisesFirst cond s cs (k (s.buf r))) :
    RaisesFirst cond s (.unwrittenBuffer :: cs) (withBuffer s r k) :=
  ⟨fun hc => withBuffer_neg (hv.mp hc) k, fun hc => by rwa [withBuffer_pos (Bool.eq_true_of_not_eq_false (mt hv.mpr hc))]⟩

/-- Two checked reads raise the same cause for either register. -/
theorem raisesFirst_withBuffers {ra rb : BufReg} {k : Buf → Buf → Result}
    (hv : cond .unwrittenBuffer ↔ (s.buf ra).valid = false ∨ (s.buf rb).valid = false)
    (hk : RaisesFirst cond s cs (k (s.buf ra) (s.buf rb))) :
    RaisesFirst cond s (.unwrittenBuffer :: cs) (withBuffer s ra fun a => withBuffer s rb fun b => k a b) := by
  cases ha : (s.buf ra).valid with
  | false => exact ⟨fun _ => withBuffer_neg ha _, fun hc => absurd (hv.mpr (.inl ha)) hc⟩
  | true =>
    rw [withBuffer_pos ha]
    exact raisesFirst_withBuffer (hv.trans (by simp [ha])) hk

theorem raisesFirst_wordwise {f : Word → Word → Word} {rd ra rb : BufReg}
    (hv : cond .unwrittenBuffer ↔ (s.buf ra).valid = false ∨ (s.buf rb).valid = false)
    (hsig : cond .lengthMismatch ↔ (s.buf ra).sig ≠ (s.buf rb).sig) :
    RaisesFirst cond s [.unwrittenBuffer, .lengthMismatch] (wordwise f rd ra rb s) := by
  refine raisesFirst_withBuffers hv ?_
  exact raisesFirst_require (not_ne_iff.symm.trans (not_congr hsig.symm)) trivial

end Shapes

/-- Every command raises the first cause it checks for whose condition holds (R231, R235). -/
theorem exec_raisesFirst (i : Instr) (s : State) : RaisesFirst (FaultCondition i s) s (faultCauses i) (exec i s) := by
  unfold exec
  cases i with
  | nop | halt | eq => trivial
  | bld =>
    refine raisesFirst_require Nat.not_lt.symm ?_
    exact raisesFirst_spanFits Iff.rfl trivial
  | bst =>
    refine raisesFirst_withBuffer Iff.rfl ?_
    exact raisesFirst_spanFits Iff.rfl trivial
  | sst => exact raisesFirst_spanFits Iff.rfl trivial
  | bclr => exact raisesFirst_require Nat.not_lt.symm trivial
  | bmov | clamp => exact raisesFirst_withBuffer Iff.rfl trivial
  | shl =>
    refine raisesFirst_withBuffer Iff.rfl ?_
    refine raisesFirst_require Int.not_lt.symm ?_
    exact raisesFirst_require Int.not_le.symm trivial
  | lmw | lmb | rmb =>
    refine raisesFirst_withBuffer Iff.rfl ?_
    exact raisesFirst_require Nat.not_lt.symm trivial
  | popw | shob =>
    refine raisesFirst_withBuffer Iff.rfl ?_
    refine raisesFirst_require Iff.rfl ?_
    exact raisesFirst_require Nat.not_lt.symm trivial
  | xor | and => exact raisesFirst_wordwise Iff.rfl Iff.rfl
  | xort | cat =>
    refine raisesFirst_withBuffers Iff.rfl ?_
    exact raisesFirst_require Nat.not_lt.symm trivial
  | msb =>
    refine raisesFirst_withBuffer Iff.rfl ?_
    exact raisesFirst_require Nat.one_le_iff_ne_zero trivial
  | dbl =>
    refine raisesFirst_withBuffer Iff.rfl ?_
    exact raisesFirst_require (not_or.trans (and_congr not_ne_iff not_ne_iff)).symm trivial
  | cfbi =>
    refine raisesFirst_require mem_segmentSet_iff ?_
    exact raisesFirst_spanFits Iff.rfl trivial
  | cfbp | cfbs =>
    refine raisesFirst_session Iff.rfl ?_
    exact raisesFirst_spanFits Iff.rfl trivial

/-! ### The lowest cause -/

/-- `c` is the lowest of the causes that `cond` holds of (R235). -/
structure LowestCause (cond : Cause → Prop) (c : Cause) : Prop where
  holds : cond c
  lowest : ∀ d, cond d → c.code.toNat ≤ d.code.toNat

theorem LowestCause.unique {cond : Cause → Prop} {c d : Cause} (hc : LowestCause cond c) (hd : LowestCause cond d) : c = d :=
  Cause.eq_of_toNat_code_eq (Nat.le_antisymm (hc.lowest d hd.holds) (hd.lowest c hc.holds))

/-- Where every condition is checked for in the order of the codes, the lowest one that holds is raised; or none holds. -/
theorem RaisesFirst.lowest_or_none {cond : Cause → Prop} {s : State} {cs : List Cause} {r : Result}
    (h : RaisesFirst cond s cs r) (hsorted : cs.Pairwise fun c d => c.code.toNat ≤ d.code.toNat)
    (hall : ∀ c, cond c → c ∈ cs) : (∃ c, LowestCause cond c ∧ r = .next (s.raise c)) ∨ ∀ c, ¬cond c := by
  induction cs with
  | nil => exact .inr fun c hc => absurd (hall c hc) List.not_mem_nil
  | cons c cs ih =>
    obtain ⟨hfirst, hrest⟩ := h
    obtain ⟨hle, hsorted⟩ := List.pairwise_cons.mp hsorted
    by_cases hc : cond c
    · refine .inl ⟨c, ⟨hc, fun d hd => ?_⟩, hfirst hc⟩
      rcases List.mem_cons.mp (hall d hd) with rfl | hmem
      · exact le_rfl
      · exact hle d hmem
    · refine ih (hrest hc) hsorted fun d hd => List.mem_of_ne_of_mem ?_ (hall d hd)
      rintro rfl
      exact hc hd

/-- A command raises the lowest of its fault conditions that hold, or none of them holds (R235). -/
theorem exec_lowest_or_no_fault (i : Instr) (s : State) :
    (∃ c, LowestCause (FaultCondition i s) c ∧ exec i s = .next (s.raise c)) ∨ ∀ c, ¬FaultCondition i s c :=
  (exec_raisesFirst i s).lowest_or_none (faultCauses_sorted i) fun _ => mem_faultCauses

/-- A command takes the fault entry of a cause exactly when that is the lowest of its fault conditions: one that completes
moves PC, which the entry does not. -/
theorem exec_eq_raise_iff {i : Instr} {s : State} {c : Cause} :
    exec i s = .next (s.raise c) ↔ LowestCause (FaultCondition i s) c := by
  rcases exec_lowest_or_no_fault i s with ⟨d, hd, hexec⟩ | hnone
  · rw [hexec, Host.Outcome.next.injEq, raise_inj]
    exact ⟨fun h => h ▸ hd, fun hc => hd.unique hc⟩
  · refine ⟨fun h => ?_, fun hc => absurd hc.holds (hnone c)⟩
    obtain ⟨t, hnext, -, -, hpc, -⟩ := commandsCompleteWithinTheirFrame i s hnone
    obtain rfl := Host.Outcome.next.inj (h.symm.trans hnext)
    exact absurd (congrArg BitVec.toNat hpc) (by rw [raise_pc]; bv_omega)

/-- Settles O13: the fault is the lowest failing check, and the checks read the buffers and the session alone. -/
theorem faultsDependOnNothingElse : Obligations.FaultsDependOnNothingElse := by
  intro i s s' c hbufs hsess
  rw [exec_eq_raise_iff, exec_eq_raise_iff, faultCondition_congr hbufs hsess]

/-! ### The faults of a step -/

/-- No command raises the cause of the fetch (R202). -/
theorem not_faultCondition_fetchRange (i : Instr) (s : State) : ¬FaultCondition i s .fetchRange := by
  cases i <;> exact id

/-- No command raises the cause of the decoder (R78). -/
theorem not_faultCondition_illegalCommand (i : Instr) (s : State) : ¬FaultCondition i s .illegalCommand := by
  cases i <;> exact id

section StepFaults

variable {s : State}

theorem stepFaultCondition_pastImem (hpc : 1024 ≤ s.pc.toNat) {c : Cause} :
    StepFaultCondition s c ↔ c = .fetchRange := by
  have hpc' : ¬s.pc.toNat < 1024 := Nat.not_lt.mpr hpc
  cases c <;> simp [StepFaultCondition, hpc, hpc']

theorem stepFaultCondition_illegal (hpc : s.pc.toNat < 1024) {e : DecodeError}
    (hd : decode (s.imemWord s.pc.toNat) = .error e) {c : Cause} : StepFaultCondition s c ↔ c = .illegalCommand := by
  have hpc' : ¬1024 ≤ s.pc.toNat := Nat.not_le.mpr hpc
  cases c <;> simp [StepFaultCondition, hpc, hpc', hd]

theorem stepFaultCondition_command (hpc : s.pc.toNat < 1024) {i : Instr}
    (hd : decode (s.imemWord s.pc.toNat) = .ok i) {c : Cause} : StepFaultCondition s c ↔ FaultCondition i s c := by
  have hpc' : ¬1024 ≤ s.pc.toNat := Nat.not_le.mpr hpc
  cases c with
  | fetchRange => simp [StepFaultCondition, hpc', not_faultCondition_fetchRange]
  | illegalCommand => simp [StepFaultCondition, hd, not_faultCondition_illegalCommand]
  | _ => simp [StepFaultCondition, hpc, hd]

/-- A running sequencer's turn takes the fault entry of the lowest fault condition of the step (R235). -/
theorem sequencerTurn_of_lowestCause (hbusy : s.busy = true) {c : Cause} (hc : LowestCause (StepFaultCondition s) c) :
    sequencerTurn s = .next (s.raise c) := by
  rcases sequencerTurn_cases hbusy with ⟨hpc, hturn⟩ | ⟨hpc, ⟨e, hd⟩, hturn⟩ | ⟨hpc, i, hd, hturn⟩
  · rw [hturn, (stepFaultCondition_pastImem hpc).mp hc.holds]
  · rw [hturn, (stepFaultCondition_illegal hpc hd).mp hc.holds]
  · have hcond : StepFaultCondition s = FaultCondition i s :=
      funext fun d => propext (stepFaultCondition_command hpc hd)
    rw [hturn, exec_eq_raise_iff, ← hcond]
    exact hc

/-- A turn that ends with FAULT = 1 took the fault entry: a command that completes keeps FAULT (R201, R231). -/
theorem sequencerTurn_of_fault {t : State} (hbusy : s.busy = true) (hfault : s.fault = false)
    (hturn : sequencerTurn s = .next t) (ht : t.fault = true) : ∃ c, t = s.raise c := by
  rcases sequencerTurn_cases hbusy with ⟨-, h⟩ | ⟨-, -, h⟩ | ⟨-, i, -, h⟩
  · exact ⟨_, Host.Outcome.next.inj (hturn.symm.trans h)⟩
  · exact ⟨_, Host.Outcome.next.inj (hturn.symm.trans h)⟩
  · rcases exec_lowest_or_no_fault i s with ⟨c, -, hexec⟩ | hnone
    · exact ⟨c, Host.Outcome.next.inj (hturn.symm.trans (h.trans hexec))⟩
    · obtain ⟨u, hexec, -, -, -, hkept⟩ := commandsCompleteWithinTheirFrame i s hnone
      obtain rfl := Host.Outcome.next.inj (hturn.symm.trans (h.trans hexec))
      exact absurd (hkept.symm.trans ht) (by simp [hfault])

end StepFaults

/-- Settles O10: the step is the turn of a running sequencer. -/
theorem lowestCauseCodeWins : Obligations.LowestCauseCodeWins := by
  intro s c hseq hbusy hc hlow
  rw [step_of_sequencerNext hseq]
  exact sequencerTurn_of_lowestCause (s := s.turnTaken) hbusy ⟨hc, hlow⟩

/-- Settles O9: the step took the fault entry, which writes the host's registers only. -/
theorem faultsArePrecise : Obligations.FaultsArePrecise := by
  intro s t hseq hbusy hfault hstep ht
  rw [step_of_sequencerNext hseq] at hstep
  obtain ⟨c, rfl⟩ := sequencerTurn_of_fault (s := s.turnTaken) hbusy hfault hstep ht
  exact ⟨fun _ => rfl, fun _ => rfl, rfl, fun _ => rfl, fun _ => rfl, rfl, c, rfl⟩

end Sys2Proof.Machine
end

section
/-! The exception family, the host's side: IRQ (R240), refused transactions (R251), writes that wait for idle (R253), CTRL
(R254, R255), and the return from a fault (R236). -/

namespace Sys2Proof.Machine

/-- Settles O57: the level reads IE, DONE and FAULT only. -/
theorem irqIsTheLevelOfDoneOrFault : Obligations.IrqIsTheLevelOfDoneOrFault :=
  fun s => ⟨by simp [State.irq], rfl⟩

/-- Settles O53: such a transaction is not accepted. -/
theorem badTransactionsAreRefused : Obligations.BadTransactionsAreRefused := by
  intro s off size data hbad
  have hrefused : ¬hostAccepted off size = true := by
    rw [hostAccepted_iff, not_and_or]
    exact hbad
  exact ⟨if_neg hrefused, if_neg hrefused⟩

/-! ### Writes that wait for idle -/

theorem imemWord_setImem (s : State) (i j : Nat) (x : Word) :
    State.imemWord { s with imem := s.imem.set i x } j = if j = i then x else s.imemWord j := by
  rw [State.imemWord, get_set]
  split <;> rfl

theorem dmemWord_setDmem (s : State) (a b : Nat) (x : Word) :
    State.dmemWord { s with dmem := s.dmem.set a x } b = if b = a then x else s.dmemWord b := by
  rw [State.dmemWord, Memory.dmemAt, get_set]
  split <;> rfl

section Writes

variable {off : BitVec 19} (hal : off.toNat % 4 = 0)
include hal

theorem hostWrite_imem {i : Nat} (htarget : hostTarget off = .imem i) (data : Word) (s : State) :
    hostWrite off 4 data s = idleWrite s { s with imem := s.imem.set i data } := by
  simp [hostWrite, hostAccepted_iff.mpr ⟨rfl, hal⟩, htarget]

theorem hostWrite_dmem {a : Nat} (htarget : hostTarget off = .dmem a) (data : Word) (s : State) :
    hostWrite off 4 data s = idleWrite s { s with dmem := s.dmem.set a data } := by
  simp [hostWrite, hostAccepted_iff.mpr ⟨rfl, hal⟩, htarget]

end Writes

theorem hostWrite_ctrl (data : Word) (s : State) : hostWrite 0x0000 4 data s = ctrlWrite data s :=
  hostWrite_reg (r := .ctrl) rfl rfl data s

theorem hostWrite_pc (data : Word) (s : State) :
    hostWrite 0x0008 4 data s = idleWrite s { s with pc := data.extractLsb' 0 11 } :=
  hostWrite_reg (r := .pc) rfl rfl data s

theorem extractLsb'_low_eq_ofNat (data : Word) : data.extractLsb' 0 11 = BitVec.ofNat 11 (data.toNat % 2 ^ 11) := by
  apply BitVec.eq_of_toNat_eq
  simp

/-- What is left of a write that waits for idle: the refusal while BUSY = 1, else what the write itself makes true (R253). -/
theorem idleWrite_spec {s t u : State} {written : Prop} (hu : u = idleWrite s t) (ht : u = t → written) :
    if s.busy then u = { s with hostErr := true } else written := by
  rcases idleWrite_cases s t with ⟨hbusy, hwrite⟩ | ⟨hbusy, hwrite⟩
  · rw [if_pos hbusy]
    exact hu.trans hwrite
  · rw [if_neg (by simp [hbusy])]
    exact ht (hu.trans hwrite)

/-- Settles O52: each of the three targets waits for idle. -/
theorem writesWaitForIdle : Obligations.WritesWaitForIdle := by
  refine fun s data => ⟨?_, fun i hi => ?_, fun a ha => ?_⟩
  · rw [hostWrite_pc, idleWrite, extractLsb'_low_eq_ofNat]
  · refine idleWrite_spec (hostWrite_imem (windowOffset_aligned rfl) (hostTarget_imem hi) data s) fun h => ?_
    rw [h]
    exact ⟨rfl, fun j => imemWord_setImem s i j data⟩
  · refine idleWrite_spec (hostWrite_dmem (windowOffset_aligned rfl) (hostTarget_dmem ha) data s) fun h => ?_
    rw [h]
    exact ⟨rfl, fun b => dmemWord_setDmem s a b data⟩

/-! ### CTRL -/

/-- Settles O51: IE, then CLEAR, then GO, each with its refusal. -/
theorem ctrlWriteAppliesIeClearGo : Obligations.CtrlWriteAppliesIeClearGo := by
  intro s data
  rw [hostWrite_ctrl, ctrlWrite]
  cases data.getLsbD 1 <;> cases data.getLsbD 0 <;> simp [State.clear, State.go]

/-- CLEAR and GO after a fault undo its entry: a run in progress has DONE and FAULT 0 and the fault registers 0 (R39, R40). -/
theorem go_clear_raise {s : State} (hinv : s.Inv) (hbusy : s.busy = true) (c : Cause) :
    (s.raise c).clear.go = { s with hostErr := false } := by
  obtain ⟨hrun, -, -, hclean⟩ := hinv.status
  obtain ⟨hdone, hfault⟩ := hrun hbusy
  obtain ⟨hcause, hpc, hcmd⟩ := hclean hfault
  rw [clear_of_idle rfl, go_accepted rfl rfl]
  simp [State.raise, hbusy, hdone, hfault, hcause, hpc, hcmd]

/-- Settles O58: writing IE first makes no difference to the entry that CLEAR and GO undo. -/
theorem clearAndGoResumeAtTheFault : Obligations.ClearAndGoResumeAtTheFault := by
  intro s c data hinv hbusy hgo hclear
  calc hostWrite 0x0000 4 data (s.raise c)
      = (State.raise { s with ie := data.getLsbD 2 } c).clear.go := by
        rw [hostWrite_ctrl, ctrlWrite, hgo, hclear]; rfl
    _ = _ := go_clear_raise (hinv.withFree (ie := data.getLsbD 2) ..) hbusy c

end Sys2Proof.Machine
end

section
/-! The state family, the start of a run (O46): power-up reset establishes the invariant that every step keeps (O47). -/

namespace Sys2Proof.Machine

/-- Settles O46: every buffer is invalid, there is no session, no status bit is set, and nothing is written in a memory. -/
theorem resetHasTheInvariant : Obligations.ResetHasTheInvariant where
  bufs r := (buf_reset r).symm ▸ Buf.Ok.invalid
  sess := show Session.empty.Ok by decide
  status := show State.reset.StatusOk by decide
  imem := reset_memories_wf.1
  dmem := reset_memories_wf.2

end Sys2Proof.Machine
end
